-- ==== Sys2Proof/Word.lean ====
section
/-! DEFINITION. The block's data types: bytes and samples, binary32 values, the intermediate values of the dithering
engine, buckets (spec rules R6, R12, R123, R137). -/

namespace Sys2Proof

/-- A byte: a bus byte, a plane byte or an 8-bit grey sample, unsigned, bits 7 down to 0 (R6). -/
abbrev Byte := BitVec 8

/-- A bucket number or a 2-bit code, unsigned, 0 to 3 (R113, R123 (b)). -/
abbrev Code := BitVec 2

/-- A finite IEEE 754 binary32 value, an element of `WORK` (R12): sign and magnitude, the magnitude counted in
units of 2^-149, the least positive binary32 value. Every finite binary32 value, the two zeros included, is one
pair, and `F32.Representable` says which pairs are binary32 values. No element of `WORK` is an infinity or a NaN
(R137); the type has none. -/
structure F32 where
  /-- the sign: true for negative values and for −0 -/
  neg : Bool
  /-- the magnitude in units of 2^-149 -/
  mag : Nat
  deriving DecidableEq, Repr, Inhabited

/-- The unit 1.0 as a count of 2^-149. -/
def F32.one : Nat := 2 ^ 149

/-- The integer `n` as a binary32 value; exact for every integer below 2^24 (R123 (a)). -/
def F32.ofNat (n : Nat) : F32 := ⟨false, n * F32.one⟩

/-- `f32(sample)`: the exact binary32 value of an 8-bit sample (R117, R118, R136). -/
def F32.ofByte (b : Byte) : F32 := F32.ofNat b.toNat

/-- The same value with the other sign. -/
def F32.negate (v : F32) : F32 := ⟨!v.neg, v.mag⟩

/-- The value as a signed count of 2^-149. -/
def F32.toInt (v : F32) : Int := if v.neg then -(v.mag : Int) else (v.mag : Int)

/-- The magnitude has at most 24 significant bits: what a binary32 significand can hold. -/
def F32.Representable (v : F32) : Prop := v.mag % 2 ^ (Nat.log2 v.mag - 23) = 0

/-- An intermediate value of the dithering engine, ±num/den, in no format: what `DITHER_ARITH` computes with between a
load from `WORK` and a store into it (R137). -/
structure Exact where
  neg : Bool
  num : Nat
  den : Nat
  deriving DecidableEq, Repr, Inhabited

/-- The integer `n`. -/
def Exact.ofNat (n : Nat) : Exact := ⟨false, n, 1⟩

/-- An element of `WORK`, loaded. -/
def F32.toExact (v : F32) : Exact := ⟨v.neg, v.mag, F32.one⟩

/-- The numerator with its sign. -/
def Exact.signed (v : Exact) : Int := if v.neg then -(v.num : Int) else (v.num : Int)

/-- `DITHER_ARITH` and `ROUND_TIE` in one record: the four operations and `rint` the engine works with (R137). -/
structure Numerics where
  add : Exact → Exact → Exact
  sub : Exact → Exact → Exact
  mul : Exact → Exact → Exact
  div : Exact → Exact → Exact
  rint : Exact → Exact
  deriving Inhabited

end Sys2Proof
end

