-- ==== Sys2Proof/Config.lean ====
section
/-! DEFINITION. What an implementation of the block fixes: the parameters of spec rule R5, with the OPEN ones
uninterpreted (spec 92_eei_decisions.md D1 to D32, 93_implementation_defined.md U7 to U18). -/

namespace Sys2Proof

/-- `ROUND_TIE`: how `rint` rounds a value half-way between two integers (R133, D6). -/
inductive TieRule where
  | even
  | away
  deriving DecidableEq, Repr, Inhabited

/-- Which function `SPLIT4` is (R94): the uninterpreted one, or the default that R94 offers from general
knowledge. -/
inductive SplitRule where
  | uninterpreted
  | highLow
  deriving DecidableEq, Repr, Inhabited

/-- `DITHER_ARITH`: the arithmetic of the dithering engine (R137, D5). -/
inductive ArithRule where
  /-- every operation in binary32, rounded once: the spec's choice -/
  | binary32
  /-- the other reading R137 names, "in a wider format and rounded once on the store", with exact operations -/
  | roundedAtStore
  /-- any other arithmetic, uninterpreted -/
  | uninterpreted
  deriving DecidableEq, Repr, Inhabited

/-- The command sequences inside which `SEQ_DELAYS` puts delays: the inits and the transfers (R5, D14). A transfer of
two white planes is a `pic_display` (R92). -/
inductive Sequence where
  | initFast
  | initPartial
  | init4gray
  | picDisplay
  | picDisplay4g
  deriving DecidableEq, Repr

/-- `SEQ_DELAYS`, in milliseconds (R5, D14, N7): the delay before each poll loop, and of each sequence the delays at its
places, in order: before its first transaction, and after each transaction and each poll loop; never inside a
transaction, whose data come straight after the command (R66, R180). A place a list does not reach has none
(notes/assumptions/24.md). -/
structure SeqDelays where
  prePollMs : Nat
  initFast : List Nat
  initPartial : List Nat
  init4gray : List Nat
  picDisplay : List Nat
  picDisplay4g : List Nat
  deriving DecidableEq, Repr, Inhabited

/-- The delay at place `k` of a sequence. -/
def SeqDelays.delay (d : SeqDelays) (q : Sequence) (k : Nat) : Nat :=
  match q with
  | .initFast => d.initFast.getD k 0
  | .initPartial => d.initPartial.getD k 0
  | .init4gray => d.init4gray.getD k 0
  | .picDisplay => d.picDisplay.getD k 0
  | .picDisplay4g => d.picDisplay4g.getD k 0

/-- The default of D14: no delay anywhere. -/
def SeqDelays.zero : SeqDelays := ⟨0, [], [], [], [], []⟩

/-- The read-only byte strings of the block (R22, R23). The source gives none of their bytes and none of their
lengths; each may be empty (U9, U10). -/
structure OpenBytes where
  p00 : List Byte
  p01 : List Byte
  p06 : List Byte
  p30 : List Byte
  p50 : List Byte
  p60 : List Byte
  p61 : List Byte
  p65 : List Byte
  p82 : List Byte
  /-- `PF_E0`, `PF_E5`: the fast-mode bytes of `init_fast` -/
  pfE0 : List Byte
  pfE5 : List Byte
  /-- `PP_E0`, `PP_E5`: the partial-mode bytes of `init_partial` -/
  ppE0 : List Byte
  ppE5 : List Byte
  /-- `LUT_0` VCOM, `LUT_1` LUTWW, `LUT_2` LUTR, `LUT_3` LUTW, `LUT_4` LUTB, `LUT_5` the trailing scalars -/
  lut0 : List Byte
  lut1 : List Byte
  lut2 : List Byte
  lut3 : List Byte
  lut4 : List Byte
  lut5 : List Byte
  deriving DecidableEq, Repr, Inhabited

/-- `LUT`: one read-only memory cut into six consecutive sub-ranges in this order (R22). -/
def OpenBytes.lut (b : OpenBytes) : List Byte :=
  b.lut0 ++ b.lut1 ++ b.lut2 ++ b.lut3 ++ b.lut4 ++ b.lut5

/-- The parameters of the block (R5). They are plain data, fixed for the machine: `State.cfg` holds them and no
step writes them, so a statement over every state is a statement over every choice of them. -/
structure Params where
  /-- `W`, `H`: the frame's geometry; the encoders take any, the transfers the native one only -/
  w : Nat
  h : Nat
  /-- `POLL_INTERVAL_MS`, `POLL_CEILING_MS` (none = unbounded), `RESET_SETTLE_MS`, `SEQ_DELAYS` -/
  pollIntervalMs : Nat
  pollCeilingMs : Option Nat
  resetSettleMs : Nat
  delays : SeqDelays
  /-- `WHITE_BYTE`, `PAD_BIT`, `ROUND_TIE`, `DITHER_ARITH`, `SPLIT4` -/
  whiteByte : Byte
  padBit : Bool
  roundTie : TieRule
  arith : ArithRule
  split : SplitRule
  /-- `BUSY_ACTIVE_LEVEL`: the level of the busy line that means busy (R48) -/
  busyActiveLevel : Bool
  /-- `LUT6_CMD`: the command of the sixth LUT sub-write; none = "no command" (R87, U10) -/
  lut6Cmd : Option Byte
  bytes : OpenBytes
  deriving DecidableEq, Repr, Inhabited

/-- OPEN (N2, N3): the configuration bytes and the LUT of the implementation. No body: nothing can evaluate it. -/
opaque Config.openBytes : OpenBytes

/-- OPEN (D12): the poll ceiling. -/
opaque Config.pollCeilingMs : Option Nat

/-- OPEN (D14): the delays inside the init and transfer sequences. -/
opaque Config.seqDelays : SeqDelays

/-- The numerics of an arithmetic that is neither of the two R137 describes, uninterpreted (U16). -/
opaque Config.ditherArith : Numerics

/-- The level of the data output between two transfers, which the spec does not state: a free value, by the bytes sent
since reset, for only a byte transfer writes data out (R27; notes/assumptions/20.md). -/
opaque Config.dataOutLevel : List Byte → Bool

/-- OPEN (90_conflicts.md C2): the command of the sixth LUT sub-write. -/
opaque Config.lut6Cmd : Option Byte

/-- OPEN (D11): the 4-gray split, uninterpreted: a 2-bit plane to the bytes after 0x10 and after 0x13 (R94). -/
opaque Config.split4 : List Byte → List Byte × List Byte

/-- The native geometry `W` = 240, `H` = 416 (R5). -/
def Config.nativeW : Nat := 240
def Config.nativeH : Nat := 416

/-- `ANIM_PERIOD_MS` (R5): the animation's cadence in milliseconds. It is kept by the host's worker and no
event of the block depends on it (R157, R221, R256). -/
def Config.animPeriodMs : Nat := 100

/-- `SLEEP_MAGIC` (R5): the data byte after the deep-sleep command. -/
def Config.sleepMagic : Byte := 0xA5#8

/-- `DC` low is the command level and `DC` high the data level (R50). -/
def Config.dcCommand : Bool := false
def Config.dcData : Bool := true

/-- The bucket breakpoints `BP` and the dither level spacing `QSTEP` (R5). -/
def Config.breakpoints : List Nat := [64, 128, 192]
def Config.qstep : Nat := 85

/-- The block's parameters: the values the spec gives or decides (R5), and the OPEN constants above. -/
def Config.params : Params where
  w := Config.nativeW
  h := Config.nativeH
  pollIntervalMs := 10
  pollCeilingMs := Config.pollCeilingMs
  resetSettleMs := 20
  delays := Config.seqDelays
  whiteByte := 0xFF#8
  padBit := false
  roundTie := .even
  arith := .binary32
  split := .uninterpreted
  busyActiveLevel := false
  lut6Cmd := Config.lut6Cmd
  bytes := Config.openBytes

/-- `STRIDE1` = ceil(W/8) (R5, R42). -/
def Params.stride1 (p : Params) : Nat := (p.w + 7) / 8
/-- `STRIDE2` = ceil(W/4) (R5, R43). -/
def Params.stride2 (p : Params) : Nat := (p.w + 3) / 4
/-- `PLANE1_BYTES` = STRIDE1·H (R5). -/
def Params.plane1Bytes (p : Params) : Nat := p.stride1 * p.h
/-- `PLANE2_BYTES` = STRIDE2·H (R5). -/
def Params.plane2Bytes (p : Params) : Nat := p.stride2 * p.h
/-- The number of samples of a frame, W·H (R40). -/
def Params.samples (p : Params) : Nat := p.w * p.h

end Sys2Proof
end

