-- ==== Sys2Proof/Machine/Numerics.lean ====
section
/-! DEFINITION. The arithmetic of the dithering engine: IEEE 754 binary32, every operation the exact result rounded once
to the nearest value, ties to even, and `rint`; the store into `WORK`; the choices of `DITHER_ARITH` (rules R133, R137;
92_eei_decisions.md D5, D6). -/

namespace Sys2Proof

/-- The integer nearest `n / d`, ties to even. -/
def roundEven (n d : Nat) : Nat :=
  if 2 * (n % d) < d then n / d
  else if d < 2 * (n % d) then n / d + 1
  else n / d + n / d % 2

/-- The integer nearest `n / d`, ties upwards: away from zero, for a magnitude. -/
def roundAway (n d : Nat) : Nat := (2 * n + d) / (2 * d)

/-- The magnitude of the binary32 value nearest `(n / d)·2^-149`, ties to even: a significand of 24 bits, one unit
of 2^-149 being the finest step. The exponent is not bounded above: no value of the engine comes near the largest
binary32 value (R137, R139; notes/assumptions/11.md). -/
def roundMag (n d : Nat) : Nat :=
  let step := 2 ^ (Nat.log2 (n / d) - 23)
  roundEven n (d * step) * step

/-- `fadd32`. An exact zero is +0 unless both operands are −0. -/
def F32.add (a b : F32) : F32 :=
  let r := a.toInt + b.toInt
  if r = 0 then ⟨a.neg && b.neg, 0⟩ else ⟨decide (r < 0), roundMag r.natAbs 1⟩

/-- `fsub32`. -/
def F32.sub (a b : F32) : F32 := F32.add a b.negate

/-- `fmul32`. -/
def F32.mul (a b : F32) : F32 := ⟨a.neg != b.neg, roundMag (a.mag * b.mag) F32.one⟩

/-- `fdiv32`. The only divisors are 85 and 16 (R137). -/
def F32.div (a b : F32) : F32 := ⟨a.neg != b.neg, roundMag (a.mag * F32.one) b.mag⟩

/-- `rint`: the nearest integer, ties by `ROUND_TIE`; the sign of a zero result is the operand's (R133). -/
def F32.rint (t : TieRule) (v : F32) : F32 :=
  match t with
  | .even => ⟨v.neg, roundEven v.mag F32.one * F32.one⟩
  | .away => ⟨v.neg, roundAway v.mag F32.one * F32.one⟩

/-- Whether the integer `n ≥ 1` is at most `v`; exact (R123 (a)). -/
def F32.atLeast (n : Nat) (v : F32) : Bool := !v.neg && decide (n * F32.one ≤ v.mag)

/-- The store into `WORK`: the nearest binary32 value, ties to even, under any choice of `DITHER_ARITH` (R137). A
binary32 value is stored as it is. -/
def Exact.toF32 (v : Exact) : F32 := ⟨v.neg, roundMag (v.num * F32.one) v.den⟩

/-- A signed quotient; a zero takes the sign given. -/
def Exact.ofSigned (zeroNeg : Bool) (n : Int) (d : Nat) : Exact :=
  if n = 0 then ⟨zeroNeg, 0, d⟩ else ⟨decide (n < 0), n.natAbs, d⟩

/-- The exact operations. -/
def Exact.add (a b : Exact) : Exact :=
  Exact.ofSigned (a.neg && b.neg) (a.signed * b.den + b.signed * a.den) (a.den * b.den)

def Exact.sub (a b : Exact) : Exact := Exact.add a ⟨!b.neg, b.num, b.den⟩

def Exact.mul (a b : Exact) : Exact := ⟨a.neg != b.neg, a.num * b.num, a.den * b.den⟩

def Exact.div (a b : Exact) : Exact := ⟨a.neg != b.neg, a.num * b.den, a.den * b.num⟩

/-- The nearest integer, ties by `ROUND_TIE`. -/
def Exact.rint (t : TieRule) (v : Exact) : Exact :=
  match t with
  | .even => ⟨v.neg, roundEven v.num v.den, 1⟩
  | .away => ⟨v.neg, roundAway v.num v.den, 1⟩

/-- Every operation in binary32, one rounding per operation (D5). The operands are binary32 values already. -/
def numerics32 (t : TieRule) : Numerics where
  add a b := (F32.add a.toF32 b.toF32).toExact
  sub a b := (F32.sub a.toF32 b.toF32).toExact
  mul a b := (F32.mul a.toF32 b.toF32).toExact
  div a b := (F32.div a.toF32 b.toF32).toExact
  rint a := (F32.rint t a.toF32).toExact

/-- Exact operations; only the store rounds. -/
def numericsExact (t : TieRule) : Numerics := ⟨Exact.add, Exact.sub, Exact.mul, Exact.div, Exact.rint t⟩

/-- The numerics the parameters choose: `DITHER_ARITH`, and ties of `rint` by `ROUND_TIE` (R137, D5, D6). -/
def numerics (p : Params) : Numerics :=
  match p.arith with
  | .binary32 => numerics32 p.roundTie
  | .roundedAtStore => numericsExact p.roundTie
  | .uninterpreted => Config.ditherArith

end Sys2Proof
end

