-- ==== Sys2Proof/Machine/Dither.lean ====
section
/-! DEFINITION. The Floyd–Steinberg dithering engine (spec/43_dither.md rules R130 to R140). -/

namespace Sys2Proof

/-- The pixels the engine visits, in order: y from 0 to H−2, and in each row x from 1 to W−2, both inclusive (R132). -/
def ditherScan (w h : Nat) : List (Nat × Nat) :=
  (List.range (h - 1)).flatMap fun y => (List.range (w - 2)).map fun x => (x + 1, y)

/-- The level nearest `old`: `rint(old / 85) × 85`, with no clamp (R133). -/
def ditherLevel (n : Numerics) (old : Exact) : Exact :=
  n.mul (n.rint (n.div old (Exact.ofNat Config.qstep))) (Exact.ofNat Config.qstep)

/-- The share `(err × k) / 16` of the error (R135). -/
def ditherTerm (n : Numerics) (err : Exact) (k : Nat) : Exact := n.div (n.mul err (Exact.ofNat k)) (Exact.ofNat 16)

/-- Adds a share of the error to the element at `i`. -/
def ditherAdd (n : Numerics) (a : Array F32) (i : Nat) (t : Exact) : Array F32 :=
  a.setIfInBounds i (n.add (a.getD i default).toExact t).toF32

/-- The visit of pixel `(x, y)`: the element becomes its level, and the error goes to the right (7/16), below left
(3/16), below (5/16) and below right (1/16) (R131, R134, R135). Every store rounds to binary32 (R137). -/
def ditherPixel (n : Numerics) (w : Nat) (a : Array F32) (p : Nat × Nat) : Array F32 :=
  let i := p.2 * w + p.1
  let below := (p.2 + 1) * w + p.1
  let old := (a.getD i default).toExact
  let level := ditherLevel n old
  let err := n.sub old level
  let a := a.setIfInBounds i level.toF32
  let a := ditherAdd n a (i + 1) (ditherTerm n err 7)
  let a := ditherAdd n a (below - 1) (ditherTerm n err 3)
  let a := ditherAdd n a below (ditherTerm n err 5)
  ditherAdd n a (below + 1) (ditherTerm n err 1)

/-- `dither_in_place(WORK)`: the whole pass over a row-major buffer of W·H elements (R131). -/
def ditherInPlace (n : Numerics) (w h : Nat) (work : List F32) : List F32 :=
  ((ditherScan w h).foldl (ditherPixel n w) work.toArray).toList

end Sys2Proof
end

