-- ==== Sys2Proof/Machine/Encoder.lean ====
section
/-! DEFINITION. The Frame Encoder: flip, bucket, the two maps, the two packers, the two encodings, and the default 4-gray
split (spec/42_frame_encoder.md rules R110 to R119, R41 to R43, R94). Frames, work buffers and bit arrays are
row-major lists. -/

namespace Sys2Proof

/-- The rows of a row-major list: `h` stretches of `w` elements. -/
def rowsOf {α : Type} (w : Nat) : Nat → List α → List (List α)
  | 0, _ => []
  | h + 1, l => l.take w :: rowsOf w h (l.drop w)

/-- `flip`: the rows in the opposite order, the columns as they are (R110). -/
def flipFrame {α : Type} (w h : Nat) (f : List α) : List α := (rowsOf w h f).reverse.flatten

/-- `bucket(v)`: how many breakpoints are at most `v` (R111). -/
def bucket (v : F32) : Code :=
  BitVec.ofNat 2 (Config.breakpoints.filter fun b => F32.atLeast b v).length

/-- `bit1`: buckets 2 and 3 are white, 1 (R112). -/
def bit1 (k : Code) : Bool := k.getLsbD 1

/-- `code2`: the bucket number on two bits (R113). -/
def code2 (k : Code) : Code := k

/-- Eight pixels in one byte, the first in bit 7; a place past the row's end takes the pad bit (R114). -/
def packByte1 (pad : Bool) (bits : List Bool) : Byte :=
  BitVec.ofNat 8 ((List.range 8).map fun i => (bits.getD i pad).toNat <<< (7 - i)).sum

/-- One row of bits in `n` bytes. -/
def packRow1 (pad : Bool) : Nat → List Bool → List Byte
  | 0, _ => []
  | n + 1, bits => packByte1 pad bits :: packRow1 pad n (bits.drop 8)

/-- `pack1` (R114). -/
def pack1 (p : Params) (bits : List Bool) : List Byte :=
  (rowsOf p.w p.h bits).flatMap (packRow1 p.padBit p.stride1)

/-- A pad pixel of the 2-bit plane: `PAD_BIT ++ PAD_BIT` (R115). -/
def padCode (pad : Bool) : Code := BitVec.ofBool pad ++ BitVec.ofBool pad

/-- Four pixels in one byte, the first in bits 7:6 (R115). -/
def packByte2 (pad : Bool) (codes : List Code) : Byte :=
  BitVec.ofNat 8 ((List.range 4).map fun i => (codes.getD i (padCode pad)).toNat <<< (6 - 2 * i)).sum

/-- One row of codes in `n` bytes. -/
def packRow2 (pad : Bool) : Nat → List Code → List Byte
  | 0, _ => []
  | n + 1, codes => packByte2 pad codes :: packRow2 pad n (codes.drop 4)

/-- `pack2` (R115). -/
def pack2 (p : Params) (codes : List Code) : List Byte :=
  (rowsOf p.w p.h codes).flatMap (packRow2 p.padBit p.stride2)

/-- The encoders' load step: the flipped frame as binary32 values (R117, R118). -/
def loadFlipped (p : Params) (frame : List Byte) : List F32 := (flipFrame p.w p.h frame).map F32.ofByte

/-- The dithering pass with the block's numerics. -/
def ditherWork (p : Params) (work : List F32) : List F32 := ditherInPlace (numerics p) p.w p.h work

/-- What `encode_1bit` leaves in `WORK` (R117). -/
def workOf1 (p : Params) (frame : List Byte) (dither : Bool) : List F32 :=
  if dither then ditherWork p (loadFlipped p frame) else loadFlipped p frame

/-- `encode_1bit`: the 1-bit plane of a frame; the quantizer reads the work buffer as it stands (R116, R117). -/
def encode1bit (p : Params) (frame : List Byte) (dither : Bool) : List Byte :=
  pack1 p ((workOf1 p frame dither).map fun v => bit1 (bucket v))

/-- What `encode_4gray` leaves in `WORK`: it always dithers (R118). -/
def workOf4 (p : Params) (frame : List Byte) : List F32 := ditherWork p (loadFlipped p frame)

/-- `encode_4gray`: the 2-bit plane of a frame (R118). -/
def encode4gray (p : Params) (frame : List Byte) : List Byte :=
  pack2 p ((workOf4 p frame).map fun v => code2 (bucket v))

/-- What the `DITHER` operation leaves in `WORK`: no flip (R136). -/
def workOfDither (p : Params) (frame : List Byte) : List F32 := ditherWork p (frame.map F32.ofByte)

/-- The bits of a byte, bit 7 first (R42). -/
def bitsOfByte (b : Byte) : List Bool := (List.range 8).map fun i => b.getLsbD (7 - i)

/-- The codes in a byte, bits 7:6 first (R43). -/
def codesOfByte (b : Byte) : List Code := (List.range 4).map fun i => b.extractLsb' (6 - 2 * i) 2

/-- The pixels of a 1-bit plane, row-major, without the pad positions (R42). -/
def pixels1 (p : Params) (plane : List Byte) : List Bool :=
  (rowsOf p.stride1 p.h plane).flatMap fun row => (row.flatMap bitsOfByte).take p.w

/-- The codes of a 2-bit plane, row-major, without the pad positions (R43). -/
def pixels2 (p : Params) (plane : List Byte) : List Code :=
  (rowsOf p.stride2 p.h plane).flatMap fun row => (row.flatMap codesOfByte).take p.w

/-- `decode(P)`: the 0/255 frame whose flip has the plane's pixels (R120). -/
def decodePlane1 (p : Params) (plane : List Byte) : List Byte :=
  flipFrame p.w p.h ((pixels1 p plane).map fun b => if b then 0xFF#8 else 0x00#8)

/-- The default `SPLIT4` of R94: the first half holds the more significant bit of each code, the second the less
significant bit. PRESUMED: the spec marks it general knowledge (notes/assumptions/6.md). -/
def splitHighLow (p : Params) (plane : List Byte) : List Byte × List Byte :=
  (pack1 p ((pixels2 p plane).map fun c => c.getLsbD 1), pack1 p ((pixels2 p plane).map fun c => c.getLsbD 0))

/-- `SPLIT4` as the parameter chooses it (R91, R94). -/
def split4 (p : Params) (plane : List Byte) : List Byte × List Byte :=
  match p.split with
  | .uninterpreted => Config.split4 plane
  | .highLow => splitHighLow p plane

/-- `EMPTY_OLD` and the clear planes: PLANE1_BYTES bytes of WHITE_BYTE (R15, R92). -/
def whitePlane (p : Params) : List Byte := List.replicate p.plane1Bytes p.whiteByte

/-- The white frame `clear` puts into the cache: every sample 255 (R155). -/
def whiteFrame (p : Params) : List Byte := List.replicate p.samples 0xFF#8

end Sys2Proof
end

