-- ==== Sys2Proof/Syntax.lean ====
section
/-! DEFINITION. The instructions: one constructor per row of spec/opcode_table.json, the 16 host operations (format H,
rule R62) and the 22 panel wire commands (format W, rule R67). -/

namespace Sys2Proof

/-- Which init operation sends a tuning command: its bytes are `PF_E0`/`PF_E5` or `PP_E0`/`PP_E5` (R198, R199). -/
inductive TuneKind where
  | fast
  | partialMode
  deriving DecidableEq, Repr

/-- Which transfer operation sends a data transfer command: `pic_display` (the differential pair),
`pic_display_clear` (two white planes) or `pic_display_4g` (the two halves of `PLANE2`) (R200, R201). -/
inductive TransferKind where
  | pair
  | white
  | gray
  deriving DecidableEq, Repr

/-- The instructions. A host word carries at most one one-bit argument (R61). A wire command byte has no fields
(R66); the operand of the four commands whose data depends on the operation in flight names that operation. -/
inductive Instr where
  /-- HWRESET, 0x00: `hardware_reset()` (R83) -/
  | hwreset
  /-- INITFAST, 0x10: `init_fast()` (R84) -/
  | initfast
  /-- INITPART, 0x20: `init_partial()` (R85) -/
  | initpart
  /-- INIT4G, 0x30: `init_4gray()` (R86) -/
  | init4g
  /-- SLEEP, 0x40: `sleep()` (R88) -/
  | sleep
  /-- DEINIT, 0x50: `deinit()` (R89) -/
  | deinit
  /-- PICDISP, 0x60: `pic_display` (R90) -/
  | picdisp
  /-- PICDISP4G, 0x70: `pic_display_4g` (R91) -/
  | picdisp4g
  /-- PICCLEAR, 0x80: `pic_display_clear` (R92) -/
  | picclear
  /-- ENC1, 0x90: `encode_1bit(frame, dither)` (R117) -/
  | enc1 (dither : Bool)
  /-- ENC4, 0xA0: `encode_4gray(frame)` (R118) -/
  | enc4
  /-- DITHER, 0xB0: the dithering engine alone (R136) -/
  | dither
  /-- UPD1, 0xC0: `update_1bit(frame, dithering)` (R151) -/
  | upd1 (dithering : Bool)
  /-- UPD4, 0xD0: `update_4bit(frame)` (R153) -/
  | upd4
  /-- CLEAR, 0xE0: `clear(power_off)` (R155) -/
  | clear (powerOff : Bool)
  /-- REFLUSH, 0xF0: `reflush()` (R156) -/
  | reflush
  /-- W_PANEL_SETTING, 0x00 (R181) -/
  | wPanelSetting
  /-- W_POWER_SETTING, 0x01 (R182) -/
  | wPowerSetting
  /-- W_POWER_OFF, 0x02 (R196) -/
  | wPowerOff
  /-- W_POWER_ON, 0x04 (R195) -/
  | wPowerOn
  /-- W_BOOSTER_SOFT_START, 0x06 (R183) -/
  | wBoosterSoftStart
  /-- W_DEEP_SLEEP, 0x07 (R197) -/
  | wDeepSleep
  /-- W_OLD_DATA, 0x10 (R200) -/
  | wOldData (k : TransferKind)
  /-- W_DISPLAY_REFRESH, 0x12 (R202) -/
  | wDisplayRefresh
  /-- W_NEW_DATA, 0x13 (R201) -/
  | wNewData (k : TransferKind)
  /-- W_LUT_VCOM, 0x20 (R190) -/
  | wLutVcom
  /-- W_LUT_WW, 0x21 (R191) -/
  | wLutWw
  /-- W_LUT_R, 0x22 (R192) -/
  | wLutR
  /-- W_LUT_W, 0x23 (R193) -/
  | wLutW
  /-- W_LUT_B, 0x24 (R194) -/
  | wLutB
  /-- W_PLL, 0x30 (R184) -/
  | wPll
  /-- W_CDI, 0x50 (R185) -/
  | wCdi
  /-- W_TCON, 0x60 (R186) -/
  | wTcon
  /-- W_RESOLUTION, 0x61 (R187) -/
  | wResolution
  /-- W_RESOLUTION_EXTRA, 0x65 (R188) -/
  | wResolutionExtra
  /-- W_VCOM_DC, 0x82 (R189) -/
  | wVcomDc
  /-- W_TUNE_E0, 0xE0 (R198) -/
  | wTuneE0 (k : TuneKind)
  /-- W_TUNE_E5, 0xE5 (R199) -/
  | wTuneE5 (k : TuneKind)
  deriving DecidableEq, Repr

/-- The two encodings of the block (R60): the host command word and the panel wire command. -/
inductive Format where
  | host
  | wire
  deriving DecidableEq, Repr

/-- The format of each row of the opcode table. -/
def Instr.format : Instr → Format
  | .hwreset => .host
  | .initfast => .host
  | .initpart => .host
  | .init4g => .host
  | .sleep => .host
  | .deinit => .host
  | .picdisp => .host
  | .picdisp4g => .host
  | .picclear => .host
  | .enc1 _ => .host
  | .enc4 => .host
  | .dither => .host
  | .upd1 _ => .host
  | .upd4 => .host
  | .clear _ => .host
  | .reflush => .host
  | .wPanelSetting => .wire
  | .wPowerSetting => .wire
  | .wPowerOff => .wire
  | .wPowerOn => .wire
  | .wBoosterSoftStart => .wire
  | .wDeepSleep => .wire
  | .wOldData _ => .wire
  | .wDisplayRefresh => .wire
  | .wNewData _ => .wire
  | .wLutVcom => .wire
  | .wLutWw => .wire
  | .wLutR => .wire
  | .wLutW => .wire
  | .wLutB => .wire
  | .wPll => .wire
  | .wCdi => .wire
  | .wTcon => .wire
  | .wResolution => .wire
  | .wResolutionExtra => .wire
  | .wVcomDc => .wire
  | .wTuneE0 _ => .wire
  | .wTuneE5 _ => .wire

end Sys2Proof
end

