-- ==== Sys2Proof/WellFormed.lean ====
section
/-! DEFINITION. Well-formedness: which parameters make a block the spec describes, and which instructions such a block
can run (rules R5, R13, R68, R81, R82, R83). -/

namespace Sys2Proof

/-- The parameters the spec admits: a frame of at least one pixel (R5), a reset settle time of at least 20 ms
(R83, D13), a poll interval that lets the elapsed time grow (R82). -/
def Params.wf (p : Params) : Bool :=
  decide (1 ≤ p.w) && decide (1 ≤ p.h) && decide (20 ≤ p.resetSettleMs) && decide (1 ≤ p.pollIntervalMs)

/-- The native geometry, the only one the transfer operations are specified for (R5). -/
def Params.native (p : Params) : Bool := p.w == Config.nativeW && p.h == Config.nativeH

/-- The instructions that send a plane to the panel (R90 to R92, R151, R153, R155, R156, R200, R201). -/
def Instr.transfers : Instr → Bool
  | .picdisp => true
  | .picdisp4g => true
  | .picclear => true
  | .upd1 _ => true
  | .upd4 => true
  | .clear _ => true
  | .reflush => true
  | .wOldData _ => true
  | .wNewData _ => true
  | .hwreset => false
  | .initfast => false
  | .initpart => false
  | .init4g => false
  | .sleep => false
  | .deinit => false
  | .enc1 _ => false
  | .enc4 => false
  | .dither => false
  | .wPanelSetting => false
  | .wPowerSetting => false
  | .wPowerOff => false
  | .wPowerOn => false
  | .wBoosterSoftStart => false
  | .wDeepSleep => false
  | .wDisplayRefresh => false
  | .wLutVcom => false
  | .wLutWw => false
  | .wLutR => false
  | .wLutW => false
  | .wLutB => false
  | .wPll => false
  | .wCdi => false
  | .wTcon => false
  | .wResolution => false
  | .wResolutionExtra => false
  | .wVcomDc => false
  | .wTuneE0 _ => false
  | .wTuneE5 _ => false

/-- An instruction a block with these parameters can run: "the transfer operations are specified for the native
geometry only", the others for any `W ≥ 1`, `H ≥ 1` (R5). The arguments of an instruction admit every value. -/
def Instr.wf (p : Params) (i : Instr) : Bool := p.native || !i.transfers

end Sys2Proof
end

