-- ==== Sys2Proof/Decode.lean ====
section
/-! DEFINITION. The decoders of the host command word and of the panel wire format, both total, and after them the
encoders (spec/30_encoding.md). -/

namespace Sys2Proof

/-! ### The host command word (R61 to R65, R69) -/

/-- `OP = HC[7:4]`. -/
def hostOp (b : Byte) : Nat := (b.extractLsb' 4 4).toNat

/-- `ARG[3:1] = HC[3:1]`, which must be 0 in every row. -/
def hostArgHigh (b : Byte) : BitVec 3 := b.extractLsb' 1 3

/-- `ARG[0] = HC[0]`. -/
def hostArg (b : Byte) : Bool := b.getLsbD 0

/-- A row without an argument: `ARG[0]` must be 0 (R62, R69). -/
def noArg (arg : Bool) (i : Instr) : Option Instr := if arg then none else some i

/-- The host opcode map (R62). -/
def hostRow (op : Nat) (arg : Bool) : Option Instr :=
  match op with
  | 0x0 => noArg arg .hwreset
  | 0x1 => noArg arg .initfast
  | 0x2 => noArg arg .initpart
  | 0x3 => noArg arg .init4g
  | 0x4 => noArg arg .sleep
  | 0x5 => noArg arg .deinit
  | 0x6 => noArg arg .picdisp
  | 0x7 => noArg arg .picdisp4g
  | 0x8 => noArg arg .picclear
  | 0x9 => some (.enc1 arg)
  | 0xA => noArg arg .enc4
  | 0xB => noArg arg .dither
  | 0xC => some (.upd1 arg)
  | 0xD => noArg arg .upd4
  | 0xE => some (.clear arg)
  | 0xF => noArg arg .reflush
  | _ => none

/-- The decoder of the host command word: `none` is a reserved word, `IllegalCommand` (R65, R69). -/
def decodeHost (b : Byte) : Option Instr :=
  if hostArgHigh b != 0#3 then none else hostRow (hostOp b) (hostArg b)

/-! ### The panel wire command byte (R66, R67, R72) -/

/-- What the operation in flight says about the commands whose data depends on it (R198 to R201). -/
structure WireContext where
  tune : TuneKind
  transfer : TransferKind
  deriving DecidableEq, Repr

/-- The wire command map (R67). A byte outside the 22 is none of the block's commands (R73). -/
def decodeWire (c : WireContext) (b : Byte) : Option Instr :=
  match b.toNat with
  | 0x00 => some .wPanelSetting
  | 0x01 => some .wPowerSetting
  | 0x02 => some .wPowerOff
  | 0x04 => some .wPowerOn
  | 0x06 => some .wBoosterSoftStart
  | 0x07 => some .wDeepSleep
  | 0x10 => some (.wOldData c.transfer)
  | 0x12 => some .wDisplayRefresh
  | 0x13 => some (.wNewData c.transfer)
  | 0x20 => some .wLutVcom
  | 0x21 => some .wLutWw
  | 0x22 => some .wLutR
  | 0x23 => some .wLutW
  | 0x24 => some .wLutB
  | 0x30 => some .wPll
  | 0x50 => some .wCdi
  | 0x60 => some .wTcon
  | 0x61 => some .wResolution
  | 0x65 => some .wResolutionExtra
  | 0x82 => some .wVcomDc
  | 0xE0 => some (.wTuneE0 c.tune)
  | 0xE5 => some (.wTuneE5 c.tune)
  | _ => none

/-- The decoder of a byte in either format (R60); the format is not in the byte (R72). -/
def decode (f : Format) (c : WireContext) (b : Byte) : Option Instr :=
  match f with
  | .host => decodeHost b
  | .wire => decodeWire c b

/-- The context in which a word of the opcode table is read: `init_fast` and `pic_display_clear`, which run from the
reset state with nothing written (notes/assumptions/7.md). -/
def tableContext : WireContext := ⟨.fast, .white⟩

/-- The opcode table's reading of a word: an 8-bit word the host decoder accepts is that host operation; one that
is reserved as a host word is read as a wire command byte. DESIGN CHOICE (notes/assumptions/7.md): seven bytes are
both, and the word alone does not say which. -/
def decodeTableWord (nbits w : Nat) : Option Instr :=
  if nbits == 8 && decide (w < 256) then
    match decodeHost (BitVec.ofNat 8 w) with
    | some i => some i
    | none => decodeWire tableContext (BitVec.ofNat 8 w)
  else none

/-! ### A stretch of the wire: command bytes and data bytes, told apart by DC (R66, R72) -/

/-- One byte on the bus with the level of `DC` it is sent at: true = data. -/
abbrev WireByte := Bool × Byte

/-- One wire transaction: a command byte and the data bytes that belong to it (R66). -/
abbrev Transaction := Byte × List Byte

/-- Adds one bus byte in front of the transactions already read behind it; `pending` are data bytes whose command
byte has not been reached yet. -/
def readWireByte (wb : WireByte) (acc : List Byte × List Transaction) : List Byte × List Transaction :=
  match wb with
  | (true, b) => (b :: acc.1, acc.2)
  | (false, b) => ([], (b, acc.1) :: acc.2)

/-- The transactions of a stretch of bus bytes; `none` if it starts with data bytes, which have no command. -/
def decodeStream (bs : List WireByte) : Option (List Transaction) :=
  match bs.foldr readWireByte ([], []) with
  | ([], ts) => some ts
  | (_ :: _, _) => none

/-! ### The encoders -/

/-- A host word from its `OP` and `ARG[0]`: `(OP << 4) | ARG[0]` (R74). -/
def hostWord (op : BitVec 4) (arg : Bool) : Byte := op ++ 0#3 ++ BitVec.ofBool arg

/-- The word of each row: the host word (R62) or the command byte (R67). -/
def encode : Instr → Byte
  | .hwreset => hostWord 0x0#4 false
  | .initfast => hostWord 0x1#4 false
  | .initpart => hostWord 0x2#4 false
  | .init4g => hostWord 0x3#4 false
  | .sleep => hostWord 0x4#4 false
  | .deinit => hostWord 0x5#4 false
  | .picdisp => hostWord 0x6#4 false
  | .picdisp4g => hostWord 0x7#4 false
  | .picclear => hostWord 0x8#4 false
  | .enc1 d => hostWord 0x9#4 d
  | .enc4 => hostWord 0xA#4 false
  | .dither => hostWord 0xB#4 false
  | .upd1 d => hostWord 0xC#4 d
  | .upd4 => hostWord 0xD#4 false
  | .clear p => hostWord 0xE#4 p
  | .reflush => hostWord 0xF#4 false
  | .wPanelSetting => 0x00#8
  | .wPowerSetting => 0x01#8
  | .wPowerOff => 0x02#8
  | .wPowerOn => 0x04#8
  | .wBoosterSoftStart => 0x06#8
  | .wDeepSleep => 0x07#8
  | .wOldData _ => 0x10#8
  | .wDisplayRefresh => 0x12#8
  | .wNewData _ => 0x13#8
  | .wLutVcom => 0x20#8
  | .wLutWw => 0x21#8
  | .wLutR => 0x22#8
  | .wLutW => 0x23#8
  | .wLutB => 0x24#8
  | .wPll => 0x30#8
  | .wCdi => 0x50#8
  | .wTcon => 0x60#8
  | .wResolution => 0x61#8
  | .wResolutionExtra => 0x65#8
  | .wVcomDc => 0x82#8
  | .wTuneE0 _ => 0xE0#8
  | .wTuneE5 _ => 0xE5#8

/-- The contexts in which a wire command's operand is the one its operation gives it. -/
def Instr.inContext (c : WireContext) : Instr → Bool
  | .wOldData k => k == c.transfer
  | .wNewData k => k == c.transfer
  | .wTuneE0 k => k == c.tune
  | .wTuneE5 k => k == c.tune
  | _ => true

/-- A transaction on the bus: the command byte at the command level, the data bytes at the data level (R66). -/
def encodeTransaction (t : Transaction) : List WireByte := (false, t.1) :: t.2.map fun b => (true, b)

/-- A sequence of transactions on the bus. -/
def encodeStream (ts : List Transaction) : List WireByte := ts.flatMap encodeTransaction

end Sys2Proof
end

