-- ==== Sys2Proof/Machine/State.lean ====
section
/-! DEFINITION. The block's state (spec/10_state.md rules R10 to R37), the moves of the host, the answers of the two
oracles, the reasons a step can stop, and the state after reset. -/

namespace Sys2Proof.Machine

/-- A buffer: its written elements as (index, element) pairs, indices strictly rising. An index that is not listed
has not been written since reset and has no value (R36). `FRAME`, `PLANE1`, `PLANE2`, `OLD` and `CACHE` are lists of
`Host.Cell`; `WORK`'s elements are binary32 values, which have no byte order (R51). -/
abbrev Memory (β : Type) := List (Nat × β)

/-- The canonical form of a buffer: indices strictly rising, so that equal contents are equal lists. -/
abbrev Memory.wf {β : Type} (m : Memory β) : Prop := m.Pairwise fun a b => a.1 < b.1

/-- Panel State (R18), in the encoding's order 0 to 6; value 7 is not a state. -/
inductive PanelState where
  | uninit
  | fast
  | full
  | partialMode
  | gray4
  | sleeping
  | deinit
  deriving DecidableEq, Repr

/-- `LAST_MODE` (R17). -/
inductive LastMode where
  | none
  | oneBit (dither : Bool)
  | fourGray
  deriving DecidableEq, Repr

/-- `ERR`, the result of the last operation (R25, R210). -/
inductive ErrCode where
  | none
  | transport
  | panelTimeout
  | protocolState
  | illegalCommand
  deriving DecidableEq, Repr

/-- The two output control lines (R27). -/
inductive Line where
  | rst
  | dc
  deriving DecidableEq, Repr

/-- The event alphabet of `TRACE` (R32). -/
inductive Event where
  | acquire
  | release
  | line (l : Line) (level : Bool)
  | cmd (b : Byte)
  | data (b : Byte)
  | poll (busy : Bool)
  | delay (ms : Nat)
  | fail
  deriving DecidableEq, Repr

/-- The operations whose position the sequencer holds: the host words, an operation that runs inside another being one
of them, and the three that have no word (R29, R95 (b)). -/
inductive Operation where
  | word (i : Instr)
  | ensure1bit
  | lutWrite
  | awaitNotBusy
  deriving DecidableEq, Repr

/-- The two logical writers that issue host words (R58, R223). -/
inductive Agent where
  | foreground
  | worker
  deriving DecidableEq, Repr

/-- The values at acceptance of the host command in flight that an error restores (R93, R159, R215). -/
structure Saved where
  panelState : PanelState
  fresh : Bool
  old : Memory Byte
  oldValid : Bool
  cache : Memory Byte
  cacheValid : Bool
  lastMode : LastMode
  deriving DecidableEq, Repr

/-- What the outside world does next to the block. The queue of these in `State.host` is the host's schedule: one
step takes the move at its head, so it says also when each move falls (notes/assumptions/2.md). -/
inductive HostMove where
  /-- the foreground presents a host command word (R61, R71) -/
  | word (hc : Byte)
  /-- the foreground is blocked in its call until `RUN = 0` (R24) -/
  | awaitRun
  /-- the foreground is blocked until `ANIM = 0`, the join of `stop_animation()` (R158) -/
  | awaitAnim
  /-- nobody does anything during this step -/
  | tick
  /-- the host writes consecutive samples of `FRAME` (R11, R44) -/
  | writeFrame (start : Nat) (samples : List Byte)
  /-- the host writes `STOP` (R76) -/
  | writeStop (v : Bool)
  /-- `start_animation()`: the worker starts its loop (R157); `ANIM` is 1 at once whatever `RUN` is, which no rule says
  (DESIGN CHOICE, notes/assumptions/15.md) -/
  | startAnim
  /-- the worker takes one turn of its loop; `frame` is its next composed frame (R157) -/
  | animTurn (frame : List Byte)
  /-- the block's own reset (R240) -/
  | reset
  deriving DecidableEq, Repr

/-- The state of the block and, below the line, what the model adds to run it. -/
structure State where
  /-- the parameters (R5); no step writes them -/
  cfg : Params
  /-- `FRAME` (R11) -/
  frame : Memory Byte
  /-- `WORK` (R12) -/
  work : Memory F32
  /-- `PLANE1` (R13) -/
  plane1 : Memory Byte
  /-- `PLANE2` (R14) -/
  plane2 : Memory Byte
  /-- `OLD` and `OLD_VALID` (R15) -/
  old : Memory Byte
  oldValid : Bool
  /-- `CACHE` and `CACHE_VALID` (R16) -/
  cache : Memory Byte
  cacheValid : Bool
  /-- `LAST_MODE` (R17) -/
  lastMode : LastMode
  /-- `PANEL_STATE` (R18) -/
  panelState : PanelState
  /-- `FRESH` (R19) -/
  fresh : Bool
  /-- `OWN` (R20) -/
  own : Bool
  /-- `RUN` (R24) -/
  run : Bool
  /-- `ERR` (R25) -/
  err : ErrCode
  /-- `STOP`, `ANIM` (R26) -/
  stop : Bool
  anim : Bool
  /-- the levels of the lines `DC` and `RST` (R27) -/
  dc : Bool
  rst : Bool
  /-- `SEQ_POS`: the stack of the operations in flight, the innermost first, each with the index of its next event;
  empty is idle (R29, R95) -/
  seqPos : List (Operation × Nat)
  /-- `POLL_ELAPSED` (R29, R82) -/
  pollElapsed : Nat
  /-- `TRACE`, oldest event first (R32) -/
  trace : List Event
  /-- MODEL'S OWN: the values at acceptance of the command in flight (R215 (2)) -/
  saved : Option Saved
  /-- MODEL'S OWN: the operation in flight and the index of its next step in `program`, from which the next step of
  the machine goes on -/
  cursor : Option (Instr × Nat)
  /-- MODEL'S OWN: who issued the command in flight (R218) -/
  issuer : Agent
  /-- ENVIRONMENT: the host's schedule -/
  host : List HostMove
  /-- ENVIRONMENT: the busy oracle (R34): the levels of the `BUSY` line at the coming samples, then for ever after -/
  busyIn : List Bool
  busyRest : Bool
  /-- ENVIRONMENT: the transport oracle (R34): how many transfers succeed before each failing one; when the list is
  used up, every transfer succeeds -/
  xferFails : List Nat
  deriving DecidableEq, Repr

/-- The buffers a model fault can name. -/
inductive Buffer where
  | frame
  | work
  | plane1
  | plane2
  | old
  | cache
  deriving DecidableEq, Repr

/-- Why the machine stops with a fault. -/
inductive Fault where
  /-- Raised by every operation that reads a buffer of which some element has not been written since reset (R36,
  93_implementation_defined.md U1). Safe: the block goes on with unspecified contents, the model stops. -/
  | unwritten (b : Buffer)
  /-- Raised by a host write outside `FRAME` or an animation frame that is not W·H samples: it cannot be expressed
  (R44, U19). Safe. -/
  | outsideBuffer
  deriving DecidableEq, Repr

/-- Why the machine refuses a move. -/
inductive Refusal where
  /-- Raised by an arm of `exec` that has no meaning yet. Safe. -/
  | notModelled (mnemonic : String)
  /-- Raised by a write of `FRAME` while `RUN = 1`, a breach of the host's duty: the samples the encoder sees are
  unspecified, and a model "may instead give the host no such move" (R59, U5). Safe. -/
  | frameWriteInFlight
  /-- Raised by a word of a transfer operation on a block whose geometry is not the native one, for which the spec
  does not specify it (R5). Safe. -/
  | geometryNotNative
  deriving DecidableEq, Repr

/-- What a step answers. -/
abbrev Outcome := Host.Outcome State Fault Refusal

/-- The state after the block's reset (R35, R36, R240, R242). The environment's fields are the model's: nothing
scheduled, an idle busy line, no failing transfer (DESIGN CHOICE, notes/assumptions/3.md). -/
def State.reset : State where
  cfg := Config.params
  frame := []
  work := []
  plane1 := []
  plane2 := []
  old := []
  oldValid := false
  cache := []
  cacheValid := false
  lastMode := .none
  panelState := .uninit
  fresh := false
  own := true
  run := false
  err := .none
  stop := false
  anim := false
  dc := Config.dcData
  rst := true
  seqPos := []
  pollElapsed := 0
  trace := []
  saved := none
  cursor := none
  issuer := .foreground
  host := []
  busyIn := []
  busyRest := true
  xferFails := []

end Sys2Proof.Machine
end

