-- ==== Sys2Proof/Machine/Flags.lean ====
section
/-! DEFINITION. The numeric codes of the status registers, the status word `HSTAT`, and the sets of Panel States in
which an operation is legal (rules R17, R18, R25, R64, R80, R210). -/

namespace Sys2Proof.Machine

/-- The 3-bit code of `PANEL_STATE` (R18). -/
def PanelState.code : PanelState → BitVec 3
  | .uninit => 0#3
  | .fast => 1#3
  | .full => 2#3
  | .partialMode => 3#3
  | .gray4 => 4#3
  | .sleeping => 5#3
  | .deinit => 6#3

/-- The 2-bit code of `LAST_MODE` (R17). -/
def LastMode.code : LastMode → BitVec 2
  | .none => 0#2
  | .oneBit false => 1#2
  | .oneBit true => 2#2
  | .fourGray => 3#2

/-- The 3-bit code of `ERR` (R25, R210). -/
def ErrCode.code : ErrCode → BitVec 3
  | .none => 0#3
  | .transport => 1#3
  | .panelTimeout => 2#3
  | .protocolState => 3#3
  | .illegalCommand => 4#3

/-- `HSTAT`: `RUN` in bit 0, `ERR` in bits 3:1, `PANEL_STATE` in bits 6:4, `ANIM` in bit 7 (R64). Reading it has no
side effect: it is a function of the state. -/
def State.hstat (s : State) : Byte :=
  BitVec.ofBool s.anim ++ s.panelState.code ++ s.err.code ++ BitVec.ofBool s.run

/-- "1-bit powered": `FAST`, `FULL` or `PARTIAL` (R18). -/
def oneBitPowered : List PanelState := [.fast, .full, .partialMode]

/-- "Any powered state" (R18). -/
def anyPowered : List PanelState := [.fast, .full, .partialMode, .gray4]

/-- Where `init_partial()` is legal (R80, R85). -/
def partialLegal : List PanelState := [.fast, .partialMode]

/-- Where `pic_display_4g` is legal (R80, R91). -/
def grayLegal : List PanelState := [.gray4]

/-- Every state but `DEINIT`: where the controller's updates and `clear` are legal (R151, R153, R155). -/
def notDeinit : List PanelState := [.uninit, .fast, .full, .partialMode, .gray4, .sleeping]

end Sys2Proof.Machine
end

