-- ==== Sys2Proof/Machine/Operands.lean ====
section
/-! DEFINITION. Access to the buffers (rule R44) and the operands of the operations: the frame, the planes, the constant
byte strings (rules R15, R22, R23, R63, R66, R90, R91). -/

namespace Sys2Proof.Machine

/-- One element of a buffer; none if it has not been written (R36). -/
def Memory.read {β : Type} (m : Memory β) (i : Nat) : Option β := m.lookup i

/-- `MemRead(BUF, i, n)`: n consecutive elements in index order (R44). -/
def Memory.readRange {β : Type} (m : Memory β) (i n : Nat) : Option (List β) :=
  (List.range n).mapM fun k => m.read (i + k)

/-- The first `n` elements, the whole of a buffer of that size, in one pass over the list. -/
def Memory.readAll {β : Type} (m : Memory β) (n : Nat) : Option (List β) :=
  if (m.take n).map Prod.fst = List.range n then some ((m.take n).map Prod.snd) else none

/-- Elements at consecutive indices from `i`. -/
def Memory.stretch {β : Type} : Nat → List β → Memory β
  | _, [] => []
  | i, v :: vs => (i, v) :: Memory.stretch (i + 1) vs

/-- `MemWrite(BUF, i, n, v)` (R44). -/
def Memory.writeRange {β : Type} (m : Memory β) (i : Nat) (vs : List β) : Memory β :=
  m.filter (fun c => decide (c.1 < i)) ++ Memory.stretch i vs ++ m.filter (fun c => decide (i + vs.length ≤ c.1))

/-- A buffer written whole. -/
def Memory.ofList {β : Type} (vs : List β) : Memory β := Memory.stretch 0 vs

/-- The frame operand: the contents of `FRAME` (R63). -/
def State.frameOperand (s : State) : Except Fault (List Byte) :=
  match s.frame.readAll s.cfg.samples with
  | some f => .ok f
  | none => .error (.unwritten .frame)

/-- The whole of `CACHE` (R156). -/
def State.cacheOperand (s : State) : Except Fault (List Byte) :=
  match s.cache.readAll s.cfg.samples with
  | some f => .ok f
  | none => .error (.unwritten .cache)

/-- The whole of `PLANE1`: the new plane (R90). -/
def State.plane1Operand (s : State) : Except Fault (List Byte) :=
  match s.plane1.readAll s.cfg.plane1Bytes with
  | some f => .ok f
  | none => .error (.unwritten .plane1)

/-- The whole of `PLANE2` (R91). -/
def State.plane2Operand (s : State) : Except Fault (List Byte) :=
  match s.plane2.readAll s.cfg.plane2Bytes with
  | some f => .ok f
  | none => .error (.unwritten .plane2)

/-- The old plane: `OLD` if `OLD_VALID = 1`, else `EMPTY_OLD` (R15, R90). -/
def State.oldOperand (s : State) : Except Fault (List Byte) :=
  if s.oldValid then
    match s.old.readAll s.cfg.plane1Bytes with
    | some f => .ok f
    | none => .error (.unwritten .old)
  else .ok (whitePlane s.cfg)

/-- The data bytes that follow a wire command (R67). -/
inductive DataSource where
  /-- `[0xA5]`: 0x07 -/
  | magic
  /-- a constant byte string of the block (R22, R23) -/
  | constant (f : OpenBytes → List Byte)
  /-- the old plane, the new plane, a white plane -/
  | oldPlane
  | newPlane
  | whitePlane
  /-- the halves of `PLANE2` after 0x10 and after 0x13 (R91, R94) -/
  | oldHalf
  | newHalf

/-- The bytes a data source stands for. -/
def DataSource.bytes (d : DataSource) (s : State) : Except Fault (List Byte) :=
  match d with
  | .magic => .ok [Config.sleepMagic]
  | .constant f => .ok (f s.cfg.bytes)
  | .oldPlane => s.oldOperand
  | .newPlane => s.plane1Operand
  | .whitePlane => .ok (Sys2Proof.whitePlane s.cfg)
  | .oldHalf => s.plane2Operand.map fun p => (split4 s.cfg p).1
  | .newHalf => s.plane2Operand.map fun p => (split4 s.cfg p).2

/-- What follows 0x10 in each transfer operation (R200). -/
def oldDataSource : TransferKind → DataSource
  | .pair => .oldPlane
  | .white => .whitePlane
  | .gray => .oldHalf

/-- What follows 0x13 in each transfer operation (R201). -/
def newDataSource : TransferKind → DataSource
  | .pair => .newPlane
  | .white => .whitePlane
  | .gray => .newHalf

/-- What follows 0xE0 (R198). -/
def tuneE0Source : TuneKind → DataSource
  | .fast => .constant OpenBytes.pfE0
  | .partialMode => .constant OpenBytes.ppE0

/-- What follows 0xE5 (R199). -/
def tuneE5Source : TuneKind → DataSource
  | .fast => .constant OpenBytes.pfE5
  | .partialMode => .constant OpenBytes.ppE5

end Sys2Proof.Machine
end

