-- ==== Sys2Proof/Machine/Ops.lean ====
section
/-! DEFINITION. The shared operations: the four bus primitives with the two oracles, the steps an operation is made of,
the entry of an error, acceptance, completion, and the run of an operation (rules R8, R9, R20, R24, R29, R34, R45 to
R49, R71, R81, R82, R93, R95, R159, R215 to R218). -/

namespace Sys2Proof.Machine

/-- What one step of an operation answers. -/
inductive Result where
  /-- the step is done -/
  | ok (s : State)
  /-- the step is done and the next `n` steps are not taken: a condition that does not hold (R95 (c)) -/
  | skip (n : Nat) (s : State)
  /-- the panel is busy: the same step is taken again (R82) -/
  | wait (s : State)
  /-- the step raises an error (R9) -/
  | raised (e : ErrCode) (s : State)
  /-- the model has no value for what the step reads (R36) -/
  | fault (f : Fault)

/-- The next part of a step, after a part that is done. -/
def Result.andThen (r : Result) (f : State → Result) : Result :=
  match r with
  | .ok s => f s
  | .skip n s => .skip n s
  | .wait s => .wait s
  | .raised e s => .raised e s
  | .fault g => .fault g

/-! ### The bus primitives -/

/-- The level of a line after some events. -/
def levelAfter (l : Line) (es : List Event) (v : Bool) : Bool :=
  es.foldl (fun v e => match e with
    | .line l' v' => if l' = l then v' else v
    | _ => v) v

/-- `SEQ_POS` moved on by `n` events of the innermost operation; idle, it stays idle (R29, R95 (a)). -/
def advance (n : Nat) (q : List (Operation × Nat)) : List (Operation × Nat) :=
  match q with
  | [] => []
  | (o, k) :: q => (o, k + n) :: q

/-- Appends events to `TRACE`; `SEQ_POS` advances by one per event, and the lines take the levels the events give them
(R27, R29, R32). -/
def State.log (s : State) (es : List Event) : State :=
  { s with
    trace := s.trace ++ es
    seqPos := advance es.length s.seqPos
    dc := levelAfter .dc es s.dc
    rst := levelAfter .rst es s.rst }

/-- A run of events each of which the transport oracle may fail: on a failure the events before the failing one have
happened, `Fail` is appended, and the primitive raises `TransportError` (R34, R49). -/
def State.attempt (s : State) (es : List Event) : Result :=
  match s.xferFails with
  | [] => .ok (s.log es)
  | k :: ks =>
    if es.length ≤ k then .ok { s.log es with xferFails := (k - es.length) :: ks }
    else .raised .transport { s.log (es.take k ++ [.fail]) with xferFails := ks }

/-- The same with the precondition of every bus primitive, `OWN = 1`; without it the primitive fails the same way
(R45, R47, R49). -/
def State.bus (s : State) (es : List Event) : Result :=
  if s.own then s.attempt es else .raised .transport (s.log [.fail])

/-- Acquiring the lines where `OWN = 0`: the claim may fail (R20, R211). -/
def State.acquire (s : State) : Result :=
  if s.own then .ok s else (s.attempt [.acquire]).andThen fun s => .ok { s with own := true }

/-- The events of `write_command(b)` (R45). -/
def commandEvents (b : Byte) : List Event := [.line .dc Config.dcCommand, .cmd b]

/-- The events of `write_data(bs)` (R46). -/
def dataEvents (bs : List Byte) : List Event := .line .dc Config.dcData :: bs.map .data

/-- `write_command(b)` (R45). -/
def State.writeCommand (s : State) (b : Byte) : Result := s.bus (commandEvents b)

/-- `write_data(bs)` (R46). -/
def State.writeData (s : State) (bs : List Byte) : Result := s.bus (dataEvents bs)

/-- `set_control_line(RST, v)` (R47). -/
def State.setReset (s : State) (v : Bool) : Result := s.bus [.line .rst v]

/-- What the next sample of the busy line says: its level against `BUSY_ACTIVE_LEVEL` (R48). -/
def State.panelBusy (s : State) : Bool := s.busyIn.headD s.busyRest == s.cfg.busyActiveLevel

/-- `read_busy()`: one sample; a read that the transport fails samples nothing (R48, R49). -/
def State.readBusy (s : State) : Result :=
  (s.bus [.poll s.panelBusy]).andThen fun t => .ok { t with busyIn := s.busyIn.tail }

/-- The events of `delay(ms)`: `delay(0)` appends nothing (R81). -/
def delayEvents (ms : Nat) : List Event := if ms = 0 then [] else [.delay ms]

/-! ### The steps of the operations -/

/-- The sequencer operations that write `PANEL_STATE` on completion. -/
inductive SeqOp where
  | hardwareReset
  | initFast
  | initPartial
  | init4gray
  | sleep
  | deinit
  deriving DecidableEq, Repr

/-- The state a sequencer operation leaves (R80, last column). -/
def SeqOp.panelState : SeqOp → PanelState
  | .hardwareReset => .uninit
  | .initFast => .fast
  | .initPartial => .partialMode
  | .init4gray => .gray4
  | .sleep => .sleeping
  | .deinit => .deinit

/-- What a sequencer operation leaves in `FRESH` (R19). -/
def SeqOp.fresh : SeqOp → Bool
  | .hardwareReset => false
  | .initFast => true
  | .initPartial => true
  | .init4gray => false
  | .sleep => false
  | .deinit => false

/-- The conditions inside the operations (R95 (c)). -/
inductive Cond where
  /-- `PANEL_STATE = GRAY4 or LAST_MODE = FourGray` (R152) -/
  | fromGray
  /-- `PANEL_STATE` in a set (R152, R155) -/
  | inState (ps : List PanelState)
  /-- `PANEL_STATE` outside a set (R155) -/
  | notInState (ps : List PanelState)
  /-- `FRESH = 0` (R151) -/
  | notFresh
  /-- `LAST_MODE` is this one (R156) -/
  | lastMode (m : LastMode)

/-- Whether a condition holds. -/
def Cond.holds (c : Cond) (s : State) : Bool :=
  match c with
  | .fromGray => decide (s.panelState = .gray4 ∨ s.lastMode = .fourGray)
  | .inState ps => decide (s.panelState ∈ ps)
  | .notInState ps => !decide (s.panelState ∈ ps)
  | .notFresh => !s.fresh
  | .lastMode m => decide (s.lastMode = m)

/-- The steps the operation rules are written in. -/
inductive Micro where
  /-- the legality test: `ProtocolStateError` outside these states (R80) -/
  | need (legal : List PanelState)
  /-- `reflush`'s test: `ProtocolStateError` if `CACHE_VALID = 0` (R156) -/
  | needCache
  /-- "if c: …": the next `n` steps are taken only if the condition holds -/
  | skipUnless (c : Cond) (n : Nat)
  /-- acquire the lines if `OWN = 0` (R20) -/
  | acquire
  /-- release the lines if `OWN = 1` (R89) -/
  | release
  /-- `set_control_line(RST, v)` (R83) -/
  | setReset (v : Bool)
  /-- `delay(RESET_SETTLE_MS)` (R83) -/
  | settle
  /-- the delay `SEQ_DELAYS` puts at this place of this sequence (R5, D14) -/
  | pause (q : Sequence) (k : Nat)
  /-- `write_command(c)` (R45) -/
  | command (c : Byte)
  /-- `write_data` of what the data source stands for (R46) -/
  | payload (d : DataSource)
  /-- the two calls of the sixth LUT sub-write, where `LUT6_CMD` is a command (R87, 90_conflicts.md C2) -/
  | lut6Command
  | lut6Payload
  /-- an inner operation begins, ends (R29, R95 (b)) -/
  | enter (o : Operation)
  | leave
  /-- the head of `await_not_busy()` (R82) -/
  | startAwait
  /-- one turn of its loop (R82) -/
  | poll
  /-- the completion of a sequencer operation (R83 to R89) -/
  | finish (o : SeqOp)
  /-- `OLD_VALID <- 0` (R152) -/
  | emptyOld
  /-- `encode_1bit`, `encode_4gray`, `DITHER` (R117, R118, R136) -/
  | encode1 (dither : Bool)
  | encode4
  | ditherFrame
  /-- `FRAME <- CACHE` (R156) -/
  | cacheToFrame
  /-- the commits of `update_1bit`, `update_4bit`, `clear` (R151, R153, R155) -/
  | commit1 (dither : Bool)
  | commit4
  | commitClear

/-- The events of the sixth LUT sub-write's two calls; none where `LUT6_CMD` is "no command" (R87, C2). -/
def lut6CommandEvents (p : Params) : List Event :=
  match p.lut6Cmd with
  | none => []
  | some c => commandEvents c

def lut6PayloadEvents (p : Params) : List Event :=
  match p.lut6Cmd with
  | none => []
  | some _ => dataEvents p.bytes.lut5

/-- Reads an operand, or stops with the model's fault. -/
def withOperand (o : Except Fault (List Byte)) (f : List Byte → Result) : Result :=
  match o with
  | .ok bs => f bs
  | .error g => .fault g

/-- One turn of the poll loop: sample, and if the panel is busy test the ceiling, then sleep (R82). -/
def State.pollOnce (s : State) : Result :=
  s.readBusy.andThen fun t =>
    if s.panelBusy then
      if s.cfg.pollCeilingMs.any (fun c => decide (c ≤ s.pollElapsed)) then .raised .panelTimeout t
      else
        .wait { t.log (delayEvents s.cfg.pollIntervalMs) with
          pollElapsed := s.pollElapsed + s.cfg.pollIntervalMs }
    else .ok t

/-- The meaning of each step. -/
def Micro.run (m : Micro) (s : State) : Result :=
  match m with
  | .need legal => if s.panelState ∈ legal then .ok s else .raised .protocolState s
  | .needCache => if s.cacheValid then .ok s else .raised .protocolState s
  | .skipUnless c n => if c.holds s then .ok s else .skip n s
  | .acquire => s.acquire
  | .release => if s.own then .ok { s.log [.release] with own := false } else .ok s
  | .setReset v => s.setReset v
  | .settle => .ok (s.log (delayEvents s.cfg.resetSettleMs))
  | .pause q k => .ok (s.log (delayEvents (s.cfg.delays.delay q k)))
  | .command c => s.writeCommand c
  | .payload d => withOperand (d.bytes s) s.writeData
  | .lut6Command => s.bus (lut6CommandEvents s.cfg)
  | .lut6Payload => s.bus (lut6PayloadEvents s.cfg)
  | .enter o => .ok { s with seqPos := (o, 0) :: s.seqPos }
  | .leave => .ok { s with seqPos := s.seqPos.tail }
  | .startAwait => .ok { s.log (delayEvents s.cfg.delays.prePollMs) with pollElapsed := 0 }
  | .poll => s.pollOnce
  | .finish o => .ok { s with panelState := o.panelState, fresh := o.fresh }
  | .emptyOld => .ok { s with oldValid := false }
  | .encode1 d => withOperand s.frameOperand fun f =>
      .ok { s with
        work := Memory.ofList (workOf1 s.cfg f d)
        plane1 := Memory.ofList (encode1bit s.cfg f d) }
  | .encode4 => withOperand s.frameOperand fun f =>
      .ok { s with
        work := Memory.ofList (workOf4 s.cfg f)
        plane2 := Memory.ofList (encode4gray s.cfg f) }
  | .ditherFrame => withOperand s.frameOperand fun f =>
      .ok { s with work := Memory.ofList (workOfDither s.cfg f) }
  | .cacheToFrame => withOperand s.cacheOperand fun f => .ok { s with frame := Memory.ofList f }
  | .commit1 d => withOperand s.plane1Operand fun p => withOperand s.frameOperand fun f =>
      .ok { s with
        old := Memory.ofList p
        oldValid := true
        cache := Memory.ofList f
        cacheValid := true
        lastMode := .oneBit d
        fresh := false }
  | .commit4 => withOperand s.frameOperand fun f =>
      .ok { s with
        cache := Memory.ofList f
        cacheValid := true
        lastMode := .fourGray }
  | .commitClear =>
      .ok { s with
        oldValid := false
        cache := Memory.ofList (whiteFrame s.cfg)
        cacheValid := true
        lastMode := .oneBit false }

/-- "if c: steps". -/
def whenDo (c : Cond) (ms : List Micro) : List Micro := .skipUnless c ms.length :: ms

/-- An inner operation, run as a step of another (R95 (b)). -/
def call (o : Operation) (ms : List Micro) : List Micro := [.enter o] ++ ms ++ [.leave]

/-- `await_not_busy()` (R82). -/
def awaitNotBusy : List Micro := call .awaitNotBusy [.startAwait, .poll]

/-- One wire transaction: the command byte and the data bytes that follow it straight after, with nothing between (R66,
R180). -/
def transaction (c : Byte) (d : DataSource) : List Micro := [.command c, .payload d]

/-- Transactions with the delay of `SEQ_DELAYS` after each, from place `k` of the sequence on (D14). -/
def paced (q : Sequence) : Nat → List (List Micro) → List Micro
  | _, [] => []
  | k, tx :: txs => tx ++ .pause q k :: paced q (k + 1) txs

/-! ### Acceptance, completion, error entry -/

/-- The values an error restores (R215 (2)). -/
def State.snapshot (s : State) : Saved where
  panelState := s.panelState
  fresh := s.fresh
  old := s.old
  oldValid := s.oldValid
  cache := s.cache
  cacheValid := s.cacheValid
  lastMode := s.lastMode

/-- The values go back; nothing where no host command is in flight. -/
def State.restore (s : State) (v : Option Saved) : State :=
  match v with
  | none => s
  | some v =>
    { s with
      panelState := v.panelState
      fresh := v.fresh
      old := v.old
      oldValid := v.oldValid
      cache := v.cache
      cacheValid := v.cacheValid
      lastMode := v.lastMode }

/-- Acceptance of a host command: `RUN <- 1`, `ERR <- 0`, the sequencer at the operation's first event (R24, R25, R29). -/
def State.accept (s : State) (i : Instr) : State :=
  { s with
    run := true
    err := .none
    seqPos := [(.word i, 0)]
    cursor := some (i, 0)
    saved := some s.snapshot }

/-- Completion: `RUN <- 0`, `ERR <- 0`, the sequencer idle (R9, R24). There is no return instruction (R217). -/
def State.complete (s : State) : State :=
  { s with run := false, err := .none, seqPos := [], cursor := none, saved := none }

/-- ERROR ENTRY, the one place where an error is taken (R215): the state named by R93 and R159 goes back to its value
at acceptance, `ERR` takes the code, `RUN <- 0`, the sequencer is idle, and control returns to the host. `TRACE`,
`OWN`, the line levels and the scratch buffers stay. An error of the animation worker's update also ends the
animation (R218). -/
def State.errorEntry (s : State) (e : ErrCode) : State :=
  { s.restore s.saved with
    err := e
    run := false
    seqPos := []
    cursor := none
    saved := none
    stop := s.stop && s.issuer != .worker
    anim := s.anim && s.issuer != .worker }

/-! ### The run of an operation -/

/-- Runs the steps of operation `i` from the step with index `n`, skipping `k` of them, until the operation completes,
raises, or finds the panel busy; there the cursor holds the place of the poll and `RUN` stays 1 (R9, R29, R82, R95). -/
def runMicros (i : Instr) : List Micro → Nat → Nat → State → Outcome
  | [], _, _, s => .next s.complete
  | _ :: ms, n, k + 1, s => runMicros i ms (n + 1) k s
  | m :: ms, n, 0, s =>
    match m.run s with
    | .ok s => runMicros i ms (n + 1) 0 s
    | .skip k s => runMicros i ms (n + 1) k s
    | .wait s => .next { s with cursor := some (i, n) }
    | .raised e s => .next (s.errorEntry e)
    | .fault f => .fault f

/-- A host operation: not accepted while `RUN = 1`, the word is discarded (R71); else accepted and run. -/
def hostOperation (i : Instr) (steps : List Micro) (s : State) : Outcome :=
  if s.run then .next s else runMicros i steps 0 0 (s.accept i)

/-- Steps one after the other. -/
def runParts : List Micro → State → Result
  | [], s => .ok s
  | m :: ms, s => (m.run s).andThen (runParts ms)

/-- A panel wire command on its own, as the sequencer performs it (R66). -/
def wireCommand (ms : List Micro) (s : State) : Outcome :=
  match runParts ms s with
  | .ok s => .next s
  | .skip _ s => .next s
  | .wait s => .next s
  | .raised e s => .next (s.errorEntry e)
  | .fault f => .fault f

/-- A reserved host word: `ERR <- 4` and nothing else; discarded while `RUN = 1` (R69, R71, R216). -/
def illegalWord (s : State) : Outcome :=
  if s.run then .next s else .next { s with err := .illegalCommand }

/-- The block's own reset: the reset values; the parameters and the environment are not the block's (R240). -/
def State.blockReset (s : State) : State :=
  { State.reset with
    cfg := s.cfg
    host := s.host
    busyIn := s.busyIn
    busyRest := s.busyRest
    xferFails := s.xferFails }

/-- The host's write port to `FRAME`: only while `RUN = 0` (R59), only inside the buffer (R44). -/
def hostWriteFrame (start : Nat) (samples : List Byte) (s : State) : Outcome :=
  if s.run then .refused .frameWriteInFlight
  else if start + samples.length ≤ s.cfg.samples then
    .next { s with frame := s.frame.writeRange start samples }
  else .fault .outsideBuffer

end Sys2Proof.Machine
end

