-- ==== Sys2Proof/Machine/Wire.lean ====
section
/-! DEFINITION. The 22 panel wire commands (spec/45_wire_commands.md, 30_encoding.md rules R66 and R67). Each is one
transaction of the sequencer, `w…`, which the operations of Sequencer.lean are made of, and one meaning, `execW…`. The panel's
reaction is no state of the block (R33). The busy poll that follows 0x02, 0x04 and 0x12 is a step
of its own (notes/assumptions/8.md). -/

namespace Sys2Proof.Machine

/-- 0x00 "panel setting", then `P_00` (R181). -/
def wPanelSetting : List Micro := transaction 0x00#8 (.constant OpenBytes.p00)

/-- W_PANEL_SETTING (R181). -/
def execWPanelSetting (s : State) : Outcome := wireCommand wPanelSetting s

/-- 0x01 "power setting", then `P_01` (R182). -/
def wPowerSetting : List Micro := transaction 0x01#8 (.constant OpenBytes.p01)

/-- W_POWER_SETTING (R182). -/
def execWPowerSetting (s : State) : Outcome := wireCommand wPowerSetting s

/-- 0x02 "power off", no data; a busy poll follows (R196). -/
def wPowerOff : List Micro := [.command 0x02#8]

/-- W_POWER_OFF (R196). -/
def execWPowerOff (s : State) : Outcome := wireCommand wPowerOff s

/-- 0x04 "power on", no data; a busy poll follows (R195). -/
def wPowerOn : List Micro := [.command 0x04#8]

/-- W_POWER_ON (R195). -/
def execWPowerOn (s : State) : Outcome := wireCommand wPowerOn s

/-- 0x06 "booster soft-start", then `P_06` (R183). -/
def wBoosterSoftStart : List Micro := transaction 0x06#8 (.constant OpenBytes.p06)

/-- W_BOOSTER_SOFT_START (R183). -/
def execWBoosterSoftStart (s : State) : Outcome := wireCommand wBoosterSoftStart s

/-- 0x07 "deep sleep", then exactly `[0xA5]` (R197). -/
def wDeepSleep : List Micro := transaction 0x07#8 .magic

/-- W_DEEP_SLEEP (R197). -/
def execWDeepSleep (s : State) : Outcome := wireCommand wDeepSleep s

/-- 0x10 "old-data transfer start", then the old plane, a white plane or the "old" half (R200). -/
def wOldData (k : TransferKind) : List Micro := transaction 0x10#8 (oldDataSource k)

/-- W_OLD_DATA (R200). -/
def execWOldData (k : TransferKind) (s : State) : Outcome := wireCommand (wOldData k) s

/-- 0x12 "display refresh", no data; a busy poll follows (R202). -/
def wDisplayRefresh : List Micro := [.command 0x12#8]

/-- W_DISPLAY_REFRESH (R202). -/
def execWDisplayRefresh (s : State) : Outcome := wireCommand wDisplayRefresh s

/-- 0x13 "new-data transfer start", then the new plane, a white plane or the "new" half (R201). -/
def wNewData (k : TransferKind) : List Micro := transaction 0x13#8 (newDataSource k)

/-- W_NEW_DATA (R201). -/
def execWNewData (k : TransferKind) (s : State) : Outcome := wireCommand (wNewData k) s

/-- 0x20 LUT sub-table VCOM, then `LUT_0` (R190). -/
def wLutVcom : List Micro := transaction 0x20#8 (.constant OpenBytes.lut0)

/-- W_LUT_VCOM (R190). -/
def execWLutVcom (s : State) : Outcome := wireCommand wLutVcom s

/-- 0x21 LUT sub-table LUTWW, then `LUT_1` (R191). -/
def wLutWw : List Micro := transaction 0x21#8 (.constant OpenBytes.lut1)

/-- W_LUT_WW (R191). -/
def execWLutWw (s : State) : Outcome := wireCommand wLutWw s

/-- 0x22 LUT sub-table LUTR, then `LUT_2` (R192). -/
def wLutR : List Micro := transaction 0x22#8 (.constant OpenBytes.lut2)

/-- W_LUT_R (R192). -/
def execWLutR (s : State) : Outcome := wireCommand wLutR s

/-- 0x23 LUT sub-table LUTW, then `LUT_3` (R193). -/
def wLutW : List Micro := transaction 0x23#8 (.constant OpenBytes.lut3)

/-- W_LUT_W (R193). -/
def execWLutW (s : State) : Outcome := wireCommand wLutW s

/-- 0x24 LUT sub-table LUTB, then `LUT_4` (R194). -/
def wLutB : List Micro := transaction 0x24#8 (.constant OpenBytes.lut4)

/-- W_LUT_B (R194). -/
def execWLutB (s : State) : Outcome := wireCommand wLutB s

/-- 0x30 "PLL/frame-rate", then `P_30` (R184). -/
def wPll : List Micro := transaction 0x30#8 (.constant OpenBytes.p30)

/-- W_PLL (R184). -/
def execWPll (s : State) : Outcome := wireCommand wPll s

/-- 0x50 "CDI/VCOM-and-data-interval", then `P_50` (R185). -/
def wCdi : List Micro := transaction 0x50#8 (.constant OpenBytes.p50)

/-- W_CDI (R185). -/
def execWCdi (s : State) : Outcome := wireCommand wCdi s

/-- 0x60 "TCON", then `P_60` (R186). -/
def wTcon : List Micro := transaction 0x60#8 (.constant OpenBytes.p60)

/-- W_TCON (R186). -/
def execWTcon (s : State) : Outcome := wireCommand wTcon s

/-- 0x61 "resolution", then `P_61` (R187). -/
def wResolution : List Micro := transaction 0x61#8 (.constant OpenBytes.p61)

/-- W_RESOLUTION (R187). -/
def execWResolution (s : State) : Outcome := wireCommand wResolution s

/-- 0x65 "extra resolution byte", then `P_65` (R188). -/
def wResolutionExtra : List Micro := transaction 0x65#8 (.constant OpenBytes.p65)

/-- W_RESOLUTION_EXTRA (R188). -/
def execWResolutionExtra (s : State) : Outcome := wireCommand wResolutionExtra s

/-- 0x82 "VCOM_DC", then `P_82` (R189). -/
def wVcomDc : List Micro := transaction 0x82#8 (.constant OpenBytes.p82)

/-- W_VCOM_DC (R189). -/
def execWVcomDc (s : State) : Outcome := wireCommand wVcomDc s

/-- 0xE0 "fast/partial-mode power tuning", then `PF_E0` or `PP_E0` (R198). -/
def wTuneE0 (k : TuneKind) : List Micro := transaction 0xE0#8 (tuneE0Source k)

/-- W_TUNE_E0 (R198). -/
def execWTuneE0 (k : TuneKind) (s : State) : Outcome := wireCommand (wTuneE0 k) s

/-- 0xE5 "fast/partial-mode power tuning", then `PF_E5` or `PP_E5` (R199). -/
def wTuneE5 (k : TuneKind) : List Micro := transaction 0xE5#8 (tuneE5Source k)

/-- W_TUNE_E5 (R199). -/
def execWTuneE5 (k : TuneKind) (s : State) : Outcome := wireCommand (wTuneE5 k) s

end Sys2Proof.Machine
end

