-- ==== Sys2Proof/Machine/Sequencer.lean ====
section
/-! DEFINITION. The Panel Command Sequencer: the steps and the meanings of HWRESET, INITFAST, INITPART, INIT4G, SLEEP,
DEINIT, PICDISP, PICDISP4G and PICCLEAR (spec/41_sequencer.md rules R80 to R93). -/

namespace Sys2Proof.Machine

/-- The reset toggle: acquire if needed, `RST` low, settle, `RST` high, settle (R83). -/
def resetToggle : List Micro := [.acquire, .setReset false, .settle, .setReset true, .settle]

/-- `hardware_reset()` (R83). -/
def hwresetSteps : List Micro := resetToggle ++ [.finish .hardwareReset]

/-- HWRESET (R83). -/
def execHwreset (s : State) : Outcome := hostOperation .hwreset hwresetSteps s

/-- What the two 1-bit inits share: power on, the busy poll, the two tuning commands (R84, R85). -/
def tuneSteps (q : Sequence) (k : TuneKind) (o : SeqOp) : List Micro :=
  [.pause q 0] ++ paced q 1 [wPowerOn] ++ awaitNotBusy ++ [.pause q 2] ++ paced q 3 [wTuneE0 k, wTuneE5 k] ++ [.finish o]

/-- `init_fast()` (R84). -/
def initFastSteps : List Micro := [.acquire] ++ tuneSteps .initFast .fast .initFast

/-- INITFAST (R84). -/
def execInitfast (s : State) : Outcome := hostOperation .initfast initFastSteps s

/-- `init_partial()` (R85). -/
def initPartialSteps : List Micro := [.need partialLegal] ++ tuneSteps .initPartial .partialMode .initPartial

/-- INITPART (R85). -/
def execInitpart (s : State) : Outcome := hostOperation .initpart initPartialSteps s

/-- The nine configuration commands of `init_4gray()`, in its order (R86, D28). -/
def configurationSteps : List (List Micro) :=
  [wPanelSetting, wPowerSetting, wBoosterSoftStart, wPll, wCdi, wTcon, wResolution, wResolutionExtra, wVcomDc]

/-- `lut_write()`: five sub-writes and the sixth (R87). Its delays are those of `init_4gray()` from place 10 on. -/
def lutWriteSteps : List Micro :=
  paced .init4gray 10 [wLutVcom, wLutWw, wLutR, wLutW, wLutB, [.lut6Command, .lut6Payload]]

/-- `init_4gray()` (R86). -/
def init4graySteps : List Micro :=
  resetToggle ++ [.pause .init4gray 0] ++ paced .init4gray 1 configurationSteps ++ call .lutWrite lutWriteSteps ++
    paced .init4gray 16 [wPowerOn] ++ awaitNotBusy ++ [.pause .init4gray 17, .finish .init4gray]

/-- INIT4G (R86). -/
def execInit4g (s : State) : Outcome := hostOperation .init4g init4graySteps s

/-- `sleep()` (R88). -/
def sleepSteps : List Micro := [.need anyPowered] ++ wPowerOff ++ awaitNotBusy ++ wDeepSleep ++ [.finish .sleep]

/-- SLEEP (R88). -/
def execSleep (s : State) : Outcome := hostOperation .sleep sleepSteps s

/-- `deinit()` (R89). -/
def deinitSteps : List Micro := [.release, .finish .deinit]

/-- DEINIT (R89). -/
def execDeinit (s : State) : Outcome := hostOperation .deinit deinitSteps s

/-- A transfer: the two data commands, then the refresh and its poll (R90, R91). -/
def transferSteps (q : Sequence) (legal : List PanelState) (k : TransferKind) : List Micro :=
  [.need legal, .pause q 0] ++ paced q 1 [wOldData k, wNewData k, wDisplayRefresh] ++ awaitNotBusy ++ [.pause q 4]

/-- `pic_display(old, new)`: the retained old plane, then `PLANE1`, then the refresh (R90). -/
def picDisplaySteps : List Micro := transferSteps .picDisplay oneBitPowered .pair

/-- PICDISP (R90). -/
def execPicdisp (s : State) : Outcome := hostOperation .picdisp picDisplaySteps s

/-- `pic_display_4g(plane2)`: the two halves of `SPLIT4(PLANE2)`, then the refresh (R91). -/
def picDisplay4gSteps : List Micro := transferSteps .picDisplay4g grayLegal .gray

/-- PICDISP4G (R91). -/
def execPicdisp4g (s : State) : Outcome := hostOperation .picdisp4g picDisplay4gSteps s

/-- `pic_display_clear()`: a `pic_display` of two white planes (R92). -/
def picClearSteps : List Micro := call (.word .picdisp) (transferSteps .picDisplay oneBitPowered .white)

/-- PICCLEAR (R92). -/
def execPicclear (s : State) : Outcome := hostOperation .picclear picClearSteps s

end Sys2Proof.Machine
end

