-- ==== Sys2Proof/Machine/Controller.lean ====
section
/-! DEFINITION. The Refresh Controller: UPD1, UPD4, CLEAR and REFLUSH (spec/44_refresh_controller.md rules R150 to R156,
R159). -/

namespace Sys2Proof.Machine

/-- `ensure_1bit()`: from 4-gray an `init_fast()`, a clear and an emptied old plane; from `UNINIT` or `SLEEPING` an
`init_fast()`; else nothing. After the first branch the state is `FAST`, so the second is not taken (R152). -/
def ensure1bitSteps : List Micro :=
  whenDo .fromGray (call (.word .initfast) initFastSteps ++ call (.word .picclear) picClearSteps ++ [.emptyOld]) ++
    whenDo (.inState [.uninit, .sleeping]) (call (.word .initfast) initFastSteps)

/-- `update_1bit(frame, dithering)` (R151). -/
def update1Steps (d : Bool) : List Micro :=
  [.need notDeinit] ++ call .ensure1bit ensure1bitSteps ++ [.encode1 d] ++
    whenDo .notFresh (call (.word .initpart) initPartialSteps) ++ call (.word .picdisp) picDisplaySteps ++ [.commit1 d]

/-- UPD1 (R151). -/
def execUpd1 (d : Bool) (s : State) : Outcome := hostOperation (.upd1 d) (update1Steps d) s

/-- `update_4bit(frame)` (R153). -/
def update4Steps : List Micro :=
  [.need notDeinit] ++ call (.word .init4g) init4graySteps ++ [.encode4] ++ call (.word .picdisp4g) picDisplay4gSteps ++
    call (.word .sleep) sleepSteps ++ [.commit4]

/-- UPD4 (R153). -/
def execUpd4 (s : State) : Outcome := hostOperation .upd4 update4Steps s

/-- `clear(power_off)` (R155). -/
def clearSteps (powerOff : Bool) : List Micro :=
  [.need notDeinit] ++ whenDo (.notInState oneBitPowered) (call (.word .initfast) initFastSteps) ++
    call (.word .picclear) picClearSteps ++ (if powerOff then call (.word .sleep) sleepSteps else []) ++ [.commitClear]

/-- CLEAR (R155). -/
def execClear (powerOff : Bool) (s : State) : Outcome := hostOperation (.clear powerOff) (clearSteps powerOff) s

/-- `reflush()`: the update that `LAST_MODE` names, on the cached frame. The update writes the same mode back, so
that at most one of the three is taken (R156). -/
def reflushSteps : List Micro :=
  [.needCache, .cacheToFrame] ++ whenDo (.lastMode .fourGray) (call (.word .upd4) update4Steps) ++
    whenDo (.lastMode (.oneBit false)) (call (.word (.upd1 false)) (update1Steps false)) ++
    whenDo (.lastMode (.oneBit true)) (call (.word (.upd1 true)) (update1Steps true))

/-- REFLUSH (R156). -/
def execReflush (s : State) : Outcome := hostOperation .reflush reflushSteps s

end Sys2Proof.Machine
end

