-- ==== Sys2Proof/Machine/Frames.lean ====
section
/-! DEFINITION. The operations on frames alone: ENC1, ENC4 and DITHER. They use no bus, no line and no sequencer state and
are legal in every Panel State (rules R117, R118, R122, R136). -/

namespace Sys2Proof.Machine

/-- `encode_1bit(frame, dither)` (R117). -/
def enc1Steps (d : Bool) : List Micro := [.encode1 d]

/-- ENC1 (R117). -/
def execEnc1 (d : Bool) (s : State) : Outcome := hostOperation (.enc1 d) (enc1Steps d) s

/-- `encode_4gray(frame)` (R118). -/
def enc4Steps : List Micro := [.encode4]

/-- ENC4 (R118). -/
def execEnc4 (s : State) : Outcome := hostOperation .enc4 enc4Steps s

/-- The dithering engine alone (R136). -/
def ditherSteps : List Micro := [.ditherFrame]

/-- DITHER (R136). -/
def execDither (s : State) : Outcome := hostOperation .dither ditherSteps s

end Sys2Proof.Machine
end

