-- ==== Sys2Proof/Machine/Dispatch.lean ====
section
/-! DEFINITION. The dispatch: one arm per instruction, each one call of its meaning. -/

namespace Sys2Proof.Machine

/-- The meaning of an instruction. -/
def exec (i : Instr) (s : State) : Host.Outcome State Fault Refusal :=
  match i with
  | .hwreset => Sys2Proof.Machine.execHwreset s
  | .initfast => Sys2Proof.Machine.execInitfast s
  | .initpart => Sys2Proof.Machine.execInitpart s
  | .init4g => Sys2Proof.Machine.execInit4g s
  | .sleep => Sys2Proof.Machine.execSleep s
  | .deinit => Sys2Proof.Machine.execDeinit s
  | .picdisp => Sys2Proof.Machine.execPicdisp s
  | .picdisp4g => Sys2Proof.Machine.execPicdisp4g s
  | .picclear => Sys2Proof.Machine.execPicclear s
  | .enc1 dither => Sys2Proof.Machine.execEnc1 dither s
  | .enc4 => Sys2Proof.Machine.execEnc4 s
  | .dither => Sys2Proof.Machine.execDither s
  | .upd1 dithering => Sys2Proof.Machine.execUpd1 dithering s
  | .upd4 => Sys2Proof.Machine.execUpd4 s
  | .clear powerOff => Sys2Proof.Machine.execClear powerOff s
  | .reflush => Sys2Proof.Machine.execReflush s
  | .wPanelSetting => Sys2Proof.Machine.execWPanelSetting s
  | .wPowerSetting => Sys2Proof.Machine.execWPowerSetting s
  | .wPowerOff => Sys2Proof.Machine.execWPowerOff s
  | .wPowerOn => Sys2Proof.Machine.execWPowerOn s
  | .wBoosterSoftStart => Sys2Proof.Machine.execWBoosterSoftStart s
  | .wDeepSleep => Sys2Proof.Machine.execWDeepSleep s
  | .wOldData k => Sys2Proof.Machine.execWOldData k s
  | .wDisplayRefresh => Sys2Proof.Machine.execWDisplayRefresh s
  | .wNewData k => Sys2Proof.Machine.execWNewData k s
  | .wLutVcom => Sys2Proof.Machine.execWLutVcom s
  | .wLutWw => Sys2Proof.Machine.execWLutWw s
  | .wLutR => Sys2Proof.Machine.execWLutR s
  | .wLutW => Sys2Proof.Machine.execWLutW s
  | .wLutB => Sys2Proof.Machine.execWLutB s
  | .wPll => Sys2Proof.Machine.execWPll s
  | .wCdi => Sys2Proof.Machine.execWCdi s
  | .wTcon => Sys2Proof.Machine.execWTcon s
  | .wResolution => Sys2Proof.Machine.execWResolution s
  | .wResolutionExtra => Sys2Proof.Machine.execWResolutionExtra s
  | .wVcomDc => Sys2Proof.Machine.execWVcomDc s
  | .wTuneE0 k => Sys2Proof.Machine.execWTuneE0 k s
  | .wTuneE5 k => Sys2Proof.Machine.execWTuneE5 k s

end Sys2Proof.Machine
end

