-- ==== Sys2Proof/Machine/Fetch.lean ====
section
/-! DEFINITION. The sequencer's fetch: the steps of each operation by name, so that a suspended operation is taken up
where it stands (rule R29); the animation worker's turn (rules R157, R158); the host's calls (rule R75). -/

namespace Sys2Proof.Machine

/-- The steps of each instruction, calls of inner operations written out (R95 (a), (b)). A wire command on its own is
followed by the busy poll after exactly 0x04, 0x02 and 0x12 (R180). -/
def program : Instr → List Micro
  | .hwreset => hwresetSteps
  | .initfast => initFastSteps
  | .initpart => initPartialSteps
  | .init4g => init4graySteps
  | .sleep => sleepSteps
  | .deinit => deinitSteps
  | .picdisp => picDisplaySteps
  | .picdisp4g => picDisplay4gSteps
  | .picclear => picClearSteps
  | .enc1 d => enc1Steps d
  | .enc4 => enc4Steps
  | .dither => ditherSteps
  | .upd1 d => update1Steps d
  | .upd4 => update4Steps
  | .clear p => clearSteps p
  | .reflush => reflushSteps
  | .wPanelSetting => wPanelSetting
  | .wPowerSetting => wPowerSetting
  | .wPowerOff => wPowerOff ++ awaitNotBusy
  | .wPowerOn => wPowerOn ++ awaitNotBusy
  | .wBoosterSoftStart => wBoosterSoftStart
  | .wDeepSleep => wDeepSleep
  | .wOldData k => wOldData k
  | .wDisplayRefresh => wDisplayRefresh ++ awaitNotBusy
  | .wNewData k => wNewData k
  | .wLutVcom => wLutVcom
  | .wLutWw => wLutWw
  | .wLutR => wLutR
  | .wLutW => wLutW
  | .wLutB => wLutB
  | .wPll => wPll
  | .wCdi => wCdi
  | .wTcon => wTcon
  | .wResolution => wResolution
  | .wResolutionExtra => wResolutionExtra
  | .wVcomDc => wVcomDc
  | .wTuneE0 k => wTuneE0 k
  | .wTuneE5 k => wTuneE5 k

/-- The sequencer goes on from its cursor; idle, it stays idle (R29). -/
def resume (s : State) : Outcome :=
  match s.cursor with
  | none => .next s
  | some (i, n) => runMicros i ((program i).drop n) n 0 s

/-- A host word at the command port: decoded and run, or reserved (R65, R69). A word of a transfer operation on a
block of another geometry is refused by name (R5); while `RUN = 1` every word is discarded (R71). -/
def presentWord (w : Byte) (s : State) : Outcome :=
  match decodeHost w with
  | none => illegalWord s
  | some i => if s.run || i.wf s.cfg then exec i s else .refused .geometryNotNative

/-- The end of the animation loop: `STOP <- 0; ANIM <- 0` (R157). -/
def endAnimation (s : State) : State := { s with stop := false, anim := false }

/-- The top of the animation loop: the `STOP` test, the next frame into `FRAME`, `update_1bit(FRAME, false)` (R157).
Without a running animation there is no worker; a worker whose update is in flight is blocked in it. -/
def workerTurn (frame : List Byte) (s : State) : Outcome :=
  if !s.anim then .next s
  else if s.run && s.issuer == .worker then resume s
  else if s.stop then .next (endAnimation s)
  else if s.run then .refused .frameWriteInFlight
  else if frame.length = s.cfg.samples then
    presentWord (encode (.upd1 false)) { s with frame := Memory.ofList frame, issuer := .worker }
  else .fault .outsideBuffer

/-- The join of `stop_animation()` while the animation runs: the update in flight goes on, and the worker, the only
agent left to move, sees `STOP` at the top of its loop (R158). -/
def joinTurn (s : State) : Outcome :=
  if s.run then resume s else if s.stop then .next (endAnimation s) else .next s

/-- The calls of the block's external interface and of the pseudo-operations (R74, R75, R150). -/
inductive HostCall where
  | updateOneBit (frame : List Byte) (dither : Bool)
  | updateFourGray (frame : List Byte)
  | update1bitDefault (frame : List Byte)
  | clearDefault
  | reflush
  | startAnimation (frames : List (List Byte))
  | stopAnimation
  deriving DecidableEq, Repr

/-- The expansion of each call into host actions; each is blocking (R24, R75). -/
def HostCall.moves : HostCall → List HostMove
  | .updateOneBit f d => [.writeFrame 0 f, .word (encode (.upd1 d)), .awaitRun]
  | .updateFourGray f => [.writeFrame 0 f, .word (encode .upd4), .awaitRun]
  | .update1bitDefault f => [.writeFrame 0 f, .word (encode (.upd1 true)), .awaitRun]
  | .clearDefault => [.word (encode (.clear false)), .awaitRun]
  | .reflush => [.word (encode .reflush), .awaitRun]
  | .startAnimation fs => .startAnim :: fs.flatMap fun f => [.animTurn f, .awaitRun]
  | .stopAnimation => [.writeStop true, .awaitAnim]

end Sys2Proof.Machine
end

