-- ==== Sys2Proof/Machine/Step.lean ====
section
/-! DEFINITION. One step of the machine: the host's next move, or the sequencer's next stretch. -/

namespace Sys2Proof.Machine

/-- One step. The move at the head of the schedule is taken; a blocked foreground keeps its move and lets the
operation in flight go on; with nothing scheduled the sequencer goes on or stays idle (R24, R71, R76, R157, R158,
R240). A start of the animation sets `ANIM` at once whatever `RUN` is: no rule says what it does while an operation is
in flight, and R76 lets only the write of `STOP` overlap one (DESIGN CHOICE, notes/assumptions/15.md). -/
def step (s : State) : Host.Outcome State Fault Refusal :=
  match s.host with
  | [] => resume s
  | .word w :: rest =>
    presentWord w { s with host := rest, issuer := if s.run then s.issuer else .foreground }
  | .awaitRun :: rest => if s.run then resume s else .next { s with host := rest }
  | .awaitAnim :: rest => if s.anim then joinTurn s else .next { s with host := rest }
  | .tick :: rest => resume { s with host := rest }
  | .writeFrame i bs :: rest => hostWriteFrame i bs { s with host := rest }
  | .writeStop v :: rest => .next { s with host := rest, stop := v }
  | .startAnim :: rest => .next { s with host := rest, anim := true }
  | .animTurn f :: rest => workerTurn f { s with host := rest }
  | .reset :: rest => .next { s with host := rest }.blockReset

/-- `s` with a word of the opcode table where the next step fetches it: a host word at the command port of an idle
block; a wire command at the sequencer's position, as the only step of an operation in flight (R29, R60). -/
def State.withFetchWord (s : State) (nbits w : Nat) : State :=
  match decodeTableWord nbits w with
  | some i =>
    match i.format with
    | .host => { s with run := false, seqPos := [], cursor := none, saved := none, host := [.word (BitVec.ofNat 8 w)] }
    | .wire =>
      { s with
        run := true
        seqPos := [(.word i, 0)]
        cursor := some (i, 0)
        saved := some s.snapshot
        host := [] }
  | none => { s with run := false, seqPos := [], cursor := none, saved := none, host := [.word (BitVec.ofNat 8 w)] }

end Sys2Proof.Machine
end

