-- ==== Sys2Proof/Machine/Pins.lean ====
section
/-! DEFINITION. The pins below the trace: the output lines between two transfers, and the serial waveform of a call of a
bus primitive (rules R20, R27, R50). PRESUMED: the spec marks R50 general knowledge (notes/assumptions/20.md). No
definition above the pins uses this file. -/

namespace Sys2Proof.Machine

/-- The output pins between two transfers; `none` is a released output, high impedance (R20). -/
structure OutputPins where
  dc : Option Bool
  rst : Option Bool
  /-- the serial bus: chip select, active low, the clock, data out -/
  cs : Option Bool
  sclk : Option Bool
  mosi : Option Bool
  deriving DecidableEq, Repr

/-- Every output high impedance: what `deinit()` leaves (R20, R89). -/
def OutputPins.released : OutputPins := ⟨none, none, none, none, none⟩

/-- The bytes that some events transfer, commands and data alike, in order. -/
def bytesIn (es : List Event) : List Byte :=
  es.filterMap fun e => match e with
    | .cmd b => some b
    | .data b => some b
    | _ => none

/-- The outputs of the block between two transfers: chip select inactive, the clock idle low, data out driven at a
level that is free and stays until the next byte is sent (R20, R27, R50; notes/assumptions/20.md). So also after a call
that a failed transfer cuts short, of which R50 says nothing: chip select is taken to be inactive and the clock low at
once, and data out as it was (DESIGN CHOICE, notes/assumptions/20.md). -/
def State.outputPins (s : State) : OutputPins :=
  if s.own then ⟨some s.dc, some s.rst, some true, some false, some (Config.dataOutLevel (bytesIn s.trace))⟩
  else .released

/-- One sample of the serial pins: chip select, clock, data out; `none` where the spec says nothing of data out. -/
structure SerialSample where
  cs : Bool
  sclk : Bool
  mosi : Option Bool
  deriving DecidableEq, Repr

/-- One bit: data out set while the clock is low, then the rising edge (SPI mode 0). -/
def bitWave (b : Bool) : List SerialSample := [⟨false, false, some b⟩, ⟨false, true, some b⟩]

/-- One byte: eight clock cycles, most significant bit first. -/
def byteWave (b : Byte) : List SerialSample := (bitsOfByte b).flatMap bitWave

/-- One call of `write_command` or `write_data`: chip select active for all its bytes, released after the last with the
clock idle low. -/
def callWave (bs : List Byte) : List SerialSample := bs.flatMap byteWave ++ [⟨true, false, none⟩]

/-- What the panel samples: data out at each rising edge of the clock while chip select is active. `prev` is the
clock's level before the wave. -/
def risingEdges (prev : Bool) : List SerialSample → List Bool
  | [] => []
  | p :: ps => if !prev && p.sclk && !p.cs then p.mosi.toList ++ risingEdges p.sclk ps else risingEdges p.sclk ps

end Sys2Proof.Machine
end

