-- ==== Sys2Proof/Safety.lean ====
section
/-! DEFINITION. The terms claims are stated in: the events of each operation, the oracles' answers, the legality matrix as
the spec's table has it, the machine's invariant, and what a safe run is. -/

namespace Sys2Proof

/-! ### Binary32 (R137) -/

/-- The significand of a binary32 value: its magnitude in units of its last place. -/
def F32.significand (v : F32) : Nat := v.mag / 2 ^ (Nat.log2 v.mag - 23)

/-- `v` is the binary32 value nearest the quotient `n / d` (in units of 2^-149), and where another one is as near, the
one of the two whose significand is even (R137). -/
def F32.IsNearest (v : F32) (n : Int) (d : Nat) : Prop :=
  v.Representable ∧ ∀ u : F32, u.Representable →
    (v.toInt * d - n).natAbs ≤ (u.toInt * d - n).natAbs ∧
      ((u.toInt * d - n).natAbs = (v.toInt * d - n).natAbs → u.toInt ≠ v.toInt → v.significand % 2 = 0)

end Sys2Proof

namespace Sys2Proof.Machine

/-! ### The event sequences of the rules, for a panel that a poll finds busy `n` times -/

/-- `write_command(c); write_data(bs)`. -/
def txEvents (c : Byte) (bs : List Byte) : List Event := commandEvents c ++ dataEvents bs

/-- `n` turns of the poll loop that find the panel busy. -/
def busyTurns (p : Params) (n : Nat) : List Event :=
  (List.replicate n (Event.poll true :: delayEvents p.pollIntervalMs)).flatten

/-- `await_not_busy()` that finds the panel busy `n` times (R82). -/
def awaitEvents (p : Params) (n : Nat) : List Event :=
  delayEvents p.delays.prePollMs ++ busyTurns p n ++ [.poll false]

/-- The delay of `SEQ_DELAYS` at a place of a sequence (R5, D14); with the default, nothing. -/
def gapEvents (p : Params) (q : Sequence) (k : Nat) : List Event := delayEvents (p.delays.delay q k)

/-- Transactions with their delays, from place `k` of a sequence on. -/
def pacedEvents (p : Params) (q : Sequence) : Nat → List (List Event) → List Event
  | _, [] => []
  | k, es :: ess => es ++ gapEvents p q k ++ pacedEvents p q (k + 1) ess

/-- The reset toggle (R83). -/
def resetToggleEvents (p : Params) : List Event :=
  [.line .rst false] ++ delayEvents p.resetSettleMs ++ [.line .rst true] ++ delayEvents p.resetSettleMs

/-- `Acquire`, where the lines are not held. -/
def acquireEvents (s : State) : List Event := if s.own then [] else [.acquire]

/-- Power on, the poll, and the two tuning commands with their bytes (R84, R85). -/
def tuneEvents (p : Params) (q : Sequence) (a b : List Byte) (n : Nat) : List Event :=
  gapEvents p q 0 ++ pacedEvents p q 1 [commandEvents 0x04#8] ++ awaitEvents p n ++ gapEvents p q 2 ++
    pacedEvents p q 3 [txEvents 0xE0#8 a, txEvents 0xE5#8 b]

/-- `init_fast()` without the acquisition (R84). -/
def initFastEvents (p : Params) (n : Nat) : List Event := tuneEvents p .initFast p.bytes.pfE0 p.bytes.pfE5 n

/-- `init_partial()` (R85). -/
def initPartialEvents (p : Params) (n : Nat) : List Event := tuneEvents p .initPartial p.bytes.ppE0 p.bytes.ppE5 n

/-- The nine configuration commands with their bytes (R86). -/
def configurationEvents (p : Params) : List (List Event) :=
  [txEvents 0x00#8 p.bytes.p00, txEvents 0x01#8 p.bytes.p01, txEvents 0x06#8 p.bytes.p06, txEvents 0x30#8 p.bytes.p30,
    txEvents 0x50#8 p.bytes.p50, txEvents 0x60#8 p.bytes.p60, txEvents 0x61#8 p.bytes.p61, txEvents 0x65#8 p.bytes.p65,
    txEvents 0x82#8 p.bytes.p82]

/-- `lut_write()`: the five sub-writes, and the sixth, of which nothing is sent where `LUT6_CMD` is "no command"
(R87; notes/assumptions/18.md). -/
def lutWriteEvents (p : Params) : List (List Event) :=
  [txEvents 0x20#8 p.bytes.lut0, txEvents 0x21#8 p.bytes.lut1, txEvents 0x22#8 p.bytes.lut2,
    txEvents 0x23#8 p.bytes.lut3, txEvents 0x24#8 p.bytes.lut4, lut6CommandEvents p ++ lut6PayloadEvents p]

/-- `init_4gray()` without the acquisition (R86). -/
def init4grayEvents (p : Params) (n : Nat) : List Event :=
  resetToggleEvents p ++ gapEvents p .init4gray 0 ++ pacedEvents p .init4gray 1 (configurationEvents p) ++
    pacedEvents p .init4gray 10 (lutWriteEvents p) ++ pacedEvents p .init4gray 16 [commandEvents 0x04#8] ++
    awaitEvents p n ++ gapEvents p .init4gray 17

/-- A transfer: the bytes after 0x10, the bytes after 0x13, the refresh and its poll (R90 to R92). -/
def transferEvents (p : Params) (q : Sequence) (a b : List Byte) (n : Nat) : List Event :=
  gapEvents p q 0 ++
    pacedEvents p q 1 [txEvents 0x10#8 a, txEvents 0x13#8 b, commandEvents 0x12#8] ++ awaitEvents p n ++ gapEvents p q 4

/-- `P i c bs` of each of the six forms of the two data commands: `c` its byte, `bs` the plane it sends, for which the buffer
it reads, and no other, is to be readable. `pic_display` sends the retained old plane or the white one where there is
none, and `PLANE1`; `pic_display_clear` two white planes; `pic_display_4g` the halves of `PLANE2` (R15, R90 to R92, R94,
R200, R201). -/
def State.forPlaneTransfers (s : State) (P : Instr → Byte → List Byte → Prop) : Prop :=
  (∀ o, (s.oldValid = true → s.old.readAll s.cfg.plane1Bytes = some o) →
    (s.oldValid = false → o = List.replicate s.cfg.plane1Bytes s.cfg.whiteByte) → P (.wOldData .pair) 0x10#8 o) ∧
  (∀ n, s.plane1.readAll s.cfg.plane1Bytes = some n → P (.wNewData .pair) 0x13#8 n) ∧
  P (.wOldData .white) 0x10#8 (List.replicate s.cfg.plane1Bytes s.cfg.whiteByte) ∧
  P (.wNewData .white) 0x13#8 (List.replicate s.cfg.plane1Bytes s.cfg.whiteByte) ∧
  ∀ g, s.plane2.readAll s.cfg.plane2Bytes = some g →
    P (.wOldData .gray) 0x10#8 (split4 s.cfg g).1 ∧ P (.wNewData .gray) 0x13#8 (split4 s.cfg g).2

/-- `sleep()` (R88). -/
def sleepEvents (p : Params) (n : Nat) : List Event :=
  commandEvents 0x02#8 ++ awaitEvents p n ++ txEvents 0x07#8 [0xA5#8]

/-- The abstract trace: without the `Line(DC, v)` events (R32). -/
def abstractTrace (es : List Event) : List Event :=
  es.filter fun e => match e with
    | .line .dc _ => false
    | _ => true

/-- The bus bytes of a trace with the level of `DC` each is sent at (R66). -/
def wireBytes (es : List Event) : List WireByte :=
  es.filterMap fun e => match e with
    | .cmd b => some (false, b)
    | .data b => some (true, b)
    | _ => none

/-! ### The oracles' answers -/

/-- The events the transport may fail: a claim of the lines, a line write, a byte transfer, a busy read (R34, R49, R211).
A delay and a release are none. -/
def Event.fallible : Event → Bool
  | .acquire | .line _ _ | .cmd _ | .data _ | .poll _ => true
  | .release | .delay _ | .fail => false

/-- How many of some events the transport may fail. -/
def fallibleIn (es : List Event) : Nat := (es.filter Event.fallible).length

/-- `u` is where a transport that lets `k` events through and fails the next ends what on a good one appends `es` to the
trace of `s`: the events before the failing one have happened, then `Fail`; `ks` is what the oracle answers after it. -/
def State.CutAt (s u : State) (es : List Event) (k : Nat) (ks : List Nat) : Prop :=
  ∃ before e after, es = before ++ e :: after ∧ e.fallible = true ∧ fallibleIn before = k ∧
    u.trace = s.trace ++ before ++ [.fail] ∧ u.xferFails = ks

/-- The transport fails nothing (R34). -/
def State.transportGood (s : State) : Prop := s.xferFails = []

/-- The transport lets one more event through, and `fs` is what it answers after that (R34, R49). -/
def State.letsOneThrough (s : State) (fs : List Nat) : Prop :=
  s.transportGood ∧ fs = [] ∨ ∃ k ks, s.xferFails = (k + 1) :: ks ∧ fs = k :: ks

/-- The answer of the busy line's sample after `k` others: true = busy (R48). -/
def State.sample (s : State) (k : Nat) : Bool := s.busyIn.getD k s.busyRest == s.cfg.busyActiveLevel

/-- From the sample after `k` others on, the coming polls find the panel busy as many times each as the list says, and
then not busy; and no ceiling ends one of them (R82). -/
def State.answersFrom (s : State) : Nat → List Nat → Prop
  | _, [] => True
  | k, n :: ns =>
    (∀ j, j < n → s.sample (k + j) = true) ∧ s.sample (k + n) = false ∧
      (∀ c, s.cfg.pollCeilingMs = some c → n = 0 ∨ (n - 1) * s.cfg.pollIntervalMs < c) ∧
      s.answersFrom (k + n + 1) ns

/-- The coming polls find the panel busy as many times each as the list says; zeros are an idle panel. -/
def State.busyFor (s : State) (ns : List Nat) : Prop := s.answersFrom 0 ns

/-- `k` more steps of the machine after an outcome. -/
def thenSteps : Nat → Outcome → Outcome
  | 0, o => o
  | k + 1, .next s => thenSteps k (step s)
  | _ + 1, .fault f => .fault f
  | _ + 1, .refused r => .refused r

/-- The panel is stuck busy from now on (U11). -/
def State.stuckBusy (s : State) : Prop := s.busyIn = [] ∧ s.busyRest = s.cfg.busyActiveLevel

/-- The block waits for a host command: no operation in flight. -/
def State.idle (s : State) : Prop := s.run = false ∧ s.seqPos = [] ∧ s.cursor = none ∧ s.saved = none

/-- Some of the first `n` elements of a buffer has not been written since reset (R36). -/
def Memory.lacks {β : Type} (m : Memory β) (n : Nat) : Prop := ∃ k, k < n ∧ m.read k = none

/-! ### The legality matrix (R80) -/

/-- The host words of the sequencer operations. -/
def isSequencerOp : Instr → Bool
  | .hwreset | .initfast | .initpart | .init4g | .sleep | .deinit | .picdisp | .picdisp4g | .picclear => true
  | _ => false

/-- The cells of R80's matrix, row by row: true = "ok", false = "PSE"; columns `UNINIT`, `FAST`, `FULL`, `PARTIAL`,
`GRAY4`, `SLEEPING`, `DEINIT`. -/
def legalRow : Instr → List Bool
  | .initpart => [false, true, false, true, false, false, false]
  | .sleep => [false, true, true, true, true, false, false]
  | .picdisp => [false, true, true, true, false, false, false]
  | .picclear => [false, true, true, true, false, false, false]
  | .picdisp4g => [false, false, false, false, true, false, false]
  | _ => [true, true, true, true, true, true, true]

/-- One cell of the matrix. -/
def legalIn (i : Instr) (p : PanelState) : Bool := (legalRow i).getD p.code.toNat false

/-- The last column of the matrix, "state after". -/
def stateAfter (i : Instr) (p : PanelState) : PanelState :=
  match i with
  | .hwreset => .uninit
  | .initfast => .fast
  | .initpart => .partialMode
  | .init4g => .gray4
  | .sleep => .sleeping
  | .deinit => .deinit
  | _ => p

/-! ### The invariant -/

/-- A buffer of at most `n` elements in canonical form. -/
def Memory.okay {β : Type} (m : Memory β) (n : Nat) : Prop := m.wf ∧ ∀ c ∈ m, c.1 < n

/-- What the block's bookkeeping promises of the values an error can bring back. -/
def Saved.Inv (p : Params) (v : Saved) : Prop :=
  v.panelState ≠ .full ∧
  Memory.okay v.old p.plane1Bytes ∧ Memory.okay v.cache p.samples ∧
  (v.oldValid = true → (v.old.readAll p.plane1Bytes).isSome = true) ∧
  (v.cacheValid = true → (v.cache.readAll p.samples).isSome = true ∧ v.lastMode ≠ .none)

/-- An operation in flight stands at a poll: nowhere else does a step end inside an operation (R82). -/
def AtPoll (i : Instr) (n : Nat) : Prop :=
  match (program i)[n]? with
  | some .poll => True
  | _ => False

/-- The operations in flight after a step, where `q` were in flight before it. -/
def callsAfter (q : List Operation) (m : Micro) : List Operation :=
  match m with
  | .enter o => o :: q
  | .leave => q.tail
  | _ => q

/-- The operations in flight at step `n` of an operation, the innermost first: those entered and not left before it. A
part that is not taken enters and leaves alike. -/
def openCalls (i : Instr) (n : Nat) : List Operation := ((program i).take n).foldl callsAfter [.word i]

/-- The machine's invariant: the buffers in canonical form and inside their spaces (R40, R44); `FULL` never held (R18);
a valid old plane and a valid cache are whole, and a valid cache has a mode (R15, R16, R156); `RUN = 1` exactly while
an operation is in flight, standing at a poll, with the values at acceptance kept and `SEQ_POS` naming the operations
in flight there (R24, R29, R95, R215). -/
structure State.Inv (s : State) : Prop where
  frame : Memory.okay s.frame s.cfg.samples
  work : Memory.okay s.work s.cfg.samples
  plane1 : Memory.okay s.plane1 s.cfg.plane1Bytes
  plane2 : Memory.okay s.plane2 s.cfg.plane2Bytes
  books : s.snapshot.Inv s.cfg
  saved : ∀ v, s.saved = some v → v.Inv s.cfg
  running : s.run = true → s.saved.isSome = true ∧
    ∃ i n, s.cursor = some (i, n) ∧ AtPoll i n ∧ s.seqPos.map Prod.fst = openCalls i n
  resting : s.run = false → s.saved = none ∧ s.cursor = none ∧ s.seqPos = []

/-- The command bytes the block may send: the 22 of R67 and `LUT6_CMD`. -/
def sendable (p : Params) (b : Byte) : Prop :=
  b ∈ [0x00#8, 0x01#8, 0x02#8, 0x04#8, 0x06#8, 0x07#8, 0x10#8, 0x12#8, 0x13#8, 0x20#8, 0x21#8, 0x22#8, 0x23#8, 0x24#8,
    0x30#8, 0x50#8, 0x60#8, 0x61#8, 0x65#8, 0x82#8, 0xE0#8, 0xE5#8] ∨ p.lut6Cmd = some b

/-- Every command byte in the trace is one the block may send (R73). -/
def State.wireClean (s : State) : Prop := ∀ b, Event.cmd b ∈ s.trace → sendable s.cfg b

/-! ### Safe runs -/

/-- A step that answers a next state. -/
def Steps (s t : State) : Prop := step s = .next t

/-- A run of `k` steps that meets no fault and no refusal. -/
def SafeFor (k : Nat) (s : State) : Prop := ∃ t, Host.Core.run core k s = .next t

end Sys2Proof.Machine
end

