-- ==== Sys2Proof/Certificates/Slice0/Obligations.lean ====
section
/-! DEFINITION. The statements for the provers, in the order of spec/: encodings, state and reset, buffers and bus, the wire
commands, the sequencer, the encoder, the dithering engine, the controller, errors, the whole machine. -/

open Sys2Proof Sys2Proof.Machine

/-! ### Encodings -/

/-- R65, R69, R72: in each format, decoding the word of an instruction gives it back, and a word decodes to nothing but
the instruction whose word it is. -/
def Obligations.DecodeAndEncodeAgree : Prop :=
  ∀ (f : Format) (c : WireContext) (i : Instr) (b : Byte),
    (i.format = f → i.inContext c = true → decode f c (encode i) = some i) ∧
      (decode f c b = some i → encode i = b ∧ i.format = f ∧ i.inContext c = true)

/-- R66, R72: a stretch of the wire and its transactions determine each other: command bytes are told from data bytes
by DC, and data bytes belong to the command before them. -/
def Obligations.WireStreamRoundTrip : Prop :=
  ∀ (ts : List Transaction) (bs : List WireByte),
    decodeStream (encodeStream ts) = some ts ∧ (decodeStream bs = some ts → encodeStream ts = bs)

/-- Words written out from R62 and R67 decode to the instructions they stand for. -/
def Obligations.WordsFromTheTablesDecode : Prop :=
  decodeHost 0b00000000#8 = some .hwreset ∧ decodeHost 0b01110000#8 = some .picdisp4g ∧
    decodeHost 0b10010001#8 = some (.enc1 true) ∧ decodeHost 0b11000000#8 = some (.upd1 false) ∧
    decodeHost 0b11100001#8 = some (.clear true) ∧ decodeHost 0b11110000#8 = some .reflush ∧
    decodeHost 0b11000010#8 = none ∧ decodeHost 0b10100001#8 = none ∧
    decodeWire ⟨.partialMode, .pair⟩ 0b11100101#8 = some (.wTuneE5 .partialMode) ∧
    decodeWire ⟨.fast, .gray⟩ 0b00010011#8 = some (.wNewData .gray) ∧
    decodeWire ⟨.fast, .pair⟩ 0b00100101#8 = none

/-- R69: a word with `HC[3:1] ≠ 0`, or with `HC[0] = 1` where the row has no argument, is reserved: not executed, no
event, no state change but `ERR <- 4`; exactly 237 words are reserved [the spec's decision D24]. (The move taken from the schedule and the
recorded issuer are the model's own.) -/
def Obligations.ReservedWordSetsErrOnly : Prop :=
  (∀ (s : State) (w : Byte) (rest : List HostMove),
    s.run = false → s.host = .word w :: rest →
    (w.extractLsb' 1 3 ≠ 0#3 ∨ w.getLsbD 0 = true ∧ w.extractLsb' 4 4 ∉ [0x9#4, 0xC#4, 0xE#4]) →
    step s = .next { s with host := rest, issuer := .foreground, err := .illegalCommand }) ∧
  ((List.range 256).filter fun n => (decodeHost (BitVec.ofNat 8 n)).isNone).length = 237

/-- R71, R76: a word presented while `RUN = 1` is discarded: no state changes, not even `ERR`, and no event is appended
[the spec's decision D25]; `STOP` is not a command and is written at any time, whatever `RUN` is. (The move taken from
the schedule is the model's own.) -/
def Obligations.WordWhileRunningIsDiscarded : Prop :=
  (∀ (s : State) (w : Byte) (rest : List HostMove),
    s.run = true → s.host = .word w :: rest → step s = .next { s with host := rest }) ∧
  ∀ (s : State) (v : Bool) (rest : List HostMove),
    s.host = .writeStop v :: rest → step s = .next { s with host := rest, stop := v }

/-- A step runs the decoded instruction: an idle block's step on a word that decodes to an instruction it can run is
that instruction's meaning, the move taken from the schedule. -/
def Obligations.StepRunsTheDecodedWord : Prop :=
  ∀ (s : State) (w : Byte) (i : Instr) (rest : List HostMove),
    s.run = false → s.host = .word w :: rest → decodeHost w = some i → i.wf s.cfg = true →
    step s = exec i { s with host := rest, issuer := .foreground }

/-- A step at the sequencer's position runs the wire command there. That a wire command stands alone as an operation, that
a sent one which no poll follows completes it, and that after 0x02, 0x04 and 0x12 the sequencer stands at the head of
the await, is the model's own form: DESIGN CHOICE, notes/assumptions/8.md (and 7.md for the operand). -/
def Obligations.StepRunsTheWireCommand : Prop :=
  ∀ (s t : State) (i : Instr),
    s.run = true → s.host = [] → s.cursor = some (i, 0) → i.format = .wire → exec i s = .next t →
    (t.run = false → step s = .next t) ∧
    (t.run = true → encode i ∉ [0x02#8, 0x04#8, 0x12#8] → step s = .next t.complete) ∧
    (t.run = true → encode i ∈ [0x02#8, 0x04#8, 0x12#8] → step s = resume { t with cursor := some (i, 1) })

/-! ### State, status and reset -/

/-- R35, R36: after the block's reset, by whatever move it comes, the state elements have the listed values, and no element
of a buffer has a value [D26; that the reset is a move, and what it leaves of an operation in flight:
notes/assumptions/16.md]. -/
def Obligations.ResetStateIsTheListed : Prop :=
  ∀ (s : State) (rest : List HostMove), s.host = .reset :: rest →
    ∀ t, t = State.reset ∨ step s = .next t →
      t.panelState = .uninit ∧ t.oldValid = false ∧ t.cacheValid = false ∧ t.lastMode = .none ∧ t.fresh = false ∧
      t.own = true ∧ t.run = false ∧ t.err = .none ∧ t.stop = false ∧ t.anim = false ∧ t.seqPos = [] ∧
      t.pollElapsed = 0 ∧ t.trace = [] ∧ t.rst = true ∧ t.dc = Config.dcData ∧
      ∀ k, t.frame.read k = none ∧ t.work.read k = none ∧ t.plane1.read k = none ∧ t.plane2.read k = none ∧
        t.old.read k = none ∧ t.cache.read k = none

/-- R64 [D2, D4]: `HSTAT[0] = RUN`, `HSTAT[3:1] = ERR`, `HSTAT[6:4] = PANEL_STATE`, `HSTAT[7] = ANIM`, with the numbers of
R25, R210 and R18; and the numbers of `LAST_MODE` (R17). -/
def Obligations.StatusWordLayout : Prop :=
  (∀ s : State, s.hstat.getLsbD 0 = s.run ∧
    s.hstat.extractLsb' 1 3 = (match s.err with
      | .none => 0#3
      | .transport => 1#3
      | .panelTimeout => 2#3
      | .protocolState => 3#3
      | .illegalCommand => 4#3) ∧
    s.hstat.extractLsb' 4 3 = (match s.panelState with
      | .uninit => 0#3
      | .fast => 1#3
      | .full => 2#3
      | .partialMode => 3#3
      | .gray4 => 4#3
      | .sleeping => 5#3
      | .deinit => 6#3) ∧
    s.hstat.getLsbD 7 = s.anim) ∧
  LastMode.none.code = 0#2 ∧ (LastMode.oneBit false).code = 1#2 ∧ (LastMode.oneBit true).code = 2#2 ∧
    LastMode.fourGray.code = 3#2

/-- R44: a write of consecutive elements is read back, leaves every other element alone, and keeps the canonical form;
and on a buffer in canonical form the one-pass read of the whole is the read of its elements in index order. -/
def Obligations.BufferReadsAndWrites : Prop :=
  ∀ (m : Memory Byte) (i n : Nat) (vs : List Byte), m.wf →
    (m.writeRange i vs).wf ∧ (m.writeRange i vs).readRange i vs.length = some vs ∧
      (∀ k, k < i ∨ i + vs.length ≤ k → (m.writeRange i vs).read k = m.read k) ∧
      m.readAll n = m.readRange 0 n

/-- The host's writes of `FRAME`: inside the buffer while `RUN = 0`; outside it (R44, U19), or in flight (R59, U5), the
model stops by name (its choice: notes/assumptions/10.md). -/
def Obligations.HostFrameWrites : Prop :=
  ∀ (s : State) (i : Nat) (vs : List Byte) (rest : List HostMove), s.host = .writeFrame i vs :: rest →
    (s.run = true → step s = .refused .frameWriteInFlight) ∧
    (s.run = false → i + vs.length ≤ s.cfg.samples →
      step s = .next { s with host := rest, frame := s.frame.writeRange i vs }) ∧
    (s.run = false → s.cfg.samples < i + vs.length → step s = .fault .outsideBuffer)

/-- R46: `write_data` sets DC to the data level and sends the bytes in index order; a bulk write is the single-byte writes
in the same order, with the same abstract trace and the same DC level; a failure at byte k leaves the k bytes before it
in the trace followed by `Fail`. The other primitives (R45, R47, R49, R20, R211): a command, a write of `RST` and the claim
of the lines on a good transport; and where the transport fails one of their events, those before it have happened, then
`Fail`, and `TransportError` is raised; a claim that fails leaves the lines released (notes/assumptions/14.md). Where
`SEQ_POS` then stands is the model's choice beside R29: every event of a call
counts, a `Line(DC, v)` and a `Fail` among them (DESIGN CHOICE, notes/assumptions/1.md); R46 says that the `Line` events
in between change nothing. -/
def Obligations.BulkWriteIsSingleWrites : Prop :=
  (∀ (s : State) (b : Byte) (bs : List Byte), s.own = true →
    (s.transportGood → ∃ t u v, s.writeData (b :: bs) = .ok t ∧ s.writeData [b] = .ok u ∧ u.writeData bs = .ok v ∧
      abstractTrace t.trace = abstractTrace v.trace ∧ { t with trace := v.trace, seqPos := v.seqPos } = v ∧
      t = { s with
        dc := Config.dcData
        seqPos := advance (bs.length + 2) s.seqPos
        trace := s.trace ++ [.line .dc Config.dcData] ++ (b :: bs).map .data }) ∧
    ∀ (k : Nat) (ks : List Nat), k ≤ bs.length → s.xferFails = (1 + k) :: ks →
      s.writeData (b :: bs) = .raised .transport { s with
        dc := Config.dcData
        seqPos := advance (k + 2) s.seqPos
        trace := s.trace ++ [.line .dc Config.dcData] ++ ((b :: bs).take k).map .data ++ [.fail]
        xferFails := ks }) ∧
  (∀ (s : State) (c : Byte) (v : Bool), s.own = true →
    (s.transportGood →
      s.writeCommand c = .ok { s with
        dc := Config.dcCommand
        seqPos := advance 2 s.seqPos
        trace := s.trace ++ [.line .dc Config.dcCommand, .cmd c] } ∧
      s.setReset v = .ok { s with
        rst := v
        seqPos := advance 1 s.seqPos
        trace := s.trace ++ [.line .rst v] }) ∧
    ∀ ks, (s.xferFails = 0 :: ks →
        let t : State := { s with seqPos := advance 1 s.seqPos, trace := s.trace ++ [.fail], xferFails := ks }
        s.writeCommand c = .raised .transport t ∧ s.setReset v = .raised .transport t ∧
          ∀ bs, s.writeData bs = .raised .transport t) ∧
      (s.xferFails = 1 :: ks → s.writeCommand c = .raised .transport { s with
        dc := Config.dcCommand
        seqPos := advance 2 s.seqPos
        trace := s.trace ++ [.line .dc Config.dcCommand, .fail]
        xferFails := ks })) ∧
  ∀ s : State, (s.own = true → s.acquire = .ok s) ∧
    (s.own = false → s.transportGood → s.acquire = .ok { s with
      own := true
      seqPos := advance 1 s.seqPos
      trace := s.trace ++ [.acquire] }) ∧
    ∀ ks, s.own = false → s.xferFails = 0 :: ks → s.acquire = .raised .transport { s with
      seqPos := advance 1 s.seqPos
      trace := s.trace ++ [.fail]
      xferFails := ks }

/-! ### The wire commands -/

/-- The nine configuration commands: each sends its byte at the command level and its constant bytes at the data level, moves
`SEQ_POS` on, and changes nothing else. Where `SEQ_POS` then stands is the model's choice beside R29: the `Line(DC, v)`
events count (DESIGN CHOICE, notes/assumptions/1.md). -/
def Obligations.ConfigurationCommandsSent : Prop :=
  ∀ s : State, s.own = true → s.transportGood →
    ∀ r ∈ [(Instr.wPanelSetting, 0x00#8, s.cfg.bytes.p00), (.wPowerSetting, 0x01#8, s.cfg.bytes.p01),
        (.wBoosterSoftStart, 0x06#8, s.cfg.bytes.p06), (.wPll, 0x30#8, s.cfg.bytes.p30),
        (.wCdi, 0x50#8, s.cfg.bytes.p50), (.wTcon, 0x60#8, s.cfg.bytes.p60),
        (.wResolution, 0x61#8, s.cfg.bytes.p61), (.wResolutionExtra, 0x65#8, s.cfg.bytes.p65),
        (.wVcomDc, 0x82#8, s.cfg.bytes.p82)],
      exec r.1 s = .next { s with
        trace := s.trace ++ [.line .dc Config.dcCommand, .cmd r.2.1, .line .dc Config.dcData] ++ r.2.2.map .data
        seqPos := advance (3 + r.2.2.length) s.seqPos
        dc := Config.dcData }

/-- The five LUT commands and the two tuning commands in both modes: byte, data bytes, `SEQ_POS` on, nothing else.
Where `SEQ_POS` then stands is the model's choice beside R29: the `Line(DC, v)` events count (DESIGN CHOICE, notes/assumptions/1.md). -/
def Obligations.LutAndTuneCommandsSent : Prop :=
  ∀ s : State, s.own = true → s.transportGood →
    ∀ r ∈ [(Instr.wLutVcom, 0x20#8, s.cfg.bytes.lut0), (.wLutWw, 0x21#8, s.cfg.bytes.lut1),
        (.wLutR, 0x22#8, s.cfg.bytes.lut2), (.wLutW, 0x23#8, s.cfg.bytes.lut3),
        (.wLutB, 0x24#8, s.cfg.bytes.lut4), (.wTuneE0 .fast, 0xE0#8, s.cfg.bytes.pfE0),
        (.wTuneE5 .fast, 0xE5#8, s.cfg.bytes.pfE5), (.wTuneE0 .partialMode, 0xE0#8, s.cfg.bytes.ppE0),
        (.wTuneE5 .partialMode, 0xE5#8, s.cfg.bytes.ppE5)],
      exec r.1 s = .next { s with
        trace := s.trace ++ [.line .dc Config.dcCommand, .cmd r.2.1, .line .dc Config.dcData] ++ r.2.2.map .data
        seqPos := advance (3 + r.2.2.length) s.seqPos
        dc := Config.dcData }

/-- The power and refresh commands: 0x04, 0x02 and 0x12 send no data, 0x07 exactly `[0xA5]`. The busy poll that R195, R196
and R202 put after the first three is no part of their meaning here but the sequencer's next step: DESIGN CHOICE,
notes/assumptions/8.md. Where `SEQ_POS` then stands is the model's choice beside R29: the `Line(DC, v)`
events count (DESIGN CHOICE, notes/assumptions/1.md). -/
def Obligations.PowerAndRefreshCommandsSent : Prop :=
  ∀ s : State, s.own = true → s.transportGood →
    (∀ r ∈ [(Instr.wPowerOn, 0x04#8), (.wPowerOff, 0x02#8), (.wDisplayRefresh, 0x12#8)],
      exec r.1 s = .next { s with
        trace := s.trace ++ [.line .dc Config.dcCommand, .cmd r.2]
        seqPos := advance 2 s.seqPos
        dc := Config.dcCommand }) ∧
    exec .wDeepSleep s = .next { s with
      trace := s.trace ++ [.line .dc Config.dcCommand, .cmd 0x07#8, .line .dc Config.dcData, .data 0xA5#8]
      seqPos := advance 4 s.seqPos
      dc := Config.dcData }

/-- 0x10 and 0x13 send the planes of the transfer they belong to: the retained old plane or the all-white substitute and
`PLANE1`; two white planes; or the two halves of `PLANE2` under `SPLIT4`. Each form asks for its own plane alone to be
readable, the white ones for none. Where `SEQ_POS` then stands is the model's choice beside R29: the `Line(DC, v)`
events count (DESIGN CHOICE, notes/assumptions/1.md). -/
def Obligations.PlaneTransfersSent : Prop :=
  ∀ s : State, s.own = true → s.transportGood →
    s.forPlaneTransfers fun i c bs => exec i s = .next { s with
      trace := s.trace ++ [.line .dc Config.dcCommand, .cmd c, .line .dc Config.dcData] ++ bs.map .data
      seqPos := advance (3 + bs.length) s.seqPos
      dc := Config.dcData }

/-- R46, R49: a failure at byte k of any plane that 0x10 or 0x13 sends leaves the k bytes before it in the trace followed by
`Fail`, and the operation in flight ends with `TransportError`, its bookkeeping back at the values of acceptance; an
animation whose update it was ends with it (R218), and nothing else of it changes where the foreground issued it. -/
def Obligations.FailureInsideAPlane : Prop :=
  ∀ s : State, s.own = true → s.forPlaneTransfers fun i c bs => ∀ (k : Nat) (ks : List Nat), k < bs.length →
    s.xferFails = (3 + k) :: ks → exec i s = .next { s.restore s.saved with
      trace := s.trace ++ [.line .dc Config.dcCommand, .cmd c, .line .dc Config.dcData] ++ (bs.take k).map .data ++ [.fail]
      dc := Config.dcData
      xferFails := ks
      stop := if s.issuer = .worker then false else s.stop
      anim := if s.issuer = .worker then false else s.anim
      err := .transport
      run := false
      seqPos := []
      cursor := none
      saved := none }

/-- R49, D27: without ownership every wire command fails as a failed transfer does. -/
def Obligations.NoOwnershipIsTransportError : Prop :=
  ∀ (s : State) (i : Instr), s.own = false → i.format = .wire →
    exec i s = .next ((s.log [.fail]).errorEntry .transport)

/-! ### The sequencer -/

/-- R80: in a "PSE" cell of the matrix the operation raises `ProtocolStateError` before any event and changes nothing;
in an "ok" cell it raises no such error, and on completion leaves the state of the last column [D15, D16]. -/
def Obligations.LegalityMatrix : Prop :=
  ∀ (s : State) (i : Instr), isSequencerOp i = true → s.idle → s.issuer = .foreground →
    (legalIn i s.panelState = false → exec i s = .next { s with err := .protocolState }) ∧
    (legalIn i s.panelState = true → ∀ t, exec i s = .next t →
      t.err ≠ .protocolState ∧ (t.run = false → t.err = .none → t.panelState = stateAfter i s.panelState))

/-- `hardware_reset()` on a good transport: it acquires if needed, toggles the line with a settle on each side, and
changes nothing of the block but `PANEL_STATE`, `FRESH`, `OWN`, `RST` and `TRACE` (R37, R83) [D13]. The transport may fail
the claim of the lines and either write of `RST`: it ends there with `TransportError`, `PANEL_STATE` and `FRESH` as they
were, what happened at the pins not undone (R49, R93, R211, R218; the failed claim: notes/assumptions/14.md). -/
def Obligations.HardwareResetResult : Prop :=
  ∀ s : State, s.run = false →
    let done : State := { s.complete with
      own := true, rst := true, panelState := .uninit, fresh := false
      trace := s.trace ++ acquireEvents s ++ resetToggleEvents s.cfg }
    (s.transportGood → exec .hwreset s = .next done) ∧
    ∀ k ks, s.xferFails = k :: ks →
      let claimed := (acquireEvents s).length
      let failed := fun (own rst : Bool) (es : List Event) => exec .hwreset s = .next { s with
        own := own, rst := rst
        trace := s.trace ++ es ++ [.fail]
        xferFails := ks
        err := .transport, run := false, seqPos := [], cursor := none, saved := none
        stop := if s.issuer = .worker then false else s.stop
        anim := if s.issuer = .worker then false else s.anim }
      (s.own = false → k = 0 → failed false s.rst []) ∧
      (k = claimed → failed true s.rst (acquireEvents s)) ∧
      (k = claimed + 1 →
        failed true false (acquireEvents s ++ [.line .rst false] ++ delayEvents s.cfg.resetSettleMs)) ∧
      (claimed + 2 ≤ k → exec .hwreset s = .next { done with xferFails := (k - (claimed + 2)) :: ks })

/-- `init_fast()` from any state, its poll finding the panel busy `n` times (R84) [D15, D28]: it completes at once on an idle
panel (n = 0), and with nothing scheduled in `n` more steps. -/
def Obligations.InitFastResult : Prop :=
  ∀ (s : State) (n : Nat), s.run = false → s.transportGood → s.busyFor [n] →
    let t : State := { s.complete with
      own := true, dc := Config.dcData, panelState := .fast, fresh := true
      pollElapsed := n * s.cfg.pollIntervalMs, busyIn := s.busyIn.drop (n + 1)
      trace := s.trace ++ acquireEvents s ++ initFastEvents s.cfg n }
    (n = 0 → exec .initfast s = .next t) ∧ (s.host = [] → thenSteps n (exec .initfast s) = .next t)

/-- `init_partial()` from `FAST` or `PARTIAL`, its poll finding the panel busy `n` times (R85) [D28]. -/
def Obligations.InitPartialResult : Prop :=
  ∀ (s : State) (n : Nat), s.run = false → s.own = true → s.panelState = .fast ∨ s.panelState = .partialMode →
    s.transportGood → s.busyFor [n] →
    let t : State := { s.complete with
      dc := Config.dcData, panelState := .partialMode, fresh := true
      pollElapsed := n * s.cfg.pollIntervalMs, busyIn := s.busyIn.drop (n + 1)
      trace := s.trace ++ initPartialEvents s.cfg n }
    (n = 0 → exec .initpart s = .next t) ∧ (s.host = [] → thenSteps n (exec .initpart s) = .next t)

/-- `init_4gray()` from any state, its poll finding the panel busy `n` times: the reset toggle, the nine configuration
commands, the six LUT sub-writes, power on, the poll, in this order (R86, R87, R181 to R194) [D28]. That the sixth
sub-write sends nothing at all where `LUT6_CMD` is "no command" is the model's choice: notes/assumptions/18.md. -/
def Obligations.Init4grayResult : Prop :=
  ∀ (s : State) (n : Nat), s.run = false → s.transportGood → s.busyFor [n] →
    let t : State := { s.complete with
      own := true, rst := true, dc := Config.dcCommand, panelState := .gray4, fresh := false
      pollElapsed := n * s.cfg.pollIntervalMs, busyIn := s.busyIn.drop (n + 1)
      trace := s.trace ++ acquireEvents s ++ init4grayEvents s.cfg n }
    (n = 0 → exec .init4g s = .next t) ∧ (s.host = [] → thenSteps n (exec .init4g s) = .next t)

/-- `sleep()` from any powered state, its poll finding the panel busy `n` times: 0x02, the busy poll, 0x07 with exactly
`[0xA5]`, no further poll (R80, R82, R88, R196, R197). -/
def Obligations.SleepResult : Prop :=
  ∀ (s : State) (n : Nat), s.run = false → s.own = true → s.panelState ∈ [.fast, .full, .partialMode, .gray4] →
    s.transportGood → s.busyFor [n] →
    let t : State := { s.complete with
      dc := Config.dcData, panelState := .sleeping, fresh := false
      pollElapsed := n * s.cfg.pollIntervalMs, busyIn := s.busyIn.drop (n + 1)
      trace := s.trace ++ sleepEvents s.cfg n }
    (n = 0 → exec .sleep s = .next t) ∧ (s.host = [] → thenSteps n (exec .sleep s) = .next t)

/-- `deinit()` from any state, whatever the oracles say: it releases the lines if it holds them, sends nothing and cannot
fail (R89) [D27]; after it every output of the block, data out among them, is high impedance, as none is while
`OWN = 1` (R20; the idle levels of the serial pins: notes/assumptions/20.md). `DC` and `RST` are written by their own
line writes only, and the serial outputs by a byte transfer only: between two of them data out holds its level (R27). -/
def Obligations.DeinitResult : Prop :=
  (∀ s : State, s.run = false →
    let t : State := { s.complete with
      own := false, panelState := .deinit, fresh := false
      trace := s.trace ++ (if s.own then [.release] else []) }
    exec .deinit s = .next t ∧
      t.outputPins = { dc := none, rst := none, cs := none, sclk := none, mosi := none }) ∧
  (∀ s : State, s.own = true →
    s.outputPins.dc = some s.dc ∧ s.outputPins.rst = some s.rst ∧ s.outputPins.cs.isSome = true ∧
      s.outputPins.sclk.isSome = true ∧ s.outputPins.mosi.isSome = true) ∧
  ∀ (s : State) (es : List Event),
    ((∀ v, .line .dc v ∉ es) → (s.log es).outputPins.dc = s.outputPins.dc) ∧
    ((∀ v, .line .rst v ∉ es) → (s.log es).outputPins.rst = s.outputPins.rst) ∧
    ((∀ b, .cmd b ∉ es ∧ .data b ∉ es) → (s.log es).outputPins.cs = s.outputPins.cs ∧
      (s.log es).outputPins.sclk = s.outputPins.sclk ∧ (s.log es).outputPins.mosi = s.outputPins.mosi)

/-- The three transfer operations, the poll finding the panel busy `m` times: they send their two planes after 0x10 and
0x13, then 0x12, then poll, and write no state of the block (R90, R91, R92) [D10]. -/
def Obligations.TransferResults : Prop :=
  ∀ (s : State) (m : Nat), s.run = false → s.own = true → s.transportGood → s.busyFor [m] →
    let sent := fun (i : Instr) (q : Sequence) (a b : List Byte) =>
      let t : State := { s.complete with
        dc := Config.dcCommand, pollElapsed := m * s.cfg.pollIntervalMs, busyIn := s.busyIn.drop (m + 1)
        trace := s.trace ++ transferEvents s.cfg q a b m }
      (m = 0 → exec i s = .next t) ∧ (s.host = [] → thenSteps m (exec i s) = .next t)
    (∀ o n, s.panelState ∈ [.fast, .full, .partialMode] →
      (s.oldValid = true → s.old.readAll s.cfg.plane1Bytes = some o) →
      (s.oldValid = false → o = List.replicate s.cfg.plane1Bytes s.cfg.whiteByte) →
      s.plane1.readAll s.cfg.plane1Bytes = some n → sent .picdisp .picDisplay o n) ∧
    (∀ g, s.panelState = .gray4 → s.plane2.readAll s.cfg.plane2Bytes = some g →
      sent .picdisp4g .picDisplay4g (split4 s.cfg g).1 (split4 s.cfg g).2) ∧
    (s.panelState ∈ [.fast, .full, .partialMode] →
      sent .picclear .picDisplay (List.replicate s.cfg.plane1Bytes s.cfg.whiteByte)
        (List.replicate s.cfg.plane1Bytes s.cfg.whiteByte))

/-- R82: one turn of `await_not_busy()` at a poll of the operation in flight. A read that the transport fails, or one without
ownership, samples nothing: it appends `Fail` and no `Poll` and raises `TransportError`, whatever the line says and whether
or not the ceiling is reached (R49, R216). A read that succeeds and says busy, at or above the ceiling, raises
`PanelTimeoutError`; busy below it the block sleeps one interval, which it counts, and polls again; not busy, it goes on
with the next step [D12]. `SEQ_POS` moves on by one per event (R29, R95 (a); what counts: notes/assumptions/1.md). -/
def Obligations.PollLoopTurn : Prop :=
  ∀ (s : State) (i : Instr) (n : Nat), s.run = true → s.host = [] → s.cursor = some (i, n) → AtPoll i n →
    (∀ ks, s.own = true → s.xferFails = 0 :: ks →
      step s = .next ({ s.log [.fail] with xferFails := ks }.errorEntry .transport)) ∧
    (s.own = false → step s = .next ((s.log [.fail]).errorEntry .transport)) ∧
    ∀ fs, s.own = true → s.letsOneThrough fs →
      (s.panelBusy = true → (∃ c, s.cfg.pollCeilingMs = some c ∧ c ≤ s.pollElapsed) →
        step s = .next ({ s.log [.poll true] with busyIn := s.busyIn.tail, xferFails := fs }.errorEntry
          .panelTimeout)) ∧
      (s.panelBusy = true → (∀ c, s.cfg.pollCeilingMs = some c → s.pollElapsed < c) →
        step s = .next { s with
          trace := s.trace ++ [.poll true] ++ delayEvents s.cfg.pollIntervalMs
          seqPos := advance (1 + (delayEvents s.cfg.pollIntervalMs).length) s.seqPos
          busyIn := s.busyIn.tail
          xferFails := fs
          pollElapsed := s.pollElapsed + s.cfg.pollIntervalMs }) ∧
      (s.panelBusy = false →
        step s = resume { s with
          trace := s.trace ++ [.poll false]
          seqPos := advance 1 s.seqPos
          busyIn := s.busyIn.tail
          xferFails := fs
          cursor := some (i, n + 1) })

/-- R82, R212: with ceiling C and interval I on a panel that stays busy, an await that has slept E milliseconds samples the
line ceil((C − E)/I) + 1 more times, one a step, and then raises `PanelTimeoutError`; so an operation whose first poll
comes with its first await samples it ceil(C/I) + 1 times in all, the first time in the step that issues it (V-SEQ-10)
[D12]. -/
def Obligations.PollCeilingBoundsTheAwait : Prop :=
  (∀ (s : State) (i : Instr) (n c : Nat), s.run = true → s.host = [] → s.own = true → s.transportGood →
    s.stuckBusy → s.cursor = some (i, n) → AtPoll i n → s.cfg.pollCeilingMs = some c → 1 ≤ s.cfg.pollIntervalMs →
    let more := (c - s.pollElapsed + s.cfg.pollIntervalMs - 1) / s.cfg.pollIntervalMs + 1
    ∃ t, Host.Core.run core more s = .next t ∧ t.run = false ∧ t.err = .panelTimeout ∧
      (t.trace.drop s.trace.length).count (.poll true) = more) ∧
  ∀ (s : State) (i : Instr) (c : Nat), i ∈ [.initfast, .initpart, .init4g, .sleep, .picclear] →
    legalIn i s.panelState = true → s.run = false → s.host = [] →
    (i ∈ [.initpart, .sleep, .picclear] → s.own = true) → s.transportGood → s.stuckBusy →
    s.cfg.pollCeilingMs = some c → 1 ≤ s.cfg.pollIntervalMs →
    let later := (c + s.cfg.pollIntervalMs - 1) / s.cfg.pollIntervalMs
    ∃ t, thenSteps later (exec i s) = .next t ∧ t.run = false ∧ t.err = .panelTimeout ∧
      (t.trace.drop s.trace.length).count (.poll true) = later + 1

/-- 93_implementation_defined.md U11: without a ceiling, on a panel that never answers "not busy", the operation never
ends: however many steps are taken, `RUN` stays 1. -/
def Obligations.UnboundedAwaitNeverEnds : Prop :=
  ∀ (s : State) (i : Instr) (n : Nat), s.run = true → s.host = [] → s.own = true → s.transportGood →
    s.stuckBusy → s.cursor = some (i, n) → AtPoll i n → s.cfg.pollCeilingMs = none →
    ∀ k, ∃ t, Host.Core.run core k s = .next t ∧ t.run = true ∧ s.trace <+: t.trace ∧
      k ≤ (t.trace.drop s.trace.length).length

/-! ### The frame encoder -/

/-- R110: the flip takes row y to row H − 1 − y and keeps the columns, and is its own inverse. -/
def Obligations.FlipReversesTheRows : Prop :=
  ∀ (w h : Nat) (f : List Byte), f.length = w * h →
    (∀ x y, x < w → y < h → (flipFrame w h f)[y * w + x]? = f[(h - 1 - y) * w + x]?) ∧
      flipFrame w h (flipFrame w h f) = f

/-- R111, R112: the four buckets by the breakpoints 64, 128, 192, a value equal to one in the upper bucket; values
below 0 in bucket 0; white exactly from 128 on [D7]. R113: the two-bit code is the bucket's number. -/
def Obligations.BucketsByBreakpoint : Prop :=
  ∀ v : F32,
    (v.toInt < 64 * 2 ^ 149 → bucket v = 0#2) ∧
    (64 * 2 ^ 149 ≤ v.toInt → v.toInt < 128 * 2 ^ 149 → bucket v = 1#2) ∧
    (128 * 2 ^ 149 ≤ v.toInt → v.toInt < 192 * 2 ^ 149 → bucket v = 2#2) ∧
    (192 * 2 ^ 149 ≤ v.toInt → bucket v = 3#2) ∧
    (bit1 (bucket v) = true ↔ 128 * 2 ^ 149 ≤ v.toInt) ∧
    (v.toInt < 64 * 2 ^ 149 → code2 (bucket v) = 0b00#2) ∧
    (64 * 2 ^ 149 ≤ v.toInt → v.toInt < 128 * 2 ^ 149 → code2 (bucket v) = 0b01#2) ∧
    (128 * 2 ^ 149 ≤ v.toInt → v.toInt < 192 * 2 ^ 149 → code2 (bucket v) = 0b10#2) ∧
    (192 * 2 ^ 149 ≤ v.toInt → code2 (bucket v) = 0b11#2)

/-- R114, R115: where each pixel lands: bit 7 − (x mod 8) of byte r·STRIDE1 + x div 8; bits 7 − 2(x mod 4) down of byte
r·STRIDE2 + x div 4. -/
def Obligations.PackingPlaces : Prop :=
  ∀ (p : Params) (bits : List Bool) (codes : List Code), bits.length = p.samples → codes.length = p.samples →
    ∀ x r, x < p.w → r < p.h →
      (((pack1 p bits)[r * p.stride1 + x / 8]?).map fun b => b.getLsbD (7 - x % 8)) = bits[r * p.w + x]? ∧
      (((pack2 p codes)[r * p.stride2 + x / 4]?).map fun b => b.extractLsb' (6 - 2 * (x % 4)) 2) =
        codes[r * p.w + x]?

/-- R119: the sizes of the two planes, for every frame; at 240×416, 12,480 and 24,960 bytes. -/
def Obligations.PlaneSizes : Prop :=
  ∀ (p : Params) (f : List Byte) (d : Bool),
    (encode1bit p f d).length = (p.w + 7) / 8 * p.h ∧ (encode4gray p f).length = (p.w + 3) / 4 * p.h ∧
      (p.w = 240 → p.h = 416 → (encode1bit p f d).length = 12480 ∧ (encode4gray p f).length = 24960)

/-- R120: encoding without dithering is idempotent: decoding the plane to 0/255 samples and encoding again gives the
same plane. -/
def Obligations.EncodeOfDecodedPlane : Prop :=
  ∀ (p : Params) (f : List Byte), f.length = p.samples →
    encode1bit p (decodePlane1 p (encode1bit p f false)) false = encode1bit p f false

/-- ENC1, ENC4 and DITHER on a written frame, whatever the oracles and the Panel State: `WORK` takes the flipped frame's
samples as binary32 values, through the engine's pass for ENC4 and for ENC1 where `dither` = 1, the pass being the visits
of the scan one after the other; `PLANE1` takes the packed bits of its buckets, `PLANE2` their packed codes; DITHER is the
pass over the frame as it stands; and nothing else of the block changed, no event (R110, R116 to R118, R122, R131, R136)
[D8, D15, D30]. The updates' own encodings are the same. -/
def Obligations.FrameOperationResults : Prop :=
  let pass := fun (p : Params) (l : List F32) =>
    ((ditherScan p.w p.h).foldl (ditherPixel (numerics p) p.w) l.toArray).toList
  let loaded := fun (p : Params) (f : List Byte) => (flipFrame p.w p.h f).map F32.ofByte
  let work1 := fun (p : Params) (f : List Byte) (d : Bool) => if d then pass p (loaded p f) else loaded p f
  let plane1 := fun (p : Params) (l : List F32) => pack1 p (l.map fun v => bit1 (bucket v))
  let plane2 := fun (p : Params) (l : List F32) => pack2 p (l.map fun v => code2 (bucket v))
  (∀ b : Byte, (F32.ofByte b).toInt = b.toNat * 2 ^ 149) ∧
  (∀ (s : State) (f : List Byte), s.run = false → s.frame.readAll s.cfg.samples = some f →
    (∀ d, exec (.enc1 d) s = .next { s.complete with
      work := Memory.ofList (work1 s.cfg f d), plane1 := Memory.ofList (plane1 s.cfg (work1 s.cfg f d)) }) ∧
    exec .enc4 s = .next { s.complete with
      work := Memory.ofList (pass s.cfg (loaded s.cfg f))
      plane2 := Memory.ofList (plane2 s.cfg (pass s.cfg (loaded s.cfg f))) } ∧
    exec .dither s = .next { s.complete with work := Memory.ofList (pass s.cfg (f.map F32.ofByte)) }) ∧
  ∀ (p : Params) (f : List Byte),
    (∀ d, workOf1 p f d = work1 p f d ∧ encode1bit p f d = plane1 p (work1 p f d)) ∧
    workOf4 p f = pass p (loaded p f) ∧ encode4gray p f = plane2 p (pass p (loaded p f)) ∧
    ∀ (n : Numerics) (l : List F32),
      ditherInPlace n p.w p.h l = ((ditherScan p.w p.h).foldl (ditherPixel n p.w) l.toArray).toList

/-- R36, U1: an operation that reads a buffer of which some element has not been written since reset is a fault of the
model, not a value [D26]: ENC1, ENC4 and DITHER on `FRAME`; UPD1 and UPD4 on it once they come to the encoding, the polls
before it finding the panel busy `ns` times; PICDISP, PICDISP4G and the two data commands on the planes they send; REFLUSH
on `CACHE`. -/
def Obligations.UnwrittenFrameFaults : Prop :=
  ∀ s : State,
    (s.run = false → s.frame.lacks s.cfg.samples →
      (∀ d, exec (.enc1 d) s = .fault (.unwritten .frame)) ∧ exec .enc4 s = .fault (.unwritten .frame) ∧
        exec .dither s = .fault (.unwritten .frame)) ∧
    (∀ ns d, s.run = false → s.frame.lacks s.cfg.samples → s.panelState ≠ .deinit → s.transportGood → s.busyFor ns →
      ns.length = (if s.panelState = .gray4 ∨ s.lastMode = .fourGray then 2
        else if s.panelState = .uninit ∨ s.panelState = .sleeping then 1 else 0) →
      (ns.sum = 0 → exec (.upd1 d) s = .fault (.unwritten .frame)) ∧
        (s.host = [] → thenSteps ns.sum (exec (.upd1 d) s) = .fault (.unwritten .frame))) ∧
    (∀ n, s.run = false → s.frame.lacks s.cfg.samples → s.panelState ≠ .deinit → s.transportGood → s.busyFor [n] →
      (n = 0 → exec .upd4 s = .fault (.unwritten .frame)) ∧
        (s.host = [] → thenSteps n (exec .upd4 s) = .fault (.unwritten .frame))) ∧
    (s.own = true → s.transportGood →
      (s.oldValid = true → s.old.lacks s.cfg.plane1Bytes → exec (.wOldData .pair) s = .fault (.unwritten .old) ∧
        (s.run = false → s.panelState ∈ [.fast, .full, .partialMode] → exec .picdisp s = .fault (.unwritten .old))) ∧
      (s.plane1.lacks s.cfg.plane1Bytes → exec (.wNewData .pair) s = .fault (.unwritten .plane1) ∧
        (s.run = false → s.panelState ∈ [.fast, .full, .partialMode] → s.oldValid = false →
          exec .picdisp s = .fault (.unwritten .plane1))) ∧
      (s.plane2.lacks s.cfg.plane2Bytes → exec (.wOldData .gray) s = .fault (.unwritten .plane2) ∧
        exec (.wNewData .gray) s = .fault (.unwritten .plane2) ∧
        (s.run = false → s.panelState = .gray4 → exec .picdisp4g s = .fault (.unwritten .plane2)))) ∧
    (s.run = false → s.cacheValid = true → s.cache.lacks s.cfg.samples → exec .reflush s = .fault (.unwritten .cache))

/-! ### The dithering engine -/

/-- R132: the visited set is every pixel but column 0, column W−1 and row H−1, each visited once, rows in increasing y
and in a row in increasing x; when `W < 3` or `H < 2` nothing is visited and the buffer comes back unchanged. -/
def Obligations.DitherScanOrder : Prop :=
  ∀ (w h : Nat),
    (∀ x y, (x, y) ∈ ditherScan w h ↔ 1 ≤ x ∧ x + 2 ≤ w ∧ y + 2 ≤ h) ∧
    (ditherScan w h).Pairwise (fun a b => a.2 < b.2 ∨ a.2 = b.2 ∧ a.1 < b.1) ∧
    (w < 3 ∨ h < 2 → ∀ (n : Numerics) (l : List F32), ditherInPlace n w h l = l)

/-- R131, R133, R134, R135, R137: one visit changes five elements: the visited one becomes its level `rint(old/85) × 85`, the
four neighbours get `(err × k) / 16` for k = 7, 3, 5 and 1, every store rounding to binary32, and every other element is
unchanged; whatever the numerics record. -/
def Obligations.DitherVisitDistributesTheError : Prop :=
  ∀ (n : Numerics) (w : Nat) (a : Array F32) (x y : Nat), 1 ≤ x → x + 1 < w → (y + 1) * w + x + 1 < a.size →
    let was := fun i => a.getD i default
    let old := (was (y * w + x)).toExact
    let level := n.mul (n.rint (n.div old (Exact.ofNat 85))) (Exact.ofNat 85)
    let err := n.sub old level
    let share := fun i k => (n.add (was i).toExact (n.div (n.mul err (Exact.ofNat k)) (Exact.ofNat 16))).toF32
    let b := ditherPixel n w a (x, y)
    let at' := fun i => b.getD i default
    at' (y * w + x) = level.toF32 ∧
    at' (y * w + x + 1) = share (y * w + x + 1) 7 ∧
    at' ((y + 1) * w + x - 1) = share ((y + 1) * w + x - 1) 3 ∧
    at' ((y + 1) * w + x) = share ((y + 1) * w + x) 5 ∧
    at' ((y + 1) * w + x + 1) = share ((y + 1) * w + x + 1) 1 ∧
    ∀ i, i ∉ [y * w + x, y * w + x + 1, (y + 1) * w + x - 1, (y + 1) * w + x, (y + 1) * w + x + 1] → at' i = was i

/-- R140: after a pass every visited element is a level, `rint(v/85) × 85` for some binary32 value v, stored in binary32; and
column 0 of row 0 keeps its loaded value. Whatever the numerics record. -/
def Obligations.VisitedElementsAreLevels : Prop :=
  ∀ (n : Numerics) (w h : Nat) (l : List F32), l.length = w * h →
    (∀ x y, 1 ≤ x → x + 2 ≤ w → y + 2 ≤ h → ∃ v : F32, (ditherInPlace n w h l)[y * w + x]? =
      some (n.mul (n.rint (n.div v.toExact (Exact.ofNat 85))) (Exact.ofNat 85)).toF32) ∧
    (ditherInPlace n w h l)[0]? = l[0]?

/-- R12, R133, R137 [D5, D6]: `fadd32`, `fsub32`, `fmul32` and `fdiv32` give the binary32 value nearest the exact result, ties
to even, and so does the store; `rint` gives the nearest integer, ties to even or away from zero as `ROUND_TIE` says; and
on binary32 operands these are the five operations of the numerics record that `DITHER_ARITH` = binary32 chooses.
Magnitudes are counted in units of 2^-149, with no bound on the exponent above (notes/assumptions/11.md). -/
def Obligations.RoundingIsToNearestBinary32 : Prop :=
  (∀ a b : F32,
    (a.add b).IsNearest (a.toInt + b.toInt) 1 ∧ (a.sub b).IsNearest (a.toInt - b.toInt) 1 ∧
      (a.mul b).IsNearest (a.toInt * b.toInt) (2 ^ 149) ∧
      (b.mag ≠ 0 → (a.div b).IsNearest (a.toInt * 2 ^ 149 * b.toInt.sign) b.mag)) ∧
  (∀ v : Exact, 0 < v.den → v.toF32.IsNearest (v.signed * 2 ^ 149) v.den) ∧
  (∀ (t : TieRule) (a : F32), ∃ m : Int, (a.rint t).toInt = m * 2 ^ 149 ∧
    2 * (a.toInt - m * 2 ^ 149).natAbs ≤ 2 ^ 149 ∧
    (2 * (a.toInt - m * 2 ^ 149).natAbs = 2 ^ 149 → match t with
      | .even => m % 2 = 0
      | .away => a.toInt.natAbs < (m * 2 ^ 149).natAbs) ∧
    (a.Representable → (a.rint t).Representable)) ∧
  ∀ (p : Params) (a b : F32), p.arith = .binary32 → a.Representable → b.Representable →
    (numerics p).add a.toExact b.toExact = (a.add b).toExact ∧
      (numerics p).sub a.toExact b.toExact = (a.sub b).toExact ∧
      (numerics p).mul a.toExact b.toExact = (a.mul b).toExact ∧
      (numerics p).div a.toExact b.toExact = (a.div b).toExact ∧
      (numerics p).rint a.toExact = (a.rint p.roundTie).toExact ∧ a.toExact.toF32 = a

/-! ### The refresh controller -/

/-- `update_1bit` on a good transport, in every state that is not `DEINIT` (and in `FULL` only when fresh):
`ensure_1bit()`, the encoding, `init_partial()` where `FRESH = 0`, the transfer of the old plane and the new, the commit
(R151, R152) [D17, D18, D19]. The polls find the panel busy `a` times in an init, `b` times in the clear pair of the
transition from 4-gray, `n` times in the transfer. -/
def Obligations.Update1bitResult : Prop :=
  ∀ (s : State) (f o : List Byte) (d : Bool) (a b n : Nat),
    let gray := s.panelState == .gray4 || s.lastMode == .fourGray
    let down := s.panelState == .uninit || s.panelState == .sleeping
    let plane := encode1bit s.cfg f d
    let white := List.replicate s.cfg.plane1Bytes s.cfg.whiteByte
    let ns := (if gray then [a, b] else if down || !s.fresh then [a] else []) ++ [n]
    s.run = false → s.own = true → s.panelState ≠ .deinit →
    (s.panelState = .full → s.fresh = true ∨ s.lastMode = .fourGray) → s.transportGood → s.busyFor ns →
    s.frame.readAll s.cfg.samples = some f →
    (s.oldValid = true → gray = false → s.old.readAll s.cfg.plane1Bytes = some o) →
    (s.oldValid = false ∨ gray = true → o = white) →
    let t : State := { s.complete with
      work := Memory.ofList (workOf1 s.cfg f d), plane1 := Memory.ofList plane
      old := Memory.ofList plane, oldValid := true
      cache := Memory.ofList f, cacheValid := true
      lastMode := .oneBit d, fresh := false
      panelState := if gray || down then .fast else if s.fresh then s.panelState else .partialMode
      dc := Config.dcCommand
      pollElapsed := n * s.cfg.pollIntervalMs, busyIn := s.busyIn.drop (ns.sum + ns.length)
      trace := s.trace ++
        (if gray then initFastEvents s.cfg a ++ transferEvents s.cfg .picDisplay white white b
          else if down then initFastEvents s.cfg a
          else if s.fresh then []
          else initPartialEvents s.cfg a) ++
        transferEvents s.cfg .picDisplay o plane n }
    (ns.sum = 0 → exec (.upd1 d) s = .next t) ∧ (s.host = [] → thenSteps ns.sum (exec (.upd1 d) s) = .next t)

/-- `update_4bit` on a good transport, in every state but `DEINIT`: `init_4gray()`, the encoding, the transfer of the two
halves, `sleep()`, the commit; the old plane is not touched (R153). The three polls find the panel busy `a`, `b` and `c`
times. That the sixth LUT sub-write sends nothing at all where `LUT6_CMD` is "no command" is the model's choice:
notes/assumptions/18.md. -/
def Obligations.Update4bitResult : Prop :=
  ∀ (s : State) (f : List Byte) (a b c : Nat), s.run = false → s.panelState ≠ .deinit → s.transportGood →
    s.busyFor [a, b, c] → s.frame.readAll s.cfg.samples = some f →
    let t : State := { s.complete with
      work := Memory.ofList (workOf4 s.cfg f), plane2 := Memory.ofList (encode4gray s.cfg f)
      cache := Memory.ofList f, cacheValid := true, lastMode := .fourGray
      panelState := .sleeping, fresh := false, own := true, rst := true, dc := Config.dcData
      pollElapsed := c * s.cfg.pollIntervalMs, busyIn := s.busyIn.drop (a + b + c + 3)
      trace := s.trace ++ acquireEvents s ++ init4grayEvents s.cfg a ++
        transferEvents s.cfg .picDisplay4g (split4 s.cfg (encode4gray s.cfg f)).1
          (split4 s.cfg (encode4gray s.cfg f)).2 b ++
        sleepEvents s.cfg c }
    (a + b + c = 0 → exec .upd4 s = .next t) ∧ (s.host = [] → thenSteps (a + b + c) (exec .upd4 s) = .next t)

/-- `clear(power_off)` on a good transport, in every state but `DEINIT`: `init_fast()` where the panel is not 1-bit powered,
the white pair, `sleep()` if asked, the commit (R155) [D10, D20, D22]. The polls find the panel busy `a` times in the
init, `n` times in the transfer, `c` times in the sleep. -/
def Obligations.ClearResult : Prop :=
  ∀ (s : State) (p : Bool) (a n c : Nat),
    let powered := s.panelState == .fast || s.panelState == .full || s.panelState == .partialMode
    let white := List.replicate s.cfg.plane1Bytes s.cfg.whiteByte
    let ns := (if powered then [] else [a]) ++ [n] ++ (if p then [c] else [])
    s.run = false → s.panelState ≠ .deinit → s.own = true → s.transportGood → s.busyFor ns →
    let t : State := { s.complete with
      oldValid := false
      cache := Memory.ofList (List.replicate s.cfg.samples 0xFF#8), cacheValid := true
      lastMode := .oneBit false
      panelState := if p then .sleeping else if powered then s.panelState else .fast
      fresh := if p then false else if powered then s.fresh else true
      dc := if p then Config.dcData else Config.dcCommand
      pollElapsed := (if p then c else n) * s.cfg.pollIntervalMs, busyIn := s.busyIn.drop (ns.sum + ns.length)
      trace := s.trace ++ (if powered then [] else initFastEvents s.cfg a) ++
        transferEvents s.cfg .picDisplay white white n ++ (if p then sleepEvents s.cfg c else []) }
    (ns.sum = 0 → exec (.clear p) s = .next t) ∧ (s.host = [] → thenSteps ns.sum (exec (.clear p) s) = .next t)

/-- `reflush()`: wherever the update that `LAST_MODE` names, run on the cached frame, ends (completed or with an error) after
`k` more steps, the polls finding the panel busy or not, `reflush()` ends in the same state after as many; with an empty
cache it raises `ProtocolStateError` and sends nothing (R156) [D21]. Further steps are with nothing scheduled. -/
def Obligations.ReflushIsTheUpdateOfTheCache : Prop :=
  ∀ (s : State) (f : List Byte), s.idle → s.issuer = .foreground →
    (s.cacheValid = false → exec .reflush s = .next { s with err := .protocolState }) ∧
    (s.cacheValid = true → s.cache.readAll s.cfg.samples = some f → ∀ k, k = 0 ∨ s.host = [] →
      (∀ d t, s.lastMode = .oneBit d →
        thenSteps k (exec (.upd1 d) { s with frame := Memory.ofList f }) = .next t → t.run = false →
        thenSteps k (exec .reflush s) = .next t) ∧
      (∀ t, s.lastMode = .fourGray →
        thenSteps k (exec .upd4 { s with frame := Memory.ofList f }) = .next t → t.run = false →
        thenSteps k (exec .reflush s) = .next t))

/-- `reflush()` completes: on a good transport, with a valid cache, in every state but `DEINIT` and `FULL`, it ends without an
error, the cached frame in `FRAME` and still in `CACHE` (R156), its polls finding the panel busy `ns` times. -/
def Obligations.ReflushCompletes : Prop :=
  ∀ (s : State) (f : List Byte) (ns : List Nat), s.run = false → s.own = true → s.panelState ≠ .deinit →
    s.panelState ≠ .full → s.transportGood → s.busyFor ns → s.cacheValid = true → s.lastMode ≠ .none →
    ns.length = (if s.lastMode = .fourGray ∨ s.panelState = .gray4 then 3
      else if s.fresh = true ∧ (s.panelState = .fast ∨ s.panelState = .partialMode) then 1 else 2) →
    s.cache.readAll s.cfg.samples = some f →
    (s.oldValid = true → (s.old.readAll s.cfg.plane1Bytes).isSome = true) →
    ∃ t, (ns.sum = 0 → exec .reflush s = .next t) ∧ (s.host = [] → thenSteps ns.sum (exec .reflush s) = .next t) ∧
      t.run = false ∧ t.err = .none ∧ t.frame = Memory.ofList f ∧
      t.cache = Memory.ofList f ∧ t.cacheValid = true ∧ t.lastMode = s.lastMode

/-- R160: `clear()`, with or without power-off, followed by `reflush()` shows a blank frame, not the cache of before the
clear: the reflush runs the undithered 1-bit update on the all-255 frame, and the one pair it sends is all white; however
many steps each takes, its polls finding the panel busy or not. (At every width without pad bits, the native one among
them; further steps are with nothing scheduled.) -/
def Obligations.ClearThenReflushIsBlank : Prop :=
  ∀ (s t u : State) (p : Bool) (j k : Nat), s.run = false → s.cfg.w % 8 = 0 → s.cfg.whiteByte = 0xFF#8 →
    j + k = 0 ∨ s.host = [] →
    thenSteps j (exec (.clear p) s) = .next t → t.run = false → t.err = .none →
    thenSteps k (exec .reflush t) = .next u → u.run = false → u.err = .none →
    u.frame = Memory.ofList (List.replicate s.cfg.samples 0xFF#8) ∧
    u.cache = Memory.ofList (List.replicate s.cfg.samples 0xFF#8) ∧ u.lastMode = .oneBit false ∧
    ∃ hd tl, wireBytes u.trace = wireBytes t.trace ++ hd ++
        encodeStream [(0x10#8, List.replicate s.cfg.plane1Bytes 0xFF#8),
          (0x13#8, List.replicate s.cfg.plane1Bytes 0xFF#8)] ++ tl ∧
      ∀ e ∈ hd ++ tl, e ≠ (false, 0x10#8) ∧ e ≠ (false, 0x13#8)

/-- R151, R153, R155, R213: in `DEINIT` the two updates and `clear` raise `ProtocolStateError`; nothing is sent and
nothing else changes [D17]. In `FULL`, which no run reaches, an update that needs `init_partial()` raises it after the
encoding. -/
def Obligations.ControllerStateErrors : Prop :=
  (∀ (s : State) (i : Instr), i ∈ [.upd1 true, .upd1 false, .upd4, .clear true, .clear false] → s.idle →
    s.issuer = .foreground → s.panelState = .deinit → exec i s = .next { s with err := .protocolState }) ∧
  ∀ (s : State) (f : List Byte) (d : Bool), s.idle → s.issuer = .foreground → s.panelState = .full → s.fresh = false →
    s.lastMode ≠ .fourGray → s.frame.readAll s.cfg.samples = some f →
    exec (.upd1 d) s = .next { s with
      err := .protocolState
      work := Memory.ofList (workOf1 s.cfg f d), plane1 := Memory.ofList (encode1bit s.cfg f d) }

/-- R24, R157, R158: the start of an animation sets `ANIM` and nothing else (at once, whatever `RUN` is: the model's choice,
notes/assumptions/15.md). A turn of the worker that finds `STOP = 1` issues
no update and ends the loop; one that finds `STOP = 0` writes its frame and runs `update_1bit(FRAME, false)`; while that
is in flight the worker waits for it. A foreground blocked in its call, and one in the join of `stop_animation()`, lets
the operation in flight go on and is released by `RUN = 0` and by `ANIM = 0`; in the join the worker, which alone is
left to move, sees `STOP` at the top of its loop. [D32; the schedule: notes/assumptions/15.md] -/
def Obligations.AnimationTurn : Prop :=
  (∀ (s : State) (rest : List HostMove), s.host = .startAnim :: rest →
    step s = .next { s with host := rest, anim := true }) ∧
  (∀ (s : State) (f : List Byte) (rest : List HostMove), s.host = .animTurn f :: rest → s.anim = true →
    (s.run = false → s.stop = true → step s = .next { s with host := rest, stop := false, anim := false }) ∧
    (s.run = false → s.stop = false → f.length = s.cfg.samples → s.cfg.native = true →
      step s = exec (.upd1 false) { s with host := rest, frame := Memory.ofList f, issuer := .worker }) ∧
    (s.run = true → s.issuer = .worker → step s = resume { s with host := rest })) ∧
  (∀ (s : State) (rest : List HostMove), s.host = .awaitRun :: rest →
    (s.run = true → step s = resume s) ∧ (s.run = false → step s = .next { s with host := rest })) ∧
  ∀ (s : State) (rest : List HostMove), s.host = .awaitAnim :: rest →
    (s.anim = false → step s = .next { s with host := rest }) ∧
    (s.anim = true → s.run = true → step s = resume s) ∧
    (s.anim = true → s.run = false → s.stop = true → step s = .next { s with stop := false, anim := false }) ∧
    (s.anim = true → s.run = false → s.stop = false → step s = .next s)

/-- R218: when an update issued by the animation worker ends with an error, the loop ends with it [D32]: in the step that
issues it, and in every later step in which it is in flight. -/
def Obligations.FailedAnimationUpdateEndsTheLoop : Prop :=
  (∀ s t : State, s.issuer = .worker → s.run = false → exec (.upd1 false) s = .next t → t.run = false →
    t.err ≠ .none → t.anim = false ∧ t.stop = false) ∧
  ∀ s t : State, s.issuer = .worker → s.run = true → (∀ rest, s.host ≠ .reset :: rest) → step s = .next t →
    t.run = false → t.err ≠ .none → t.anim = false ∧ t.stop = false

/-! ### Errors -/

/-- R93, R159, R215: a host operation that raises leaves `PANEL_STATE`, `FRESH`, `OLD`, `OLD_VALID`, `CACHE`,
`CACHE_VALID` and `LAST_MODE` at their values at acceptance, whichever of its inner operations completed; while it is
in flight those values are kept [D23]. -/
def Obligations.ErrorRollsBack : Prop :=
  ∀ (s t : State) (i : Instr), i.format = .host → s.run = false → exec i s = .next t →
    (t.run = true → t.saved = some s.snapshot) ∧
    (t.run = false → t.err ≠ .none → t.snapshot = s.snapshot ∧ t.seqPos = [])

/-- R215, over the steps of an operation in flight: they keep the values at acceptance, and an error brings them back. -/
def Obligations.ErrorRollsBackInFlight : Prop :=
  ∀ (s t : State) (v : Saved), s.run = true → s.saved = some v → (∀ rest, s.host ≠ .reset :: rest) →
    step s = .next t →
    (t.run = true → t.saved = some v) ∧ (t.run = false → t.err ≠ .none → t.snapshot = v)

/-- R211, R213: `deinit`, the encoders and DITHER raise nothing; the transport can fail none of them. -/
def Obligations.QuietOperationsRaiseNothing : Prop :=
  ∀ (s t : State) (i : Instr), i ∈ [.deinit, .enc1 true, .enc1 false, .enc4, .dither] → s.run = false →
    exec i s = .next t → t.err = .none ∧ t.run = false ∧ t.xferFails = s.xferFails ∧ t.busyIn = s.busyIn

/-- R212: no step makes `ERR` `PanelTimeoutError` when `POLL_CEILING_MS = none`. -/
def Obligations.NoTimeoutWithoutCeiling : Prop :=
  ∀ s t : State, s.cfg.pollCeilingMs = none → s.err ≠ .panelTimeout → step s = .next t → t.err ≠ .panelTimeout

/-- R210: the place of a transport error is the last event of the trace, a `Fail`; of a time-out, the last `Poll(true)`: of
an operation that ends in the step that issues it, and of one in flight that ends in a later step. R49, R211: the transport
can fail every claim of the lines, line write, byte transfer and busy read: of any instruction and of any step, where it
lets `k` of them through and fails the next, the events before that one have happened as on a good transport, then comes
`Fail`, and the operation has ended with `TransportError`. -/
def Obligations.ErrorPlaceIsTheLastEvent : Prop :=
  let placed := fun t : State => (t.err = .transport → t.trace.getLast? = some .fail) ∧
    (t.err = .panelTimeout → t.trace.getLast? = some (.poll true))
  (∀ (s t : State) (i : Instr), i.format = .host → s.run = false → exec i s = .next t → t.run = false → placed t) ∧
  (∀ s t : State, s.run = true → (∀ rest, s.host ≠ .reset :: rest) → step s = .next t → t.run = false → placed t) ∧
  ∀ (s t : State) (k : Nat) (ks : List Nat), s.transportGood →
    let events := t.trace.drop s.trace.length
    let cut := fun u : State => u.run = false ∧ u.err = .transport ∧ s.CutAt u events k ks
    k < fallibleIn events →
    (∀ i, exec i s = .next t → ∃ u, exec i { s with xferFails := k :: ks } = .next u ∧ cut u) ∧
    ((∀ rest, s.host ≠ .reset :: rest) → step s = .next t →
      ∃ u, step { s with xferFails := k :: ks } = .next u ∧ cut u)

/-! ### The whole machine -/

/-- The machine's invariant holds at reset. -/
def Obligations.InvariantAtReset : Prop := State.reset.Inv

/-- Every step keeps the machine's invariant. -/
def Obligations.StepKeepsInvariant : Prop := ∀ s t : State, s.Inv → step s = .next t → t.Inv

/-- R73: the block never sends a command byte outside its 22 and `LUT6_CMD`: every step keeps the trace clean. -/
def Obligations.OnlyItsCommandBytesAreSent : Prop :=
  ∀ s t : State, s.wireClean → step s = .next t → t.wireClean

/-- R20, R89: a block that does not hold its lines is in `DEINIT` with no operation in flight: every step from a state
that meets the machine's invariant keeps it. -/
def Obligations.LinesReleasedOnlyInDeinit : Prop :=
  ∀ s t : State, s.Inv → (s.own = false → s.panelState = .deinit ∧ s.run = false) → step s = .next t →
    (t.own = false → t.panelState = .deinit ∧ t.run = false)

/-- R55: no step but the block's reset takes an event back. That no step at all changes a parameter is the choice of
notes/assumptions/5.md and 16.md: the spec fixes the parameters while `RUN = 1` and says no more of the rest. -/
def Obligations.TraceOnlyGrows : Prop :=
  ∀ s t : State, step s = .next t → t.cfg = s.cfg ∧ ((∀ rest, s.host ≠ .reset :: rest) → s.trace <+: t.trace)

/-- R31: who writes what. An operation that is not named in a line leaves that line's state as it was: from rest, in the
step that issues it, whatever the oracles answer; and in every later step in which it is in flight, where a step that ends
it with an error brings the bookkeeping back to the values at acceptance instead (R93, R159, R215). -/
def Obligations.WhoWritesWhat : Prop :=
  let kept := fun (i : Instr) (s t : State) =>
    (i ≠ .reflush → t.frame = s.frame) ∧
    (i ∉ [.enc1 true, .enc1 false, .enc4, .dither, .upd1 true, .upd1 false, .upd4, .reflush] → t.work = s.work) ∧
    (i ∉ [.enc1 true, .enc1 false, .upd1 true, .upd1 false, .reflush] → t.plane1 = s.plane1) ∧
    (i ∉ [.enc4, .upd4, .reflush] → t.plane2 = s.plane2) ∧
    (i ∈ [.picdisp, .picdisp4g, .picclear, .enc1 true, .enc1 false, .enc4, .dither] ∨ i.format = .wire →
      t.own = s.own ∧ t.rst = s.rst)
  let booksKept := fun (i : Instr) (s t : State) =>
    (i ∉ [.upd1 true, .upd1 false, .reflush] → t.old = s.old) ∧
    (i ∉ [.upd1 true, .upd1 false, .clear true, .clear false, .reflush] → t.oldValid = s.oldValid) ∧
    (i ∉ [.upd1 true, .upd1 false, .upd4, .clear true, .clear false, .reflush] →
      t.cache = s.cache ∧ t.cacheValid = s.cacheValid ∧ t.lastMode = s.lastMode) ∧
    (i ∈ [.picdisp, .picdisp4g, .picclear, .enc1 true, .enc1 false, .enc4, .dither] ∨ i.format = .wire →
      t.panelState = s.panelState ∧ t.fresh = s.fresh)
  (∀ (s t : State) (i : Instr), s.run = false → s.saved = none → exec i s = .next t → kept i s t ∧ booksKept i s t) ∧
  ∀ (s t : State) (i : Instr) (n : Nat) (v : Saved), s.run = true → s.cursor = some (i, n) → s.saved = some v →
    (∀ rest, s.host ≠ .reset :: rest) → step s = .next t →
    kept i s t ∧ (t.run = true ∨ t.err = .none → booksKept i s t) ∧
      (t.run = false → t.err ≠ .none → t.snapshot = v)
end

