-- ==== Sys2Proof/Laws/Encoder.lean ====
section
/-! SUPPORT. The sizes of what the encoder and the dithering engine make, the default split on packed codes, and the
serial waveform. -/

namespace Sys2Proof

theorem length_rowsOf {α : Type} (w h : Nat) (l : List α) : (rowsOf w h l).length = h := by
  induction h generalizing l with
  | zero => rfl
  | succ h ih => simp [rowsOf, ih]

/-- The rows of a row-major list, put together again, are the list. -/
theorem flatten_rowsOf {α : Type} (w h : Nat) (l : List α) (hl : l.length = w * h) : (rowsOf w h l).flatten = l := by
  induction h generalizing l with
  | zero => simpa [rowsOf] using (List.length_eq_zero_iff.1 (by simpa using hl)).symm
  | succ h ih =>
    rw [rowsOf, List.flatten_cons, ih _ (by rw [List.length_drop, hl, Nat.mul_succ]; omega), List.take_append_drop]

/-- Each row has the row's width. -/
theorem length_of_mem_rowsOf {α : Type} (w h : Nat) (l : List α) (hl : l.length = w * h) :
    ∀ r ∈ rowsOf w h l, r.length = w := by
  induction h generalizing l with
  | zero => simp [rowsOf]
  | succ h ih =>
    intro r hr
    rcases List.mem_cons.1 hr with rfl | hr
    · rw [List.length_take, hl, Nat.mul_succ]; omega
    · exact ih (l.drop w) (by rw [List.length_drop, hl, Nat.mul_succ]; omega) r hr

/-- Lists of equal length put together have the product's length. -/
theorem length_flatten_of_rows {α : Type} (w : Nat) (ls : List (List α)) (h : ∀ r ∈ ls, r.length = w) :
    ls.flatten.length = w * ls.length := by
  induction ls with
  | nil => simp
  | cons a ls ih =>
    rw [List.flatten_cons, List.length_append, h a (by simp), ih fun r hr => h r (List.mem_cons_of_mem a hr),
      List.length_cons, Nat.mul_succ, Nat.add_comm]

theorem length_flipFrame {α : Type} (w h : Nat) (l : List α) (hl : l.length = w * h) :
    (flipFrame w h l).length = w * h := by
  have := length_flatten_of_rows w (rowsOf w h l).reverse fun r hr =>
    length_of_mem_rowsOf w h l hl r (List.mem_reverse.1 hr)
  simpa [flipFrame, length_rowsOf] using this

@[simp] theorem length_packRow1 (pad : Bool) (n : Nat) (bits : List Bool) : (packRow1 pad n bits).length = n := by
  induction n generalizing bits with
  | zero => rfl
  | succ n ih => simp [packRow1, ih]

@[simp] theorem length_packRow2 (pad : Bool) (n : Nat) (codes : List Code) : (packRow2 pad n codes).length = n := by
  induction n generalizing codes with
  | zero => rfl
  | succ n ih => simp [packRow2, ih]

/-- The size of a packed 1-bit plane, whatever is packed. -/
@[simp] theorem length_pack1 (p : Params) (bits : List Bool) : (pack1 p bits).length = p.plane1Bytes := by
  simp [pack1, Params.plane1Bytes, List.length_flatMap, length_rowsOf, Nat.mul_comm]

/-- The size of a packed 2-bit plane. -/
@[simp] theorem length_pack2 (p : Params) (codes : List Code) : (pack2 p codes).length = p.plane2Bytes := by
  simp [pack2, Params.plane2Bytes, List.length_flatMap, length_rowsOf, Nat.mul_comm]

@[simp] theorem size_ditherAdd (n : Numerics) (a : Array F32) (i : Nat) (t : Exact) :
    (ditherAdd n a i t).size = a.size := by simp [ditherAdd]

@[simp] theorem size_ditherPixel (n : Numerics) (w : Nat) (a : Array F32) (p : Nat × Nat) :
    (ditherPixel n w a p).size = a.size := by simp [ditherPixel]

/-- A pass keeps the buffer's size. -/
@[simp] theorem length_ditherInPlace (n : Numerics) (w h : Nat) (l : List F32) : (ditherInPlace n w h l).length = l.length := by
  have : ∀ (ps : List (Nat × Nat)) (a : Array F32), (ps.foldl (ditherPixel n w) a).size = a.size := by
    intro ps
    induction ps with
    | nil => intro a; rfl
    | cons p ps ih => intro a; simp [ih]
  simp [ditherInPlace, this]

theorem length_workOf1 (p : Params) (f : List Byte) (d : Bool) (hf : f.length = p.samples) :
    (workOf1 p f d).length = p.samples := by
  have := length_flipFrame p.w p.h f hf
  cases d <;> simp [workOf1, ditherWork, loadFlipped, this, Params.samples]

theorem length_workOf4 (p : Params) (f : List Byte) (hf : f.length = p.samples) : (workOf4 p f).length = p.samples := by
  have := length_flipFrame p.w p.h f hf
  simp [workOf4, ditherWork, loadFlipped, this, Params.samples]

theorem length_workOfDither (p : Params) (f : List Byte) (hf : f.length = p.samples) :
    (workOfDither p f).length = p.samples := by
  simp [workOfDither, ditherWork, hf]

/-! ### The serial waveform (R50) -/

open Machine in
/-- What the panel samples over one bit. -/
theorem risingEdges_bitWave (b : Bool) (ps : List SerialSample) (prev : Bool) :
    risingEdges prev (bitWave b ++ ps) = b :: risingEdges true ps := by
  cases prev <;> simp [bitWave, risingEdges]

open Machine in
/-- The wave of a call carries every bit of its bytes, most significant bit first. -/
theorem risingEdges_callWave (bs : List Byte) (prev : Bool) :
    risingEdges prev (callWave bs) = bs.flatMap bitsOfByte := by
  have bits : ∀ (l : List Bool) (ps : List SerialSample) (prev : Bool), l ≠ [] →
      risingEdges prev (l.flatMap bitWave ++ ps) = l ++ risingEdges true ps := by
    intro l
    induction l with
    | nil => intro ps prev h; exact absurd rfl h
    | cons b l ih =>
      intro ps prev _
      rw [List.flatMap_cons, List.append_assoc, risingEdges_bitWave]
      cases l with
      | nil => simp
      | cons c l => rw [ih ps true (by simp)]; rfl
  induction bs generalizing prev with
  | nil => cases prev <;> rfl
  | cons b bs ih =>
    have hne : bitsOfByte b ≠ [] := by simp [bitsOfByte]
    rw [callWave, List.flatMap_cons, List.append_assoc, byteWave, bits _ _ _ hne]
    exact congrArg (bitsOfByte b ++ ·) (ih true)

end Sys2Proof
end

