-- ==== Sys2Proof/Laws/State.lean ====
section
/-! SUPPORT. Each field after each named update of the state. -/

namespace Sys2Proof.Machine

/-! ### `State.log` -/

@[simp] theorem State.log_cfg (s : State) (es : List Event) :
    (s.log es).cfg = s.cfg := rfl
@[simp] theorem State.log_frame (s : State) (es : List Event) :
    (s.log es).frame = s.frame := rfl
@[simp] theorem State.log_work (s : State) (es : List Event) :
    (s.log es).work = s.work := rfl
@[simp] theorem State.log_plane1 (s : State) (es : List Event) :
    (s.log es).plane1 = s.plane1 := rfl
@[simp] theorem State.log_plane2 (s : State) (es : List Event) :
    (s.log es).plane2 = s.plane2 := rfl
@[simp] theorem State.log_old (s : State) (es : List Event) :
    (s.log es).old = s.old := rfl
@[simp] theorem State.log_oldValid (s : State) (es : List Event) :
    (s.log es).oldValid = s.oldValid := rfl
@[simp] theorem State.log_cache (s : State) (es : List Event) :
    (s.log es).cache = s.cache := rfl
@[simp] theorem State.log_cacheValid (s : State) (es : List Event) :
    (s.log es).cacheValid = s.cacheValid := rfl
@[simp] theorem State.log_lastMode (s : State) (es : List Event) :
    (s.log es).lastMode = s.lastMode := rfl
@[simp] theorem State.log_panelState (s : State) (es : List Event) :
    (s.log es).panelState = s.panelState := rfl
@[simp] theorem State.log_fresh (s : State) (es : List Event) :
    (s.log es).fresh = s.fresh := rfl
@[simp] theorem State.log_own (s : State) (es : List Event) :
    (s.log es).own = s.own := rfl
@[simp] theorem State.log_run (s : State) (es : List Event) :
    (s.log es).run = s.run := rfl
@[simp] theorem State.log_err (s : State) (es : List Event) :
    (s.log es).err = s.err := rfl
@[simp] theorem State.log_stop (s : State) (es : List Event) :
    (s.log es).stop = s.stop := rfl
@[simp] theorem State.log_anim (s : State) (es : List Event) :
    (s.log es).anim = s.anim := rfl
@[simp] theorem State.log_dc (s : State) (es : List Event) :
    (s.log es).dc = levelAfter .dc es s.dc := rfl
@[simp] theorem State.log_rst (s : State) (es : List Event) :
    (s.log es).rst = levelAfter .rst es s.rst := rfl
@[simp] theorem State.log_seqPos (s : State) (es : List Event) :
    (s.log es).seqPos = advance es.length s.seqPos := rfl
@[simp] theorem State.log_cursor (s : State) (es : List Event) :
    (s.log es).cursor = s.cursor := rfl
@[simp] theorem State.log_pollElapsed (s : State) (es : List Event) :
    (s.log es).pollElapsed = s.pollElapsed := rfl
@[simp] theorem State.log_trace (s : State) (es : List Event) :
    (s.log es).trace = s.trace ++ es := rfl
@[simp] theorem State.log_saved (s : State) (es : List Event) :
    (s.log es).saved = s.saved := rfl
@[simp] theorem State.log_issuer (s : State) (es : List Event) :
    (s.log es).issuer = s.issuer := rfl
@[simp] theorem State.log_host (s : State) (es : List Event) :
    (s.log es).host = s.host := rfl
@[simp] theorem State.log_busyIn (s : State) (es : List Event) :
    (s.log es).busyIn = s.busyIn := rfl
@[simp] theorem State.log_busyRest (s : State) (es : List Event) :
    (s.log es).busyRest = s.busyRest := rfl
@[simp] theorem State.log_xferFails (s : State) (es : List Event) :
    (s.log es).xferFails = s.xferFails := rfl

/-! ### `State.accept` -/

@[simp] theorem State.accept_cfg (s : State) (i : Instr) :
    (s.accept i).cfg = s.cfg := rfl
@[simp] theorem State.accept_frame (s : State) (i : Instr) :
    (s.accept i).frame = s.frame := rfl
@[simp] theorem State.accept_work (s : State) (i : Instr) :
    (s.accept i).work = s.work := rfl
@[simp] theorem State.accept_plane1 (s : State) (i : Instr) :
    (s.accept i).plane1 = s.plane1 := rfl
@[simp] theorem State.accept_plane2 (s : State) (i : Instr) :
    (s.accept i).plane2 = s.plane2 := rfl
@[simp] theorem State.accept_old (s : State) (i : Instr) :
    (s.accept i).old = s.old := rfl
@[simp] theorem State.accept_oldValid (s : State) (i : Instr) :
    (s.accept i).oldValid = s.oldValid := rfl
@[simp] theorem State.accept_cache (s : State) (i : Instr) :
    (s.accept i).cache = s.cache := rfl
@[simp] theorem State.accept_cacheValid (s : State) (i : Instr) :
    (s.accept i).cacheValid = s.cacheValid := rfl
@[simp] theorem State.accept_lastMode (s : State) (i : Instr) :
    (s.accept i).lastMode = s.lastMode := rfl
@[simp] theorem State.accept_panelState (s : State) (i : Instr) :
    (s.accept i).panelState = s.panelState := rfl
@[simp] theorem State.accept_fresh (s : State) (i : Instr) :
    (s.accept i).fresh = s.fresh := rfl
@[simp] theorem State.accept_own (s : State) (i : Instr) :
    (s.accept i).own = s.own := rfl
@[simp] theorem State.accept_run (s : State) (i : Instr) :
    (s.accept i).run = true := rfl
@[simp] theorem State.accept_err (s : State) (i : Instr) :
    (s.accept i).err = .none := rfl
@[simp] theorem State.accept_stop (s : State) (i : Instr) :
    (s.accept i).stop = s.stop := rfl
@[simp] theorem State.accept_anim (s : State) (i : Instr) :
    (s.accept i).anim = s.anim := rfl
@[simp] theorem State.accept_dc (s : State) (i : Instr) :
    (s.accept i).dc = s.dc := rfl
@[simp] theorem State.accept_rst (s : State) (i : Instr) :
    (s.accept i).rst = s.rst := rfl
@[simp] theorem State.accept_seqPos (s : State) (i : Instr) :
    (s.accept i).seqPos = [(.word i, 0)] := rfl
@[simp] theorem State.accept_cursor (s : State) (i : Instr) :
    (s.accept i).cursor = some (i, 0) := rfl
@[simp] theorem State.accept_pollElapsed (s : State) (i : Instr) :
    (s.accept i).pollElapsed = s.pollElapsed := rfl
@[simp] theorem State.accept_trace (s : State) (i : Instr) :
    (s.accept i).trace = s.trace := rfl
@[simp] theorem State.accept_saved (s : State) (i : Instr) :
    (s.accept i).saved = some s.snapshot := rfl
@[simp] theorem State.accept_issuer (s : State) (i : Instr) :
    (s.accept i).issuer = s.issuer := rfl
@[simp] theorem State.accept_host (s : State) (i : Instr) :
    (s.accept i).host = s.host := rfl
@[simp] theorem State.accept_busyIn (s : State) (i : Instr) :
    (s.accept i).busyIn = s.busyIn := rfl
@[simp] theorem State.accept_busyRest (s : State) (i : Instr) :
    (s.accept i).busyRest = s.busyRest := rfl
@[simp] theorem State.accept_xferFails (s : State) (i : Instr) :
    (s.accept i).xferFails = s.xferFails := rfl

/-! ### `State.complete` -/

@[simp] theorem State.complete_cfg (s : State) :
    (s.complete).cfg = s.cfg := rfl
@[simp] theorem State.complete_frame (s : State) :
    (s.complete).frame = s.frame := rfl
@[simp] theorem State.complete_work (s : State) :
    (s.complete).work = s.work := rfl
@[simp] theorem State.complete_plane1 (s : State) :
    (s.complete).plane1 = s.plane1 := rfl
@[simp] theorem State.complete_plane2 (s : State) :
    (s.complete).plane2 = s.plane2 := rfl
@[simp] theorem State.complete_old (s : State) :
    (s.complete).old = s.old := rfl
@[simp] theorem State.complete_oldValid (s : State) :
    (s.complete).oldValid = s.oldValid := rfl
@[simp] theorem State.complete_cache (s : State) :
    (s.complete).cache = s.cache := rfl
@[simp] theorem State.complete_cacheValid (s : State) :
    (s.complete).cacheValid = s.cacheValid := rfl
@[simp] theorem State.complete_lastMode (s : State) :
    (s.complete).lastMode = s.lastMode := rfl
@[simp] theorem State.complete_panelState (s : State) :
    (s.complete).panelState = s.panelState := rfl
@[simp] theorem State.complete_fresh (s : State) :
    (s.complete).fresh = s.fresh := rfl
@[simp] theorem State.complete_own (s : State) :
    (s.complete).own = s.own := rfl
@[simp] theorem State.complete_run (s : State) :
    (s.complete).run = false := rfl
@[simp] theorem State.complete_err (s : State) :
    (s.complete).err = .none := rfl
@[simp] theorem State.complete_stop (s : State) :
    (s.complete).stop = s.stop := rfl
@[simp] theorem State.complete_anim (s : State) :
    (s.complete).anim = s.anim := rfl
@[simp] theorem State.complete_dc (s : State) :
    (s.complete).dc = s.dc := rfl
@[simp] theorem State.complete_rst (s : State) :
    (s.complete).rst = s.rst := rfl
@[simp] theorem State.complete_seqPos (s : State) :
    (s.complete).seqPos = [] := rfl
@[simp] theorem State.complete_cursor (s : State) :
    (s.complete).cursor = none := rfl
@[simp] theorem State.complete_pollElapsed (s : State) :
    (s.complete).pollElapsed = s.pollElapsed := rfl
@[simp] theorem State.complete_trace (s : State) :
    (s.complete).trace = s.trace := rfl
@[simp] theorem State.complete_saved (s : State) :
    (s.complete).saved = none := rfl
@[simp] theorem State.complete_issuer (s : State) :
    (s.complete).issuer = s.issuer := rfl
@[simp] theorem State.complete_host (s : State) :
    (s.complete).host = s.host := rfl
@[simp] theorem State.complete_busyIn (s : State) :
    (s.complete).busyIn = s.busyIn := rfl
@[simp] theorem State.complete_busyRest (s : State) :
    (s.complete).busyRest = s.busyRest := rfl
@[simp] theorem State.complete_xferFails (s : State) :
    (s.complete).xferFails = s.xferFails := rfl

/-! ### `State.restore` -/

@[simp] theorem State.restore_cfg (s : State) (v : Option Saved) :
    (s.restore v).cfg = s.cfg := by cases v <;> rfl
@[simp] theorem State.restore_frame (s : State) (v : Option Saved) :
    (s.restore v).frame = s.frame := by cases v <;> rfl
@[simp] theorem State.restore_work (s : State) (v : Option Saved) :
    (s.restore v).work = s.work := by cases v <;> rfl
@[simp] theorem State.restore_plane1 (s : State) (v : Option Saved) :
    (s.restore v).plane1 = s.plane1 := by cases v <;> rfl
@[simp] theorem State.restore_plane2 (s : State) (v : Option Saved) :
    (s.restore v).plane2 = s.plane2 := by cases v <;> rfl
@[simp] theorem State.restore_own (s : State) (v : Option Saved) :
    (s.restore v).own = s.own := by cases v <;> rfl
@[simp] theorem State.restore_run (s : State) (v : Option Saved) :
    (s.restore v).run = s.run := by cases v <;> rfl
@[simp] theorem State.restore_err (s : State) (v : Option Saved) :
    (s.restore v).err = s.err := by cases v <;> rfl
@[simp] theorem State.restore_stop (s : State) (v : Option Saved) :
    (s.restore v).stop = s.stop := by cases v <;> rfl
@[simp] theorem State.restore_anim (s : State) (v : Option Saved) :
    (s.restore v).anim = s.anim := by cases v <;> rfl
@[simp] theorem State.restore_dc (s : State) (v : Option Saved) :
    (s.restore v).dc = s.dc := by cases v <;> rfl
@[simp] theorem State.restore_rst (s : State) (v : Option Saved) :
    (s.restore v).rst = s.rst := by cases v <;> rfl
@[simp] theorem State.restore_seqPos (s : State) (v : Option Saved) :
    (s.restore v).seqPos = s.seqPos := by cases v <;> rfl
@[simp] theorem State.restore_cursor (s : State) (v : Option Saved) :
    (s.restore v).cursor = s.cursor := by cases v <;> rfl
@[simp] theorem State.restore_pollElapsed (s : State) (v : Option Saved) :
    (s.restore v).pollElapsed = s.pollElapsed := by cases v <;> rfl
@[simp] theorem State.restore_trace (s : State) (v : Option Saved) :
    (s.restore v).trace = s.trace := by cases v <;> rfl
@[simp] theorem State.restore_saved (s : State) (v : Option Saved) :
    (s.restore v).saved = s.saved := by cases v <;> rfl
@[simp] theorem State.restore_issuer (s : State) (v : Option Saved) :
    (s.restore v).issuer = s.issuer := by cases v <;> rfl
@[simp] theorem State.restore_host (s : State) (v : Option Saved) :
    (s.restore v).host = s.host := by cases v <;> rfl
@[simp] theorem State.restore_busyIn (s : State) (v : Option Saved) :
    (s.restore v).busyIn = s.busyIn := by cases v <;> rfl
@[simp] theorem State.restore_busyRest (s : State) (v : Option Saved) :
    (s.restore v).busyRest = s.busyRest := by cases v <;> rfl
@[simp] theorem State.restore_xferFails (s : State) (v : Option Saved) :
    (s.restore v).xferFails = s.xferFails := by cases v <;> rfl

@[simp] theorem State.restore_some_panelState (s : State) (v : Saved) :
    (s.restore (some v)).panelState = v.panelState := rfl
@[simp] theorem State.snapshot_panelState (s : State) : s.snapshot.panelState = s.panelState := rfl
@[simp] theorem State.restore_some_fresh (s : State) (v : Saved) :
    (s.restore (some v)).fresh = v.fresh := rfl
@[simp] theorem State.snapshot_fresh (s : State) : s.snapshot.fresh = s.fresh := rfl
@[simp] theorem State.restore_some_old (s : State) (v : Saved) :
    (s.restore (some v)).old = v.old := rfl
@[simp] theorem State.snapshot_old (s : State) : s.snapshot.old = s.old := rfl
@[simp] theorem State.restore_some_oldValid (s : State) (v : Saved) :
    (s.restore (some v)).oldValid = v.oldValid := rfl
@[simp] theorem State.snapshot_oldValid (s : State) : s.snapshot.oldValid = s.oldValid := rfl
@[simp] theorem State.restore_some_cache (s : State) (v : Saved) :
    (s.restore (some v)).cache = v.cache := rfl
@[simp] theorem State.snapshot_cache (s : State) : s.snapshot.cache = s.cache := rfl
@[simp] theorem State.restore_some_cacheValid (s : State) (v : Saved) :
    (s.restore (some v)).cacheValid = v.cacheValid := rfl
@[simp] theorem State.snapshot_cacheValid (s : State) : s.snapshot.cacheValid = s.cacheValid := rfl
@[simp] theorem State.restore_some_lastMode (s : State) (v : Saved) :
    (s.restore (some v)).lastMode = v.lastMode := rfl
@[simp] theorem State.snapshot_lastMode (s : State) : s.snapshot.lastMode = s.lastMode := rfl

/-! ### `State.errorEntry` -/

@[simp] theorem State.errorEntry_cfg (s : State) (e : ErrCode) :
    (s.errorEntry e).cfg = s.cfg := State.restore_cfg s s.saved
@[simp] theorem State.errorEntry_frame (s : State) (e : ErrCode) :
    (s.errorEntry e).frame = s.frame := State.restore_frame s s.saved
@[simp] theorem State.errorEntry_work (s : State) (e : ErrCode) :
    (s.errorEntry e).work = s.work := State.restore_work s s.saved
@[simp] theorem State.errorEntry_plane1 (s : State) (e : ErrCode) :
    (s.errorEntry e).plane1 = s.plane1 := State.restore_plane1 s s.saved
@[simp] theorem State.errorEntry_plane2 (s : State) (e : ErrCode) :
    (s.errorEntry e).plane2 = s.plane2 := State.restore_plane2 s s.saved
@[simp] theorem State.errorEntry_old (s : State) (e : ErrCode) :
    (s.errorEntry e).old = (s.restore s.saved).old := rfl
@[simp] theorem State.errorEntry_oldValid (s : State) (e : ErrCode) :
    (s.errorEntry e).oldValid = (s.restore s.saved).oldValid := rfl
@[simp] theorem State.errorEntry_cache (s : State) (e : ErrCode) :
    (s.errorEntry e).cache = (s.restore s.saved).cache := rfl
@[simp] theorem State.errorEntry_cacheValid (s : State) (e : ErrCode) :
    (s.errorEntry e).cacheValid = (s.restore s.saved).cacheValid := rfl
@[simp] theorem State.errorEntry_lastMode (s : State) (e : ErrCode) :
    (s.errorEntry e).lastMode = (s.restore s.saved).lastMode := rfl
@[simp] theorem State.errorEntry_panelState (s : State) (e : ErrCode) :
    (s.errorEntry e).panelState = (s.restore s.saved).panelState := rfl
@[simp] theorem State.errorEntry_fresh (s : State) (e : ErrCode) :
    (s.errorEntry e).fresh = (s.restore s.saved).fresh := rfl
@[simp] theorem State.errorEntry_own (s : State) (e : ErrCode) :
    (s.errorEntry e).own = s.own := State.restore_own s s.saved
@[simp] theorem State.errorEntry_run (s : State) (e : ErrCode) :
    (s.errorEntry e).run = false := rfl
@[simp] theorem State.errorEntry_err (s : State) (e : ErrCode) :
    (s.errorEntry e).err = e := rfl
@[simp] theorem State.errorEntry_stop (s : State) (e : ErrCode) :
    (s.errorEntry e).stop = (s.stop && s.issuer != .worker) := rfl
@[simp] theorem State.errorEntry_anim (s : State) (e : ErrCode) :
    (s.errorEntry e).anim = (s.anim && s.issuer != .worker) := rfl
@[simp] theorem State.errorEntry_dc (s : State) (e : ErrCode) :
    (s.errorEntry e).dc = s.dc := State.restore_dc s s.saved
@[simp] theorem State.errorEntry_rst (s : State) (e : ErrCode) :
    (s.errorEntry e).rst = s.rst := State.restore_rst s s.saved
@[simp] theorem State.errorEntry_seqPos (s : State) (e : ErrCode) :
    (s.errorEntry e).seqPos = [] := rfl
@[simp] theorem State.errorEntry_cursor (s : State) (e : ErrCode) :
    (s.errorEntry e).cursor = none := rfl
@[simp] theorem State.errorEntry_pollElapsed (s : State) (e : ErrCode) :
    (s.errorEntry e).pollElapsed = s.pollElapsed := State.restore_pollElapsed s s.saved
@[simp] theorem State.errorEntry_trace (s : State) (e : ErrCode) :
    (s.errorEntry e).trace = s.trace := State.restore_trace s s.saved
@[simp] theorem State.errorEntry_saved (s : State) (e : ErrCode) :
    (s.errorEntry e).saved = none := rfl
@[simp] theorem State.errorEntry_issuer (s : State) (e : ErrCode) :
    (s.errorEntry e).issuer = s.issuer := State.restore_issuer s s.saved
@[simp] theorem State.errorEntry_host (s : State) (e : ErrCode) :
    (s.errorEntry e).host = s.host := State.restore_host s s.saved
@[simp] theorem State.errorEntry_busyIn (s : State) (e : ErrCode) :
    (s.errorEntry e).busyIn = s.busyIn := State.restore_busyIn s s.saved
@[simp] theorem State.errorEntry_busyRest (s : State) (e : ErrCode) :
    (s.errorEntry e).busyRest = s.busyRest := State.restore_busyRest s s.saved
@[simp] theorem State.errorEntry_xferFails (s : State) (e : ErrCode) :
    (s.errorEntry e).xferFails = s.xferFails := State.restore_xferFails s s.saved

/-! ### Levels -/

@[simp] theorem levelAfter_nil (l : Line) (v : Bool) : levelAfter l [] v = v := rfl

theorem levelAfter_append (l : Line) (es fs : List Event) (v : Bool) :
    levelAfter l (es ++ fs) v = levelAfter l fs (levelAfter l es v) := by
  simp [levelAfter, List.foldl_append]

@[simp] theorem levelAfter_line (l : Line) (v' : Bool) (es : List Event) (v : Bool) :
    levelAfter l (.line l v' :: es) v = levelAfter l es v' := by simp [levelAfter]

@[simp] theorem levelAfter_otherLine (l l' : Line) (h : l' ≠ l) (v' : Bool) (es : List Event) (v : Bool) :
    levelAfter l (.line l' v' :: es) v = levelAfter l es v := by simp [levelAfter, h]

@[simp] theorem levelAfter_cmd (l : Line) (b : Byte) (es : List Event) (v : Bool) :
    levelAfter l (.cmd b :: es) v = levelAfter l es v := rfl

@[simp] theorem levelAfter_data (l : Line) (b : Byte) (es : List Event) (v : Bool) :
    levelAfter l (.data b :: es) v = levelAfter l es v := rfl

@[simp] theorem levelAfter_poll (l : Line) (b : Bool) (es : List Event) (v : Bool) :
    levelAfter l (.poll b :: es) v = levelAfter l es v := rfl

@[simp] theorem levelAfter_delay (l : Line) (ms : Nat) (es : List Event) (v : Bool) :
    levelAfter l (.delay ms :: es) v = levelAfter l es v := rfl

@[simp] theorem levelAfter_fail (l : Line) (es : List Event) (v : Bool) :
    levelAfter l (.fail :: es) v = levelAfter l es v := rfl

@[simp] theorem levelAfter_acquire (l : Line) (es : List Event) (v : Bool) :
    levelAfter l (.acquire :: es) v = levelAfter l es v := rfl

@[simp] theorem levelAfter_release (l : Line) (es : List Event) (v : Bool) :
    levelAfter l (.release :: es) v = levelAfter l es v := rfl

@[simp] theorem levelAfter_map_data (l : Line) (bs : List Byte) (v : Bool) :
    levelAfter l (bs.map .data) v = v := by
  induction bs generalizing v with
  | nil => rfl
  | cons b bs ih => simpa using ih v

@[simp] theorem levelAfter_take_map_data (l : Line) (bs : List Byte) (k : Nat) (v : Bool) :
    levelAfter l ((bs.map .data).take k) v = v := by rw [← List.map_take]; exact levelAfter_map_data l _ v

@[simp] theorem levelAfter_delayEvents (l : Line) (ms : Nat) (v : Bool) : levelAfter l (delayEvents ms) v = v := by
  unfold delayEvents; split <;> rfl

@[simp] theorem levelAfter_commandEvents_dc (b : Byte) (v : Bool) : levelAfter .dc (commandEvents b) v = Config.dcCommand := by
  simp [commandEvents]

@[simp] theorem levelAfter_commandEvents_rst (b : Byte) (v : Bool) : levelAfter .rst (commandEvents b) v = v := by
  simp [commandEvents]

@[simp] theorem levelAfter_dataEvents_dc (bs : List Byte) (v : Bool) : levelAfter .dc (dataEvents bs) v = Config.dcData := by
  simp [dataEvents]

@[simp] theorem levelAfter_dataEvents_rst (bs : List Byte) (v : Bool) : levelAfter .rst (dataEvents bs) v = v := by
  simp [dataEvents]

/-! ### `SEQ_POS` -/

@[simp] theorem advance_nil (n : Nat) : advance n [] = [] := rfl

@[simp] theorem advance_zero (q : List (Operation × Nat)) : advance 0 q = q := by cases q <;> rfl

@[simp] theorem advance_advance (m n : Nat) (q : List (Operation × Nat)) :
    advance m (advance n q) = advance (n + m) q := by cases q <;> simp [advance, Nat.add_assoc]

/-- Moving on changes no operation in flight. -/
@[simp] theorem map_fst_advance (n : Nat) (q : List (Operation × Nat)) :
    (advance n q).map Prod.fst = q.map Prod.fst := by cases q <;> rfl

@[simp] theorem State.log_nil (s : State) : s.log [] = s := by simp [State.log]

/-- Two runs of events logged one after the other are one run. -/
theorem State.log_log (s : State) (es fs : List Event) : (s.log es).log fs = s.log (es ++ fs) := by
  simp [State.log, levelAfter_append]

/-! ### The events of the sequences, and the lines -/

@[simp] theorem levelAfter_gapEvents (l : Line) (p : Params) (q : Sequence) (k : Nat) (v : Bool) :
    levelAfter l (gapEvents p q k) v = v := levelAfter_delayEvents l _ v

@[simp] theorem levelAfter_busyTurns (l : Line) (p : Params) (n : Nat) (v : Bool) :
    levelAfter l (busyTurns p n) v = v := by
  unfold busyTurns
  induction n with
  | zero => rfl
  | succ n ih => simp [List.replicate_succ, levelAfter_append, ih]

theorem busyTurns_succ (p : Params) (n : Nat) :
    busyTurns p (n + 1) = .poll true :: (delayEvents p.pollIntervalMs ++ busyTurns p n) := by
  simp [busyTurns, List.replicate_succ]

@[simp] theorem levelAfter_awaitEvents (l : Line) (p : Params) (n : Nat) (v : Bool) :
    levelAfter l (awaitEvents p n) v = v := by simp [awaitEvents, levelAfter_append]

@[simp] theorem levelAfter_pacedEvents_nil (l : Line) (p : Params) (q : Sequence) (k : Nat) (v : Bool) :
    levelAfter l (pacedEvents p q k []) v = v := rfl

@[simp] theorem levelAfter_pacedEvents_cons (l : Line) (p : Params) (q : Sequence) (k : Nat) (es : List Event)
    (ess : List (List Event)) (v : Bool) :
    levelAfter l (pacedEvents p q k (es :: ess)) v = levelAfter l (pacedEvents p q (k + 1) ess) (levelAfter l es v) := by
  simp [pacedEvents, levelAfter_append]

@[simp] theorem levelAfter_acquireEvents (l : Line) (s : State) (v : Bool) : levelAfter l (acquireEvents s) v = v := by
  unfold acquireEvents; split <;> rfl

@[simp] theorem levelAfter_txEvents_dc (c : Byte) (bs : List Byte) (v : Bool) :
    levelAfter .dc (txEvents c bs) v = Config.dcData := by simp [txEvents, levelAfter_append]

@[simp] theorem levelAfter_txEvents_rst (c : Byte) (bs : List Byte) (v : Bool) :
    levelAfter .rst (txEvents c bs) v = v := by simp [txEvents, levelAfter_append]

@[simp] theorem levelAfter_lut6CommandEvents_rst (p : Params) (v : Bool) :
    levelAfter .rst (lut6CommandEvents p) v = v := by unfold lut6CommandEvents; split <;> simp

@[simp] theorem levelAfter_lut6PayloadEvents_rst (p : Params) (v : Bool) :
    levelAfter .rst (lut6PayloadEvents p) v = v := by unfold lut6PayloadEvents; split <;> simp

/-! ### The bytes sent, for the level of data out -/

@[simp] theorem bytesIn_append (es fs : List Event) : bytesIn (es ++ fs) = bytesIn es ++ bytesIn fs := by
  simp [bytesIn]

/-- Events other than byte transfers send no byte. -/
theorem bytesIn_eq_nil {es : List Event} (h : ∀ b, .cmd b ∉ es ∧ .data b ∉ es) : bytesIn es = [] := by
  rw [bytesIn, List.filterMap_eq_nil_iff]
  intro e he
  cases e with
  | cmd b => exact absurd he (h b).1
  | data b => exact absurd he (h b).2
  | _ => rfl

end Sys2Proof.Machine
end

