-- ==== Sys2Proof/Laws/Memory.lean ====
section
/-! SUPPORT. The buffers: every operation on them keeps the canonical form; what a stretch and a whole buffer hold. -/

namespace Sys2Proof.Machine

variable {β : Type}

/-- The indices of a stretch are consecutive from its start. -/
theorem Memory.mem_stretch_bounds (i : Nat) (vs : List β) (c : Nat × β) (h : c ∈ Memory.stretch i vs) :
    i ≤ c.1 ∧ c.1 < i + vs.length := by
  induction vs generalizing i with
  | nil => simp [Memory.stretch] at h
  | cons v vs ih =>
    rcases List.mem_cons.1 h with rfl | h
    · simp
    · have := ih (i + 1) h
      simp only [List.length_cons]
      omega

@[simp] theorem Memory.length_stretch (i : Nat) (vs : List β) : (Memory.stretch i vs).length = vs.length := by
  induction vs generalizing i with
  | nil => rfl
  | cons v vs ih => simp [Memory.stretch, ih]

theorem Memory.map_snd_stretch (i : Nat) (vs : List β) : (Memory.stretch i vs).map Prod.snd = vs := by
  induction vs generalizing i with
  | nil => rfl
  | cons v vs ih => simp [Memory.stretch, ih]

theorem Memory.map_fst_stretch (i : Nat) (vs : List β) :
    (Memory.stretch i vs).map Prod.fst = List.range' i vs.length := by
  induction vs generalizing i with
  | nil => rfl
  | cons v vs ih => simp [Memory.stretch, ih, List.range'_succ]

theorem Memory.wf_stretch (i : Nat) (vs : List β) : (Memory.stretch i vs).wf := by
  induction vs generalizing i with
  | nil => exact List.Pairwise.nil
  | cons v vs ih =>
    refine List.Pairwise.cons (fun c hc => ?_) (ih (i + 1))
    have := Memory.mem_stretch_bounds (i + 1) vs c hc
    show i < c.1
    omega

/-- A buffer written whole is in canonical form. -/
theorem Memory.wf_ofList (vs : List β) : (Memory.ofList vs).wf := Memory.wf_stretch 0 vs

/-- A write keeps the canonical form. -/
theorem Memory.wf_writeRange (m : Memory β) (i : Nat) (vs : List β) (h : m.wf) : (m.writeRange i vs).wf := by
  unfold Memory.writeRange
  rw [Memory.wf, List.pairwise_append, List.pairwise_append]
  refine ⟨⟨h.filter _, Memory.wf_stretch i vs, fun a ha b hb => ?_⟩, h.filter _, fun a ha b hb => ?_⟩
  · have := Memory.mem_stretch_bounds i vs b hb
    have := (List.mem_filter.1 ha).2
    simp at this
    omega
  · have hb := (List.mem_filter.1 hb).2
    simp at hb
    rcases List.mem_append.1 ha with ha | ha
    · have := (List.mem_filter.1 ha).2
      simp at this
      omega
    · have := Memory.mem_stretch_bounds i vs a ha
      omega

/-- A buffer written whole and read whole. -/
theorem Memory.readAll_ofList (vs : List β) : (Memory.ofList vs).readAll vs.length = some vs := by
  have ht : (Memory.stretch 0 vs).take vs.length = Memory.stretch 0 vs := by
    rw [List.take_of_length_le]; simp
  simp [Memory.readAll, Memory.ofList, ht, Memory.map_fst_stretch, Memory.map_snd_stretch, List.range_eq_range']

/-- The whole of a buffer has the buffer's size. -/
theorem Memory.length_of_readAll {m : Memory β} {n : Nat} {vs : List β} (h : m.readAll n = some vs) : vs.length = n := by
  unfold Memory.readAll at h
  split at h
  · rename_i hm
    simp only [Option.some.injEq] at h
    have := congrArg List.length hm
    simp only [List.length_map, List.length_range] at this
    rw [← h, List.length_map, this]
  · cases h

/-- A buffer written whole is inside its space and in canonical form. -/
theorem Memory.okay_ofList (vs : List β) (n : Nat) (h : vs.length ≤ n) : Memory.okay (Memory.ofList vs) n :=
  ⟨Memory.wf_ofList vs, fun c hc => by have := Memory.mem_stretch_bounds 0 vs c hc; omega⟩

/-- A write inside a buffer's space keeps the buffer inside it and in canonical form. -/
theorem Memory.okay_writeRange (m : Memory β) (i n : Nat) (vs : List β) (h : Memory.okay m n) (hb : i + vs.length ≤ n) :
    Memory.okay (m.writeRange i vs) n := by
  refine ⟨Memory.wf_writeRange m i vs h.1, fun c hc => ?_⟩
  unfold Memory.writeRange at hc
  simp only [List.mem_append, List.mem_filter] at hc
  rcases hc with (hc | hc) | hc
  · exact h.2 c hc.1
  · have := Memory.mem_stretch_bounds i vs c hc
    omega
  · exact h.2 c hc.1

/-- An empty buffer: the reset contents. -/
theorem Memory.okay_nil (n : Nat) : Memory.okay ([] : Memory β) n := ⟨List.Pairwise.nil, by simp⟩

/-- The whole of a buffer of which some element is missing has no value. -/
theorem Memory.readAll_of_lacks {β : Type} {m : Memory β} {n : Nat} (h : m.lacks n) : m.readAll n = none := by
  obtain ⟨k, hk, hr⟩ := h
  have found : ∀ (m : Memory β) (c : Nat × β), c ∈ m → m.lookup c.1 ≠ none := fun m c hc => by
    induction m with
    | nil => cases hc
    | cons d m ih =>
      rw [List.lookup_cons]
      cases hd : c.1 == d.1
      · rcases List.mem_cons.1 hc with rfl | h
        · simp at hd
        · simpa [hd] using ih h
      · simp
  unfold Memory.readAll
  split
  · rename_i e
    have : k ∈ (m.take n).map Prod.fst := by rw [e]; simpa using hk
    obtain ⟨c, hc, rfl⟩ := List.mem_map.1 this
    exact absurd hr (found m c (List.mem_of_mem_take hc))
  · rfl

end Sys2Proof.Machine
end

