-- ==== Sys2Proof/Laws/Position.lean ====
section
/-! SUPPORT. No step of an operation reads the cursor or `SEQ_POS`: where the sequencer stands decides only which step is
next. -/

namespace Sys2Proof.Machine

/-- The state with the cursor at `q`. -/
def State.at (s : State) (q : Option (Instr × Nat)) : State := { s with cursor := q }

/-- A function of the state, in every outcome. -/
def Result.map (f : State → State) : Result → Result
  | .ok t => .ok (f t)
  | .skip k t => .skip k (f t)
  | .wait t => .wait (f t)
  | .raised e t => .raised e (f t)
  | .fault g => .fault g

theorem State.attempt_at (s : State) (es : List Event) (q) : (s.at q).attempt es = (s.attempt es).map (·.at q) := by
  unfold State.attempt
  rw [show (s.at q).xferFails = s.xferFails from rfl]
  split
  · rfl
  · split <;> rfl

theorem State.bus_at (s : State) (es : List Event) (q) : (s.at q).bus es = (s.bus es).map (·.at q) := by
  unfold State.bus
  rw [show (s.at q).own = s.own from rfl, s.attempt_at]
  split <;> rfl

theorem DataSource.bytes_at (d : DataSource) (s : State) (q) : d.bytes (s.at q) = d.bytes s := by cases d <;> rfl

theorem Result.andThen_at (r : Result) (f : State → Result) (q) (h : ∀ t : State, f (t.at q) = (f t).map (·.at q)) :
    (r.map (·.at q)).andThen f = (r.andThen f).map (·.at q) := by
  cases r <;> simp [Result.map, Result.andThen, h]

/-- A step at another place does the same. -/
theorem Micro.run_at (m : Micro) (s : State) (q) : m.run (s.at q) = (m.run s).map (·.at q) := by
  cases m <;> simp only [Micro.run]
  · rw [show (s.at q).panelState = s.panelState from rfl]
    split <;> rfl
  · rw [show (s.at q).cacheValid = s.cacheValid from rfl]
    split <;> rfl
  · rename_i c n
    have : c.holds (s.at q) = c.holds s := by cases c <;> rfl
    rw [this]; split <;> rfl
  · have := s.attempt_at [.acquire] q
    unfold State.acquire
    rw [show (s.at q).own = s.own from rfl]
    split
    · rfl
    · rw [this]; exact Result.andThen_at _ _ q fun t => rfl
  · rw [show (s.at q).own = s.own from rfl]
    split <;> rfl
  · exact s.bus_at _ q
  · rfl
  · rfl
  · exact s.bus_at _ q
  · rename_i d
    rw [d.bytes_at]
    cases d.bytes s with
    | ok bs => exact s.bus_at _ q
    | error f => rfl
  · exact s.bus_at _ q
  · exact s.bus_at _ q
  · rfl
  · rfl
  · rfl
  · unfold State.pollOnce State.readBusy
    have hp : (s.at q).panelBusy = s.panelBusy := rfl
    have hc : (s.at q).cfg = s.cfg := rfl
    have he : (s.at q).pollElapsed = s.pollElapsed := rfl
    have hb : (s.at q).busyIn = s.busyIn := rfl
    rw [s.bus_at, hp, hc, he, hb, Result.andThen_at _ _ q (fun t => rfl), Result.andThen_at]
    intro t
    split
    · split <;> rfl
    · rfl
  all_goals first | rfl | skip
  all_goals
    simp only [withOperand, show (s.at q).frameOperand = s.frameOperand from rfl,
      show (s.at q).plane1Operand = s.plane1Operand from rfl, show (s.at q).cacheOperand = s.cacheOperand from rfl]
    repeat' split
  all_goals rfl

/-- A stretch run from another place does the same. -/
theorem runMicros_at (i : Instr) (ms : List Micro) (n k : Nat) (s : State) (q) :
    runMicros i ms n k (s.at q) = runMicros i ms n k s := by
  induction ms generalizing n k s with
  | nil => rfl
  | cons m ms ih =>
    cases k with
    | succ k => simp [runMicros, ih]
    | zero =>
      simp only [runMicros, Micro.run_at]
      cases m.run s with
      | ok t => exact ih _ _ t
      | skip j t => exact ih _ _ t
      | wait t => rfl
      | raised e t =>
        simp only [Result.map, State.errorEntry, State.at]
        cases t.saved <;> rfl
      | fault f => rfl

/-! ### `SEQ_POS` is written, never read -/

/-- The state with `SEQ_POS` at `q`. -/
def State.pos (s : State) (q : List (Operation × Nat)) : State := { s with seqPos := q }

@[simp] theorem State.pos_pos (s : State) (q r : List (Operation × Nat)) : (s.pos q).pos r = s.pos r := rfl

@[simp] theorem State.pos_self (s : State) : s.pos s.seqPos = s := rfl

/-- Two outcomes of a step that agree but for `SEQ_POS`. -/
def Result.Alike : Result → Result → Prop
  | .ok t, .ok u => t.pos [] = u.pos []
  | .skip k t, .skip j u => k = j ∧ t.pos [] = u.pos []
  | .wait t, .wait u => t.pos [] = u.pos []
  | .raised e t, .raised f u => e = f ∧ t.pos [] = u.pos []
  | .fault f, .fault g => f = g
  | _, _ => False

theorem Result.Alike.refl (r : Result) : r.Alike r := by cases r <;> simp [Result.Alike]

theorem State.attempt_pos (s : State) (es : List Event) (q) : ((s.pos q).attempt es).Alike (s.attempt es) := by
  unfold State.attempt
  rw [show (s.pos q).xferFails = s.xferFails from rfl]
  split
  · rfl
  · split
    · rfl
    · exact ⟨rfl, rfl⟩

theorem State.bus_pos (s : State) (es : List Event) (q) : ((s.pos q).bus es).Alike (s.bus es) := by
  unfold State.bus
  rw [show (s.pos q).own = s.own from rfl]
  split
  · exact s.attempt_pos es q
  · exact ⟨rfl, rfl⟩

theorem DataSource.bytes_pos (d : DataSource) (s : State) (q) : d.bytes (s.pos q) = d.bytes s := by cases d <;> rfl

theorem Result.Alike.andThen {r r' : Result} {f f' : State → Result} (h : r.Alike r')
    (hf : ∀ t t' : State, t.pos [] = t'.pos [] → (f t).Alike (f' t')) : (r.andThen f).Alike (r'.andThen f') := by
  cases r <;> cases r' <;> first | exact hf _ _ h | exact h | exact False.elim h

/-- A step does the same whatever `SEQ_POS` says. -/
theorem Micro.run_pos (m : Micro) (s : State) (q) : (m.run (s.pos q)).Alike (m.run s) := by
  cases m <;> simp only [Micro.run]
  · rw [show (s.pos q).panelState = s.panelState from rfl]
    split <;> simp [Result.Alike]
  · rw [show (s.pos q).cacheValid = s.cacheValid from rfl]
    split <;> simp [Result.Alike]
  · rename_i c n
    have : c.holds (s.pos q) = c.holds s := by cases c <;> rfl
    rw [this]; split <;> simp [Result.Alike]
  · unfold State.acquire
    rw [show (s.pos q).own = s.own from rfl]
    split
    · rfl
    · refine (s.attempt_pos _ q).andThen fun t t' h => ?_
      exact congrArg (fun u : State => { u with own := true }) h
  · rw [show (s.pos q).own = s.own from rfl]
    split <;> rfl
  · exact s.bus_pos _ q
  · rfl
  · rfl
  · exact s.bus_pos _ q
  · rename_i d
    rw [d.bytes_pos]
    cases d.bytes s with
    | ok bs => exact s.bus_pos _ q
    | error f => rfl
  · exact s.bus_pos _ q
  · exact s.bus_pos _ q
  · rfl
  · rfl
  · rfl
  · unfold State.pollOnce State.readBusy
    rw [show (s.pos q).panelBusy = s.panelBusy from rfl, show (s.pos q).cfg = s.cfg from rfl,
      show (s.pos q).pollElapsed = s.pollElapsed from rfl, show (s.pos q).busyIn = s.busyIn from rfl]
    refine Result.Alike.andThen ((s.bus_pos _ q).andThen fun t t' h => ?_) fun t t' h => ?_
    · exact congrArg (fun u : State => { u with busyIn := s.busyIn.tail }) h
    · split
      · split
        · exact ⟨rfl, h⟩
        · exact congrArg (fun u : State =>
            ({ u.log (delayEvents s.cfg.pollIntervalMs) with
              pollElapsed := s.pollElapsed + s.cfg.pollIntervalMs } : State)) h
      · exact h
  all_goals first | rfl | skip
  all_goals
    simp only [withOperand, show (s.pos q).frameOperand = s.frameOperand from rfl,
      show (s.pos q).plane1Operand = s.plane1Operand from rfl, show (s.pos q).cacheOperand = s.cacheOperand from rfl]
    repeat' split
  all_goals rfl

end Sys2Proof.Machine
end

