-- ==== Sys2Proof/Laws/Keeps.lean ====
section
/-! SUPPORT. Everything a step of an operation can do, and with it what any stretch of an operation keeps. -/

namespace Sys2Proof.Machine

/-- `P` holds of the state a step leaves, whatever the outcome; a fault leaves none. -/
def Result.After (P : State → Prop) : Result → Prop
  | .ok t => P t
  | .skip _ t => P t
  | .wait t => P t
  | .raised _ t => P t
  | .fault _ => True

theorem Result.After.mono {P Q : State → Prop} {r : Result} (h : r.After P) (i : ∀ t, P t → Q t) : r.After Q := by
  cases r <;> simp_all [Result.After]

/-- What a stretch of an operation can lead to: its end, a poll of it, or an error. -/
theorem runMicros_cases {P : State → Prop} {i : Instr} {ms : List Micro} {n k : Nat} {s t : State} (hP : P s)
    (keep : ∀ m ∈ ms, ∀ u, P u → (m.run u).After P) (h : runMicros i ms n k s = .next t) :
    (∃ u, P u ∧ t = u.complete) ∨
      (∃ u j m, P u ∧ ms[j]? = some m ∧ (∃ w, P w ∧ m.run w = .wait u) ∧ t = { u with cursor := some (i, n + j) }) ∨
      ∃ u e, P u ∧ (∃ m ∈ ms, ∃ w, P w ∧ m.run w = .raised e u) ∧ t = u.errorEntry e := by
  induction ms generalizing n k s with
  | nil =>
    simp only [runMicros, Host.Outcome.next.injEq] at h
    exact .inl ⟨s, hP, h.symm⟩
  | cons m ms ih =>
    have later : ∀ {k s'}, P s' → runMicros i ms (n + 1) k s' = .next t → _ := fun {k s'} hp hr =>
      ih hp (fun m hm => keep m (List.mem_cons_of_mem _ hm)) hr
    have lift : ∀ {k s'}, P s' → runMicros i ms (n + 1) k s' = .next t →
        (∃ u, P u ∧ t = u.complete) ∨
        (∃ u j m', P u ∧ (m :: ms)[j]? = some m' ∧ (∃ w, P w ∧ m'.run w = .wait u) ∧
          t = { u with cursor := some (i, n + j) }) ∨
        ∃ u e, P u ∧ (∃ m' ∈ m :: ms, ∃ w, P w ∧ m'.run w = .raised e u) ∧ t = u.errorEntry e := by
      intro k s' hp hr
      rcases later hp hr with h | ⟨u, j, m', hu, hj, hw, ht⟩ | ⟨u, e, hu, ⟨m', hm', hw⟩, ht⟩
      · exact .inl h
      · exact .inr (.inl ⟨u, j + 1, m', hu, by simpa using hj, hw, by rw [ht]; congr 3; omega⟩)
      · exact .inr (.inr ⟨u, e, hu, ⟨m', List.mem_cons_of_mem _ hm', hw⟩, ht⟩)
    have hk := keep m (by simp) s hP
    cases k with
    | succ k => exact lift hP (by simpa [runMicros] using h)
    | zero =>
      simp only [runMicros] at h
      cases hm : m.run s with
      | ok u => rw [hm] at h hk; exact lift hk h
      | skip j u => rw [hm] at h hk; exact lift hk h
      | wait u =>
        rw [hm] at h hk
        exact .inr (.inl ⟨u, 0, m, hk, rfl, ⟨s, hP, hm⟩, by simpa using h.symm⟩)
      | raised e u =>
        rw [hm] at h hk
        exact .inr (.inr ⟨u, e, hk, ⟨m, by simp, s, hP, hm⟩, by simpa using h.symm⟩)
      | fault f => rw [hm] at h; cases h

/-! ### The bus primitives, whatever the oracles answer -/

/-- Everything `attempt` can do: all the events, or those before the failing one and `Fail`. -/
theorem State.attempt_cases (s : State) (es : List Event) :
    (∃ ks, s.attempt es = .ok { s.log es with xferFails := ks }) ∨
      ∃ k ks, s.attempt es = .raised .transport { s.log (es.take k ++ [.fail]) with xferFails := ks } := by
  unfold State.attempt
  split
  · rename_i h
    exact .inl ⟨[], by simp only [Result.ok.injEq]; cases s; simp_all [State.log]⟩
  · split
    · exact .inl ⟨_, rfl⟩
    · exact .inr ⟨_, _, rfl⟩

/-- Everything a bus primitive can do. -/
theorem State.bus_cases (s : State) (es : List Event) :
    (∃ ks, s.own = true ∧ s.bus es = .ok { s.log es with xferFails := ks }) ∨
      ∃ k ks, s.bus es = .raised .transport { s.log (es.take k ++ [.fail]) with xferFails := ks } := by
  unfold State.bus
  cases ho : s.own
  · exact .inr ⟨0, s.xferFails, rfl⟩
  · rcases s.attempt_cases es with ⟨ks, h⟩ | h
    · exact .inl ⟨ks, rfl, h⟩
    · exact .inr h

/-! ### One step -/

/-- The steps that touch the block's pins and counters only. -/
def Micro.physical : Micro → Bool
  | .need _ | .needCache | .skipUnless _ _ | .acquire | .release | .setReset _ | .settle | .pause _ _ | .command _
  | .payload _ | .lut6Command | .lut6Payload | .enter _ | .leave | .startAwait | .poll => true
  | .finish _ | .emptyOld | .encode1 _ | .encode4 | .ditherFrame | .cacheToFrame | .commit1 _ | .commit4
  | .commitClear => false

/-- The command bytes a step can send. -/
def Micro.sends (p : Params) (b : Byte) : Micro → Prop
  | .command c => b = c
  | .lut6Command => p.lut6Cmd = some b
  | _ => False

/-- What a physical step can change: it appends events, of which the commands are its own; the ownership, which only
`release` gives up; the oracles' answers it used up; the elapsed poll time; `SEQ_POS`. -/
def Micro.Physical (m : Micro) (s t : State) : Prop :=
  ∃ es o ks pe bi q, t = { s.log es with own := o, xferFails := ks, pollElapsed := pe, busyIn := bi, seqPos := q } ∧
    (∀ b, .cmd b ∈ es → m.sends s.cfg b) ∧ (m ≠ .release → s.own = true → o = true)

theorem Micro.Physical.refl (m : Micro) (s : State) : m.Physical s s :=
  ⟨[], s.own, s.xferFails, s.pollElapsed, s.busyIn, s.seqPos, by simp, by simp, fun _ h => h⟩

theorem Micro.Physical.log (m : Micro) (s : State) (es : List Event) (ks : List Nat)
    (h : ∀ b, .cmd b ∈ es → m.sends s.cfg b) : m.Physical s { s.log es with xferFails := ks } :=
  ⟨es, s.own, ks, s.pollElapsed, s.busyIn, _, rfl, h, fun _ h => h⟩

theorem Micro.Physical.bus (m : Micro) (s : State) (es : List Event) (h : ∀ b, .cmd b ∈ es → m.sends s.cfg b) :
    (s.bus es).After (m.Physical s) := by
  rcases s.bus_cases es with ⟨ks, -, h'⟩ | ⟨k, ks, h'⟩ <;> rw [h']
  · exact .log m s es ks h
  · refine .log m s _ ks fun b hb => ?_
    simp only [List.mem_append, List.mem_singleton, reduceCtorEq, or_false] at hb
    exact h b (List.mem_of_mem_take hb)

theorem cmd_not_mem_delayEvents (b : Byte) (ms : Nat) : Event.cmd b ∉ delayEvents ms := by
  unfold delayEvents; split <;> simp

/-- Everything a physical step can change. -/
theorem Micro.run_physical (m : Micro) (hm : m.physical = true) (s : State) : (m.run s).After (m.Physical s) := by
  cases m <;> simp only [Micro.physical, Bool.false_eq_true] at hm <;> simp only [Micro.run]
  · split <;> exact .refl _ s
  · split <;> exact .refl _ s
  · split <;> exact .refl _ s
  · unfold State.acquire
    split
    · exact .refl _ s
    · rcases s.attempt_cases [.acquire] with ⟨ks, h⟩ | ⟨k, ks, h⟩ <;> rw [h]
      · exact ⟨[.acquire], true, ks, s.pollElapsed, s.busyIn, _, rfl, by simp, fun _ _ => rfl⟩
      · refine .log _ s _ ks fun b hb => ?_
        simp only [List.mem_append, List.mem_singleton, reduceCtorEq, or_false] at hb
        simpa using List.mem_of_mem_take hb
  · split
    · exact ⟨[.release], false, s.xferFails, s.pollElapsed, s.busyIn, _, rfl, by simp, by simp⟩
    · exact .refl _ s
  · exact Micro.Physical.bus _ s _ (by simp)
  · exact .log _ s _ s.xferFails fun b hb => absurd hb (cmd_not_mem_delayEvents b _)
  · exact .log _ s _ s.xferFails fun b hb => absurd hb (cmd_not_mem_delayEvents b _)
  · exact Micro.Physical.bus _ s _ (by simp [commandEvents, Micro.sends])
  · rename_i d
    cases d.bytes s with
    | ok bs => exact Micro.Physical.bus _ s _ (by simp [dataEvents])
    | error f => trivial
  · refine Micro.Physical.bus _ s _ fun b hb => ?_
    unfold lut6CommandEvents at hb
    split at hb
    · cases hb
    · rename_i c hc
      simp [commandEvents] at hb
      simp [Micro.sends, hc, hb]
  · refine Micro.Physical.bus _ s _ fun b hb => ?_
    unfold lut6PayloadEvents at hb
    split at hb <;> simp [dataEvents] at hb
  · exact ⟨[], s.own, s.xferFails, s.pollElapsed, s.busyIn, _, by simp; rfl, by simp, fun _ h => h⟩
  · exact ⟨[], s.own, s.xferFails, s.pollElapsed, s.busyIn, _, by simp; rfl, by simp, fun _ h => h⟩
  · exact ⟨_, s.own, s.xferFails, 0, s.busyIn, _, rfl, fun b hb => absurd hb (cmd_not_mem_delayEvents b _), fun _ h => h⟩
  · unfold State.pollOnce State.readBusy
    rcases s.bus_cases [.poll s.panelBusy] with ⟨ks, -, h⟩ | ⟨k, ks, h⟩ <;> rw [h] <;> simp only [Result.andThen]
    · split
      · split
        · exact ⟨[.poll s.panelBusy], s.own, ks, s.pollElapsed, s.busyIn.tail, _, rfl, by simp, fun _ h => h⟩
        · refine ⟨[.poll s.panelBusy] ++ delayEvents s.cfg.pollIntervalMs, s.own, ks,
            s.pollElapsed + s.cfg.pollIntervalMs, s.busyIn.tail,
            advance (delayEvents s.cfg.pollIntervalMs).length (advance 1 s.seqPos), ?_, fun b hb => ?_, fun _ h => h⟩
          · simp [State.log]
          · simp [cmd_not_mem_delayEvents] at hb
      · exact ⟨[.poll s.panelBusy], s.own, ks, s.pollElapsed, s.busyIn.tail, _, rfl, by simp, fun _ h => h⟩
    · refine .log _ s _ ks fun b hb => ?_
      simp only [List.mem_append, List.mem_singleton, reduceCtorEq, or_false] at hb
      simpa using List.mem_of_mem_take hb

/-- What no step of an operation changes: the parameters, the command interface, the animation flags, the schedule, the
values at acceptance; and the trace only grows. -/
theorem Micro.run_frame (m : Micro) (s : State) :
    (m.run s).After fun t => t.cfg = s.cfg ∧ t.run = s.run ∧ t.err = s.err ∧ t.stop = s.stop ∧ t.anim = s.anim ∧
      t.cursor = s.cursor ∧ t.saved = s.saved ∧ t.issuer = s.issuer ∧ t.host = s.host ∧ t.busyRest = s.busyRest ∧
      s.trace <+: t.trace := by
  cases hm : m.physical
  · cases m <;> simp only [Micro.physical, Bool.true_eq_false] at hm <;> simp only [Micro.run, withOperand]
    all_goals first | (simp [Result.After]; done) | skip
    all_goals (repeat' split) <;> simp [Result.After]
  · refine (m.run_physical hm s).mono ?_
    rintro t ⟨es, o, ks, pe, bi, q, rfl, -, -⟩
    simp

/-- A step that waits is a poll. -/
theorem Micro.poll_of_wait {m : Micro} {s t : State} (h : m.run s = .wait t) : m = .poll := by
  have hb : ∀ es, s.bus es ≠ .wait t := fun es => by
    rcases s.bus_cases es with ⟨ks, -, h⟩ | ⟨k, ks, h⟩ <;> simp [h]
  have ha : s.acquire ≠ .wait t := by
    unfold State.acquire
    split
    · simp
    · rcases s.attempt_cases [.acquire] with ⟨ks, h⟩ | ⟨k, ks, h⟩ <;> simp [h, Result.andThen]
  cases m <;> simp only [Micro.run, withOperand, State.setReset, State.writeCommand, State.writeData] at h
  all_goals first | rfl | exact absurd h ha | exact absurd h (hb _) | skip
  all_goals (repeat' split at h)
  all_goals first | exact absurd h (hb _) | cases h

/-- What a step does to the operations in flight: `enter` adds one, `leave` takes one, and no other step does either. -/
theorem Micro.run_calls (m : Micro) (s : State) :
    (m.run s).After fun t => t.seqPos.map Prod.fst = callsAfter (s.seqPos.map Prod.fst) m := by
  have hb : ∀ es, (s.bus es).After fun t => t.seqPos.map Prod.fst = s.seqPos.map Prod.fst := fun es => by
    rcases s.bus_cases es with ⟨ks, -, h⟩ | ⟨k, ks, h⟩ <;> simp [h, Result.After]
  cases m <;> simp only [Micro.run, callsAfter, withOperand]
  all_goals first | exact hb _ | (simp [Result.After]; done) | skip
  · split <;> rfl
  · split <;> rfl
  · split <;> rfl
  · unfold State.acquire
    split
    · rfl
    · rcases s.attempt_cases [.acquire] with ⟨ks, h⟩ | ⟨k, ks, h⟩ <;> simp [h, Result.andThen, Result.After]
  · split <;> simp [Result.After]
  · cases h : DataSource.bytes _ s with
    | ok bs => exact hb _
    | error f => trivial
  · unfold State.pollOnce State.readBusy
    rcases s.bus_cases [.poll s.panelBusy] with ⟨ks, -, h⟩ | ⟨k, ks, h⟩ <;> rw [h] <;> simp only [Result.andThen]
    · split
      · split <;> simp [Result.After]
      · simp [Result.After]
    · simp [Result.After]
  all_goals (repeat' split) <;> simp [Result.After]

end Sys2Proof.Machine
end

