-- ==== Sys2Proof/Laws/Steps.lean ====
section
/-! SUPPORT. Everything a step of the machine can do: a plain move, the acceptance of a host word, the sequencer going on,
the block's reset. -/

namespace Sys2Proof.Machine

/-- The meaning of a host word is its operation. -/
theorem exec_host (i : Instr) (s : State) (h : i.format = .host) : exec i s = hostOperation i (program i) s := by
  cases i <;> first | rfl | cases h

/-- The transaction of a wire command: its command byte, and its data where it has some. -/
def wireParts (i : Instr) : List Micro :=
  (program i).takeWhile fun m => match m with
    | .command _ | .payload _ => true
    | _ => false

/-- The meaning of a wire command is its transaction. -/
theorem exec_wire (i : Instr) (s : State) (h : i.format = .wire) : exec i s = wireCommand (wireParts i) s := by
  cases i <;> first | rfl | cases h

/-- The steps of a wire command: its transaction, and the poll after exactly 0x02, 0x04 and 0x12. -/
theorem program_wire (i : Instr) (h : i.format = .wire) :
    program i = wireParts i ++ if encode i ∈ [0x02#8, 0x04#8, 0x12#8] then awaitNotBusy else [] := by
  cases i <;> first | rfl | cases h

/-- A wire command sends its own byte, with data after every byte but 0x02, 0x04 and 0x12. -/
theorem wireParts_eq (i : Instr) (h : i.format = .wire) :
    (wireParts i = [.command (encode i)] ∧ encode i ∈ [0x02#8, 0x04#8, 0x12#8]) ∨
      ∃ d, wireParts i = transaction (encode i) d ∧ encode i ∉ [0x02#8, 0x04#8, 0x12#8] := by
  cases i <;> first
    | exact .inl ⟨rfl, by decide⟩
    | exact .inr ⟨_, rfl, by decide⟩
    | (rename_i k; exact .inr ⟨_, rfl, by cases k <;> decide⟩)
    | cases h

/-- What the host decoder reads is a host word's instruction. -/
theorem format_of_decodeHost {w : Byte} {i : Instr} (h : decodeHost w = some i) : i.format = .host := by
  unfold decodeHost at h
  split at h
  · cases h
  · unfold hostRow noArg at h
    split at h <;> (try split at h) <;> simp only [Option.some.injEq, reduceCtorEq] at h <;> subst h <;> rfl

/-- A host operation that is accepted. -/
theorem exec_idle (i : Instr) (s : State) (h : i.format = .host) (hr : s.run = false) :
    exec i s = runMicros i (program i) 0 0 (s.accept i) := by simp [exec_host i s h, hostOperation, hr]

/-- A host operation while another is in flight. -/
theorem exec_running (i : Instr) (s : State) (h : i.format = .host) (hr : s.run = true) : exec i s = .next s := by
  simp [exec_host i s h, hostOperation, hr]

/-- What a frame the host or the worker wrote can be. -/
def FrameWritten (s : State) (f : Memory Byte) : Prop :=
  f = s.frame ∨ (s.run = false ∧ ∃ i vs, i + vs.length ≤ s.cfg.samples ∧ f = s.frame.writeRange i vs) ∨
    (s.run = false ∧ ∃ vs, vs.length = s.cfg.samples ∧ f = Memory.ofList vs)

/-- A step that moves the schedule and writes what a host writes, no operation going on. -/
def PlainMove (s t : State) : Prop :=
  ∃ h f st an e g, t = { s with host := h, frame := f, stop := st, anim := an, err := e, issuer := g } ∧
    FrameWritten s f ∧ (e = s.err ∨ s.run = false ∧ e = .illegalCommand) ∧ (s.run = true → g = s.issuer)

/-- A step that accepts a host operation and runs it. -/
def AcceptMove (s t : State) : Prop :=
  ∃ i h f g, i.format = .host ∧ s.run = false ∧ FrameWritten s f ∧
    runMicros i (program i) 0 0 ({ s with host := h, frame := f, issuer := g }.accept i) = .next t

/-- A step that takes the sequencer up where it stands. -/
def ResumeMove (s t : State) : Prop :=
  ∃ i n h, s.cursor = some (i, n) ∧ runMicros i ((program i).drop n) n 0 { s with host := h } = .next t

/-- A step that resets the block. -/
def ResetMove (s t : State) : Prop := ∃ rest, s.host = .reset :: rest ∧ t = { s with host := rest }.blockReset

theorem PlainMove.host (s : State) (h : List HostMove) : PlainMove s { s with host := h } :=
  ⟨h, s.frame, s.stop, s.anim, s.err, s.issuer, rfl, .inl rfl, .inl rfl, fun _ => rfl⟩

/-- The sequencer goes on, or stays idle. -/
theorem resume_moves {s t : State} {h : List HostMove} (hs : resume { s with host := h } = .next t) :
    PlainMove s t ∨ ResumeMove s t := by
  unfold resume at hs
  split at hs
  · exact .inl (by cases hs; exact .host s h)
  · rename_i i n hp
    exact .inr ⟨i, n, h, hp, hs⟩

/-- A word at the command port. -/
theorem presentWord_moves {s t : State} {w : Byte} {h : List HostMove} {f : Memory Byte} {g : Agent}
    (hf : FrameWritten s f) (hg : s.run = true → g = s.issuer)
    (hs : presentWord w { s with host := h, frame := f, issuer := g } = .next t) : PlainMove s t ∨ AcceptMove s t := by
  unfold presentWord at hs
  split at hs
  · left
    unfold illegalWord at hs
    dsimp only at hs
    split at hs <;> cases hs
    · exact ⟨h, f, s.stop, s.anim, s.err, g, rfl, hf, .inl rfl, hg⟩
    · rename_i hr
      exact ⟨h, f, s.stop, s.anim, .illegalCommand, g, rfl, hf, .inr ⟨by simpa using hr, rfl⟩, hg⟩
  · rename_i i hi
    have hi := format_of_decodeHost hi
    split at hs
    · cases hr : s.run
      · rw [exec_idle i { s with host := h, frame := f, issuer := g } hi hr] at hs
        exact .inr ⟨i, h, f, g, hi, hr, hf, hs⟩
      · rw [exec_running i { s with host := h, frame := f, issuer := g } hi hr] at hs
        cases hs
        exact .inl ⟨h, f, s.stop, s.anim, s.err, g, rfl, hf, .inl rfl, hg⟩
    · cases hs

/-- Everything a step can do. -/
theorem step_moves {s t : State} (h : step s = .next t) :
    PlainMove s t ∨ AcceptMove s t ∨ ResumeMove s t ∨ ResetMove s t := by
  have same : { s with host := s.host } = s := rfl
  have joint : ∀ {P Q R S : Prop}, P ∨ R → P ∨ Q ∨ R ∨ S := fun h => h.elim .inl fun h => .inr (.inr (.inl h))
  unfold step at h
  split at h
  · exact joint (resume_moves (h := s.host) h)
  · rename_i w rest hh
    refine (presentWord_moves (h := rest) (f := s.frame) (.inl rfl) (fun hr => ?_) h).elim .inl fun h => .inr (.inl h)
    simp [hr]
  · split at h
    · exact joint (resume_moves (h := s.host) h)
    · cases h; exact .inl (.host s _)
  · split at h
    · unfold joinTurn at h
      split at h
      · exact joint (resume_moves (h := s.host) h)
      · split at h <;> cases h
        · exact .inl ⟨s.host, s.frame, false, false, s.err, s.issuer, rfl, .inl rfl, .inl rfl, fun _ => rfl⟩
        · exact .inl (.host s s.host)
    · cases h; exact .inl (.host s _)
  · exact joint (resume_moves h)
  · rename_i i bs rest hh
    unfold hostWriteFrame at h
    dsimp only at h
    split at h
    · cases h
    · rename_i hr
      have hr : s.run = false := by simpa using hr
      split at h <;> cases h
      rename_i hb
      exact .inl ⟨rest, _, s.stop, s.anim, s.err, s.issuer, rfl, .inr (.inl ⟨hr, i, bs, hb, rfl⟩), .inl rfl, fun _ => rfl⟩
  · cases h
    exact .inl ⟨_, s.frame, _, s.anim, s.err, s.issuer, rfl, .inl rfl, .inl rfl, fun _ => rfl⟩
  · cases h
    exact .inl ⟨_, s.frame, s.stop, true, s.err, s.issuer, rfl, .inl rfl, .inl rfl, fun _ => rfl⟩
  · rename_i f rest hh
    unfold workerTurn at h
    dsimp only at h
    split at h
    · cases h; exact .inl (.host s rest)
    · split at h
      · exact joint (resume_moves h)
      · split at h
        · cases h
          exact .inl ⟨rest, s.frame, false, false, s.err, s.issuer, rfl, .inl rfl, .inl rfl, fun _ => rfl⟩
        · split at h
          · cases h
          · rename_i hr
            have hr : s.run = false := by simpa using hr
            split at h
            · rename_i hf
              refine (presentWord_moves (s := s) (h := rest) (f := Memory.ofList f) (g := .worker)
                (.inr (.inr ⟨hr, f, hf, rfl⟩)) (by simp [hr]) h).elim .inl fun h => .inr (.inl h)
            · cases h
  · rename_i rest hh
    cases h
    exact .inr (.inr (.inr ⟨rest, hh, rfl⟩))

end Sys2Proof.Machine
end

