-- ==== Sys2Proof/Laws/Calls.lean ====
section
/-! SUPPORT. The operations in flight at each step of an operation: a part that is not taken enters and leaves alike, so
that what `SEQ_POS` names depends on the place alone. -/

namespace Sys2Proof.Machine

/-- The steps of a list match their `enter`s and `leave`s, where `d` are open before it. -/
def matchedCalls : Nat → List Micro → Bool
  | d, [] => d == 0
  | d, .enter _ :: ms => matchedCalls (d + 1) ms
  | 0, .leave :: _ => false
  | d + 1, .leave :: ms => matchedCalls d ms
  | d, _ :: ms => matchedCalls d ms

/-- Every conditional part of a list matches its calls. -/
def matchedSkips : List Micro → Bool
  | [] => true
  | .skipUnless _ k :: ms => matchedCalls 0 (ms.take k) && matchedSkips ms
  | _ :: ms => matchedSkips ms

/-- A matched stretch leaves the operations in flight as they were. -/
theorem foldl_callsAfter (ms : List Micro) (p q : List Operation) (h : matchedCalls p.length ms = true) :
    ms.foldl callsAfter (p ++ q) = q := by
  induction ms generalizing p with
  | nil => simpa [matchedCalls] using h
  | cons m ms ih =>
    cases m
    case enter o => exact ih (o :: p) (by simpa [matchedCalls] using h)
    case leave =>
      cases p with
      | nil => simp [matchedCalls] at h
      | cons o p => exact ih p (by simpa [matchedCalls] using h)
    all_goals exact ih p (by simpa [matchedCalls] using h)

theorem matchedSkips_program (i : Instr) : matchedSkips (program i) = true := by
  cases i <;> first | decide +kernel | (rename_i d; cases d <;> decide +kernel)

theorem matchedSkips_drop (ms : List Micro) (n : Nat) (h : matchedSkips ms = true) : matchedSkips (ms.drop n) = true := by
  induction ms generalizing n with
  | nil => simpa using h
  | cons m ms ih =>
    cases n with
    | zero => exact h
    | succ n => exact ih n (by cases m <;> simp_all [matchedSkips])

/-- A step that skips is a condition. -/
theorem Micro.skipUnless_of_skip {m : Micro} {k : Nat} {s t : State} (h : m.run s = .skip k t) :
    ∃ c, m = .skipUnless c k := by
  have hb : ∀ es, s.bus es ≠ .skip k t := fun es => by
    rcases s.bus_cases es with ⟨ks, -, h⟩ | ⟨k, ks, h⟩ <;> simp [h]
  have ha : s.acquire ≠ .skip k t := by
    unfold State.acquire
    split
    · simp
    · rcases s.attempt_cases [.acquire] with ⟨ks, h⟩ | ⟨k, ks, h⟩ <;> simp [h, Result.andThen]
  have hp : s.pollOnce ≠ .skip k t := by
    unfold State.pollOnce State.readBusy
    rcases s.bus_cases [.poll s.panelBusy] with ⟨ks, -, h⟩ | ⟨k, ks, h⟩ <;> rw [h] <;> simp only [Result.andThen]
    · split
      · split <;> simp
      · simp
    · simp
  cases m <;> simp only [Micro.run, withOperand, State.setReset, State.writeCommand, State.writeData] at h
  case skipUnless c j =>
    split at h
    · cases h
    · cases h; exact ⟨c, rfl⟩
  all_goals first | exact absurd h ha | exact absurd h hp | exact absurd h (hb _) | skip
  all_goals (repeat' split at h)
  all_goals first | exact absurd h (hb _) | cases h

/-- Where a stretch of an operation finds the panel busy, `SEQ_POS` names the operations in flight there. -/
theorem runMicros_calls (i : Instr) (ms : List Micro) (n k : Nat) (s t : State) (hp : (program i).drop n = ms)
    (hs : s.seqPos.map Prod.fst = openCalls i (n + k)) (h : runMicros i ms n k s = .next t) (hr : t.run = true) :
    ∃ j, t.cursor = some (i, j) ∧ t.seqPos.map Prod.fst = openCalls i j := by
  induction ms generalizing n k s with
  | nil => simp only [runMicros, Host.Outcome.next.injEq] at h; subst h; simp at hr
  | cons m ms ih =>
    have hp' : (program i).drop (n + 1) = ms := by simpa using congrArg (List.drop 1) hp
    cases k with
    | succ k => exact ih (n + 1) k s hp' (by rwa [show n + 1 + k = n + (k + 1) by omega]) h
    | zero =>
      have hc := m.run_calls s
      have hm : openCalls i (n + 1) = callsAfter (openCalls i n) m := by
        have : (program i)[n]? = some m := by
          have := congrArg (·[0]?) hp
          simpa using this
        simp [openCalls, List.take_add_one, this]
      simp only [runMicros] at h
      cases hrun : m.run s with
      | ok u => rw [hrun] at h hc; exact ih (n + 1) 0 u hp' (by rw [hc, hs]; exact hm.symm) h
      | skip j u =>
        rw [hrun] at h hc
        obtain ⟨c, rfl⟩ := Micro.skipUnless_of_skip hrun
        refine ih (n + 1) j u hp' ?_ h
        rw [hc, hs]
        have hmt := matchedSkips_drop _ n (matchedSkips_program i)
        rw [hp] at hmt
        simp only [matchedSkips, Bool.and_eq_true] at hmt
        have hf := foldl_callsAfter (ms.take j) [] (openCalls i (n + 1)) hmt.1
        have : openCalls i (n + 1 + j) = (ms.take j).foldl callsAfter (openCalls i (n + 1)) := by
          rw [← hp']; simp [openCalls, List.take_add, List.foldl_append]
        rw [this]; simp only [List.nil_append] at hf; rw [hf, hm]; rfl
      | wait u =>
        rw [hrun] at h hc
        cases h
        have := Micro.poll_of_wait hrun
        subst this
        exact ⟨n, rfl, by rw [hc]; exact hs⟩
      | raised e u => rw [hrun] at h; cases h; simp at hr
      | fault f => rw [hrun] at h; cases h

end Sys2Proof.Machine
end

