-- ==== Sys2Proof/Laws/Fails.lean ====
section
/-! SUPPORT. A run on a transport that lets some events through and fails the next: in step with the run on a good transport
up to that event, and ended by it. -/

namespace Sys2Proof.Machine

/-- The state with these answers of the transport oracle to come. -/
def State.fails (s : State) (ks : List Nat) : State := { s with xferFails := ks }

@[simp] theorem fallibleIn_nil : fallibleIn [] = 0 := rfl

@[simp] theorem fallibleIn_append (es fs : List Event) : fallibleIn (es ++ fs) = fallibleIn es + fallibleIn fs := by
  simp [fallibleIn]

@[simp] theorem fallibleIn_delayEvents (ms : Nat) : fallibleIn (delayEvents ms) = 0 := by
  unfold delayEvents; split <;> rfl

/-- Events each of which may fail are as many as they are. -/
theorem fallibleIn_eq_length {es : List Event} (h : ∀ e ∈ es, e.fallible = true) : fallibleIn es = es.length := by
  rw [fallibleIn, List.filter_eq_self.2 h]

/-- `f` is in step with the outcome `r` that a good transport gives in `s`: it lets the events of `r` through where it can, and
is cut at the first it fails. -/
def Result.InStep (r : Result) (s : State) (f : State → Result) : Prop :=
  ∃ es, r.After (fun t => t.trace = s.trace ++ es ∧ t.xferFails = []) ∧ ∀ k ks,
    (fallibleIn es ≤ k → f (s.fails (k :: ks)) = r.map (·.fails ((k - fallibleIn es) :: ks))) ∧
    (k < fallibleIn es → ∃ u, f (s.fails (k :: ks)) = .raised .transport u ∧ s.CutAt u es k ks)

/-- A step that asks nothing of the transport. -/
theorem Result.InStep.quiet {r : Result} {s : State} {f : State → Result} (es : List Event) (h0 : fallibleIn es = 0)
    (h : r.After fun t => t.trace = s.trace ++ es ∧ t.xferFails = [])
    (hf : ∀ ks, f (s.fails ks) = r.map (·.fails ks)) : r.InStep s f :=
  ⟨es, h, fun k ks => ⟨fun _ => by rw [hf, h0, Nat.sub_zero], fun hk => by omega⟩⟩

/-- One part after the other. -/
theorem Result.InStep.andThen {r : Result} {s : State} {f g : State → Result} (h : r.InStep s f)
    (hg : ∀ t, r = .ok t → t.xferFails = [] → (g t).InStep t g) :
    (r.andThen g).InStep s fun t => (f t).andThen g := by
  obtain ⟨es, ha, hk⟩ := h
  have stop : (∀ t, r ≠ .ok t) → (r.andThen g).InStep s fun t => (f t).andThen g := fun hn => by
    have hr : ∀ ks, (r.map (·.fails ks)).andThen g = (r.andThen g).map (·.fails ks) := fun ks => by
      cases r <;> first | rfl | exact absurd rfl (hn _)
    have he : r.andThen g = r := by cases r <;> first | rfl | exact absurd rfl (hn _)
    refine ⟨es, by rwa [he], fun k ks => ⟨fun h => ?_, fun h => ?_⟩⟩
    · simp only [(hk k ks).1 h, hr]
    · obtain ⟨u, hu, hc⟩ := (hk k ks).2 h
      exact ⟨u, by simp only [hu]; rfl, hc⟩
  cases r with
  | ok t =>
    obtain ⟨ht, hx⟩ := ha
    obtain ⟨fs, ha', hk'⟩ := hg t rfl hx
    refine ⟨es ++ fs, ?_, fun k ks => ⟨fun h => ?_, fun h => ?_⟩⟩
    · exact Result.After.mono ha' fun u hu => ⟨by rw [hu.1, ht, List.append_assoc], hu.2⟩
    · rw [fallibleIn_append] at h ⊢
      have := (hk' (k - fallibleIn es) ks).1 (by omega)
      rw [Nat.sub_sub] at this
      simp only [(hk k ks).1 (by omega)]
      exact this
    · rw [fallibleIn_append] at h
      rcases Nat.lt_or_ge k (fallibleIn es) with hlt | hge
      · obtain ⟨u, hu, before, e, after, he, h1, h2, h3⟩ := (hk k ks).2 hlt
        exact ⟨u, by simp only [hu]; rfl, before, e, after ++ fs, by rw [he]; simp, h1, h2, h3⟩
      · obtain ⟨u, hu, before, e, after, he, h1, h2, h3, h4⟩ := (hk' (k - fallibleIn es) ks).2 (by omega)
        refine ⟨u, by simp only [(hk k ks).1 hge]; exact hu, es ++ before, e, after, by rw [he]; simp, h1,
          by rw [fallibleIn_append, h2]; omega, by rw [h3, ht]; simp, h4⟩
  | skip => exact stop (by simp)
  | wait => exact stop (by simp)
  | raised => exact stop (by simp)
  | fault => exact stop (by simp)

/-- Events on a transport that lets `k` through and fails the next. -/
theorem State.attempt_fails (s : State) (es : List Event) (k : Nat) (ks : List Nat) :
    (s.fails (k :: ks)).attempt es = if es.length ≤ k then .ok ((s.log es).fails ((k - es.length) :: ks))
      else .raised .transport ((s.log (es.take k ++ [.fail])).fails ks) := rfl

/-- Events each of which the transport may fail. -/
theorem State.attempt_inStep (s : State) (es : List Event) (h : s.xferFails = []) (he : ∀ e ∈ es, e.fallible = true) :
    (s.attempt es).InStep s (·.attempt es) := by
  have hl := fallibleIn_eq_length he
  have hg : s.attempt es = .ok (s.log es) := by simp [State.attempt, h]
  refine ⟨es, by rw [hg]; exact ⟨rfl, h⟩, fun k ks => ⟨fun hk => ?_, fun hk => ?_⟩⟩
  · show (s.fails (k :: ks)).attempt es = _
    rw [hg, s.attempt_fails, if_pos (hl ▸ hk), hl]; rfl
  · rw [hl] at hk
    refine ⟨{ s.log (es.take k ++ [.fail]) with xferFails := ks }, ?_, es.take k, es[k], es.drop (k + 1), ?_, ?_, ?_, ?_, rfl⟩
    · show (s.fails (k :: ks)).attempt es = _
      rw [s.attempt_fails, if_neg (Nat.not_le.2 hk)]; rfl
    · simp
    · exact he _ (List.getElem_mem hk)
    · rw [fallibleIn_eq_length fun e h => he e (List.mem_of_mem_take h), List.length_take]; omega
    · simp

/-- A bus primitive. -/
theorem State.bus_inStep (s : State) (es : List Event) (h : s.xferFails = []) (he : ∀ e ∈ es, e.fallible = true) :
    (s.bus es).InStep s (·.bus es) := by
  cases ho : s.own
  · refine .quiet [.fail] rfl (by simp [State.bus, ho, Result.After, h]) fun ks => ?_
    rw [State.bus, State.bus, show (s.fails ks).own = s.own from rfl, ho]; rfl
  · have hb : ∀ t : State, t.own = true → t.bus es = t.attempt es := fun t ht => by rw [State.bus, if_pos ht]
    obtain ⟨fs, ha, hk⟩ := s.attempt_inStep es h he
    rw [hb s ho]
    exact ⟨fs, ha, fun k ks => by simp only [hb (s.fails (k :: ks)) ho]; exact hk k ks⟩

theorem fallible_commandEvents (b : Byte) : ∀ e ∈ commandEvents b, e.fallible = true := by
  simp [commandEvents, Event.fallible]

theorem fallible_dataEvents (bs : List Byte) : ∀ e ∈ dataEvents bs, e.fallible = true := by
  simp [dataEvents, Event.fallible]

theorem DataSource.bytes_fails (d : DataSource) (s : State) (ks : List Nat) : d.bytes (s.fails ks) = d.bytes s := by
  cases d <;> rfl

/-- Every step of an operation. -/
theorem Micro.run_inStep (m : Micro) (s : State) (h : s.xferFails = []) : (m.run s).InStep s m.run := by
  cases m
  case acquire =>
    show s.acquire.InStep s State.acquire
    cases ho : s.own
    · have h1 : ∀ t : State, t.own = false →
          t.acquire = (t.attempt [.acquire]).andThen fun t => .ok { t with own := true } := fun t ht => by
        simp [State.acquire, ht]
      rw [h1 s ho]
      obtain ⟨es, ha, hk⟩ := (s.attempt_inStep [.acquire] h (by simp [Event.fallible])).andThen
        (g := fun t => .ok { t with own := true }) fun t _ ht =>
          .quiet [] rfl (by simp [Result.After, ht]) fun _ => rfl
      exact ⟨es, ha, fun k ks => by rw [h1 (s.fails (k :: ks)) ho]; exact hk k ks⟩
    · have h1 : ∀ t : State, t.own = true → t.acquire = .ok t := fun t ht => by simp [State.acquire, ht]
      refine .quiet [] rfl (by simp [h1 s ho, Result.After, h]) fun ks => by rw [h1 s ho, h1 (s.fails ks) ho]; rfl
  case release =>
    cases ho : s.own
    · exact .quiet [] rfl (by simp [Micro.run, ho, Result.After, h]) fun ks => by
        simp [Micro.run, show (s.fails ks).own = s.own from rfl, ho, Result.map]
    · refine .quiet [.release] rfl (by simp [Micro.run, ho, Result.After, h]) fun ks => by
        simp only [Micro.run, show (s.fails ks).own = s.own from rfl, ho]; rfl
  case setReset v => exact s.bus_inStep _ h (by simp [Event.fallible])
  case command c => exact s.bus_inStep _ h (fallible_commandEvents c)
  case payload d =>
    have h1 : ∀ ks, Micro.run (.payload d) (s.fails ks) = withOperand (d.bytes s) fun bs => (s.fails ks).writeData bs :=
      fun ks => by rw [Micro.run, d.bytes_fails]
    cases hd : d.bytes s with
    | error f =>
      exact .quiet [] rfl (by simp [Micro.run, hd, withOperand, Result.After]) fun ks => by
        rw [h1, hd]; simp [Micro.run, hd, withOperand, Result.map]
    | ok bs =>
      obtain ⟨es, ha, hk⟩ := s.bus_inStep _ h (fallible_dataEvents bs)
      have h2 : Micro.run (.payload d) s = s.bus (dataEvents bs) := by simp [Micro.run, hd, withOperand, State.writeData]
      rw [h2]
      exact ⟨es, ha, fun k ks => by rw [h1, hd]; exact hk k ks⟩
  case lut6Command =>
    refine s.bus_inStep _ h fun e he => ?_
    unfold lut6CommandEvents at he
    split at he
    · cases he
    · exact fallible_commandEvents _ e he
  case lut6Payload =>
    refine s.bus_inStep _ h fun e he => ?_
    unfold lut6PayloadEvents at he
    split at he
    · cases he
    · exact fallible_dataEvents _ e he
  case settle => exact .quiet _ (fallibleIn_delayEvents _) ⟨rfl, h⟩ fun _ => rfl
  case pause => exact .quiet _ (fallibleIn_delayEvents _) ⟨rfl, h⟩ fun _ => rfl
  case startAwait => exact .quiet _ (fallibleIn_delayEvents _) ⟨rfl, h⟩ fun _ => rfl
  case poll =>
    show s.pollOnce.InStep s State.pollOnce
    let read := fun t : State => Result.ok { t with busyIn := s.busyIn.tail }
    let turn := fun t : State =>
      if s.panelBusy then
        if s.cfg.pollCeilingMs.any (fun c => decide (c ≤ s.pollElapsed)) then Result.raised .panelTimeout t
        else .wait { t.log (delayEvents s.cfg.pollIntervalMs) with
          pollElapsed := s.pollElapsed + s.cfg.pollIntervalMs }
      else .ok t
    have h1 : (s.bus [.poll s.panelBusy]).InStep s (·.bus [.poll s.panelBusy]) :=
      s.bus_inStep _ h (by simp [Event.fallible])
    have h2 := h1.andThen (g := read) fun t _ ht => .quiet [] rfl (by simp [read, Result.After, ht]) fun _ => rfl
    refine h2.andThen (g := turn) fun t _ ht => ?_
    simp only [turn]
    split
    · split
      · exact .quiet [] rfl (by simp [Result.After, ht]) fun _ => rfl
      · exact .quiet (delayEvents s.cfg.pollIntervalMs) (fallibleIn_delayEvents _) ⟨rfl, ht⟩ fun _ => rfl
    · exact .quiet [] rfl (by simp [Result.After, ht]) fun _ => rfl
  case skipUnless c n =>
    have : ∀ ks, c.holds (s.fails ks) = c.holds s := fun ks => by cases c <;> rfl
    refine .quiet [] rfl ?_ fun ks => ?_
    · simp only [Micro.run]; split <;> simp [Result.After, h]
    · simp only [Micro.run, this]; split <;> rfl
  all_goals
    refine .quiet [] rfl ?_ fun ks => ?_
    · simp only [Micro.run, withOperand]
      (repeat' split) <;> simp [Result.After, h]
    · simp only [Micro.run, withOperand, show (s.fails ks).frameOperand = s.frameOperand from rfl,
        show (s.fails ks).plane1Operand = s.plane1Operand from rfl, show (s.fails ks).cacheOperand = s.cacheOperand from rfl,
        show (s.fails ks).panelState = s.panelState from rfl, show (s.fails ks).cacheValid = s.cacheValid from rfl]
      (repeat' split) <;> rfl

/-- The same of a run that ends in `t`: in step up to the end, or ended by the event the transport fails. -/
def State.RunsInStep (s t : State) (f : State → Outcome) : Prop :=
  ∃ es, t.trace = s.trace ++ es ∧ t.xferFails = [] ∧ ∀ k ks,
    (fallibleIn es ≤ k → f (s.fails (k :: ks)) = .next (t.fails ((k - fallibleIn es) :: ks))) ∧
    (k < fallibleIn es → ∃ u, f (s.fails (k :: ks)) = .next (u.errorEntry .transport) ∧ s.CutAt u es k ks)

/-- Every stretch of an operation. -/
theorem runMicros_inStep (i : Instr) (ms : List Micro) (n j : Nat) (s t : State) (h : s.xferFails = [])
    (hr : runMicros i ms n j s = .next t) : s.RunsInStep t (runMicros i ms n j) := by
  induction ms generalizing n j s with
  | nil =>
    cases hr
    exact ⟨[], by simp [State.complete], by simpa [State.complete], fun k ks => ⟨fun _ => rfl, by simp⟩⟩
  | cons m ms ih =>
    cases j with
    | succ j => exact ih (n + 1) j s h hr
    | zero =>
      obtain ⟨es, ha, hk⟩ := m.run_inStep s h
      have cut : ∀ (fs : List Event) k ks, k < fallibleIn es →
          ∃ u, runMicros i (m :: ms) n 0 (s.fails (k :: ks)) = .next (u.errorEntry .transport) ∧ s.CutAt u (es ++ fs) k ks :=
        fun fs k ks hlt => by
          obtain ⟨u, hu, before, e, after, he, h1⟩ := (hk k ks).2 hlt
          exact ⟨u, by simp only [runMicros, hu], before, e, after ++ fs, by rw [he]; simp, h1⟩
      have goOn : ∀ (u : State) (a : Nat), u.trace = s.trace ++ es → u.xferFails = [] →
          runMicros i ms (n + 1) a u = .next t →
          (∀ k ks, fallibleIn es ≤ k → runMicros i (m :: ms) n 0 (s.fails (k :: ks)) =
            runMicros i ms (n + 1) a (u.fails ((k - fallibleIn es) :: ks))) →
          s.RunsInStep t (runMicros i (m :: ms) n 0) := fun u a hu hx hn hs => by
        obtain ⟨fs, ht, hxt, hk'⟩ := ih (n + 1) a u hx hn
        refine ⟨es ++ fs, by rw [ht, hu, List.append_assoc], hxt, fun k ks => ⟨fun hle => ?_, fun hlt => ?_⟩⟩
        · rw [fallibleIn_append] at hle ⊢
          rw [hs k ks (by omega), (hk' _ ks).1 (by omega), Nat.sub_sub]
        · rcases Nat.lt_or_ge k (fallibleIn es) with h1 | h1
          · exact cut fs k ks h1
          · rw [fallibleIn_append] at hlt
            obtain ⟨v, hv, before, e, after, he, h2, h3, h4, h5⟩ := (hk' (k - fallibleIn es) ks).2 (by omega)
            exact ⟨v, by rw [hs k ks h1, hv], es ++ before, e, after, by rw [he]; simp, h2,
              by rw [fallibleIn_append, h3]; omega, by rw [h4, hu]; simp, h5⟩
      simp only [runMicros] at hr
      cases hm : m.run s with
      | ok u =>
        rw [hm] at hr ha
        exact goOn u 0 ha.1 ha.2 hr fun k ks hle => by simp only [runMicros, (hk k ks).1 hle, hm, Result.map]
      | skip a u =>
        rw [hm] at hr ha
        exact goOn u a ha.1 ha.2 hr fun k ks hle => by simp only [runMicros, (hk k ks).1 hle, hm, Result.map]
      | wait u =>
        rw [hm] at hr ha
        cases hr
        refine ⟨es, ha.1, ha.2, fun k ks => ⟨fun hle => ?_, fun hlt => ?_⟩⟩
        · simp only [runMicros, (hk k ks).1 hle, hm, Result.map]; rfl
        · simpa using cut [] k ks hlt
      | raised e u =>
        rw [hm] at hr ha
        cases hr
        refine ⟨es, by simpa [State.errorEntry] using ha.1, by simpa [State.errorEntry] using ha.2,
          fun k ks => ⟨fun hle => ?_, fun hlt => ?_⟩⟩
        · simp only [runMicros, (hk k ks).1 hle, hm, Result.map]
          simp only [State.errorEntry, State.fails]
          cases u.saved <;> rfl
        · simpa using cut [] k ks hlt
      | fault f => rw [hm] at hr; cases hr

end Sys2Proof.Machine
end

