-- ==== Sys2Proof/Laws/PerInstr.lean ====
section
/-! SUPPORT. Statements for all instructions, one lemma per constructor. -/

namespace Sys2Proof.Laws.Encoding

/-- The word of an instruction decodes to it, in its format and in every context of its operation (R65, R67, R69). -/
def Statement (i : Instr) : Prop := ∀ c : WireContext, i.inContext c = true → decode i.format c (encode i) = some i

theorem hwreset : Statement .hwreset := fun _ _ => rfl

theorem initfast : Statement .initfast := fun _ _ => rfl

theorem initpart : Statement .initpart := fun _ _ => rfl

theorem init4g : Statement .init4g := fun _ _ => rfl

theorem sleep : Statement .sleep := fun _ _ => rfl

theorem deinit : Statement .deinit := fun _ _ => rfl

theorem picdisp : Statement .picdisp := fun _ _ => rfl

theorem picdisp4g : Statement .picdisp4g := fun _ _ => rfl

theorem picclear : Statement .picclear := fun _ _ => rfl

theorem enc1 (d : Bool) : Statement (.enc1 d) := fun _ _ => by cases d <;> rfl

theorem enc4 : Statement .enc4 := fun _ _ => rfl

theorem dither : Statement .dither := fun _ _ => rfl

theorem upd1 (d : Bool) : Statement (.upd1 d) := fun _ _ => by cases d <;> rfl

theorem upd4 : Statement .upd4 := fun _ _ => rfl

theorem clear (p : Bool) : Statement (.clear p) := fun _ _ => by cases p <;> rfl

theorem reflush : Statement .reflush := fun _ _ => rfl

theorem wPanelSetting : Statement .wPanelSetting := fun _ _ => rfl

theorem wPowerSetting : Statement .wPowerSetting := fun _ _ => rfl

theorem wPowerOff : Statement .wPowerOff := fun _ _ => rfl

theorem wPowerOn : Statement .wPowerOn := fun _ _ => rfl

theorem wBoosterSoftStart : Statement .wBoosterSoftStart := fun _ _ => rfl

theorem wDeepSleep : Statement .wDeepSleep := fun _ _ => rfl

theorem wOldData (k : TransferKind) : Statement (.wOldData k) := by
  rintro ⟨t, k'⟩ h
  simp only [Instr.inContext, beq_iff_eq] at h
  subst h
  rfl

theorem wDisplayRefresh : Statement .wDisplayRefresh := fun _ _ => rfl

theorem wNewData (k : TransferKind) : Statement (.wNewData k) := by
  rintro ⟨t, k'⟩ h
  simp only [Instr.inContext, beq_iff_eq] at h
  subst h
  rfl

theorem wLutVcom : Statement .wLutVcom := fun _ _ => rfl

theorem wLutWw : Statement .wLutWw := fun _ _ => rfl

theorem wLutR : Statement .wLutR := fun _ _ => rfl

theorem wLutW : Statement .wLutW := fun _ _ => rfl

theorem wLutB : Statement .wLutB := fun _ _ => rfl

theorem wPll : Statement .wPll := fun _ _ => rfl

theorem wCdi : Statement .wCdi := fun _ _ => rfl

theorem wTcon : Statement .wTcon := fun _ _ => rfl

theorem wResolution : Statement .wResolution := fun _ _ => rfl

theorem wResolutionExtra : Statement .wResolutionExtra := fun _ _ => rfl

theorem wVcomDc : Statement .wVcomDc := fun _ _ => rfl

theorem wTuneE0 (k : TuneKind) : Statement (.wTuneE0 k) := by
  rintro ⟨t, k'⟩ h
  simp only [Instr.inContext, beq_iff_eq] at h
  subst h
  rfl

theorem wTuneE5 (k : TuneKind) : Statement (.wTuneE5 k) := by
  rintro ⟨t, k'⟩ h
  simp only [Instr.inContext, beq_iff_eq] at h
  subst h
  rfl

end Sys2Proof.Laws.Encoding
end

