-- ==== Sys2Proof/Laws/Run.lean ====
section
/-! SUPPORT. The bus primitives on a good transport, the steps of the operations, and the run of an operation cut at any
step, with the turns of the poll loop that find the panel busy. -/

namespace Sys2Proof.Machine

/-! ### The bus primitives -/

theorem State.attempt_good (s : State) (es : List Event) (h : s.xferFails = []) : s.attempt es = .ok (s.log es) := by
  simp [State.attempt, h]

theorem State.bus_good (s : State) (es : List Event) (ho : s.own = true) (h : s.xferFails = []) :
    s.bus es = .ok (s.log es) := by
  simp [State.bus, ho, s.attempt_good es h]

theorem State.acquire_good (s : State) (h : s.xferFails = []) :
    s.acquire = .ok { s.log (acquireEvents s) with own := true } := by
  cases ho : s.own
  · simp [State.acquire, ho, s.attempt_good _ h, Result.andThen, acquireEvents]
  · cases s; simp_all [State.acquire, acquireEvents]

/-- A poll that reads "not busy" ends the loop. -/
theorem State.pollOnce_idle (s : State) (ho : s.own = true) (h : s.xferFails = []) (hb : s.panelBusy = false) :
    s.pollOnce = .ok { s.log [.poll false] with busyIn := s.busyIn.tail } := by
  simp [State.pollOnce, State.readBusy, s.bus_good _ ho h, hb, Result.andThen]

/-- A poll that reads "busy" below the ceiling: the block sleeps and polls again. -/
theorem State.pollOnce_busy (s : State) (ho : s.own = true) (h : s.xferFails = []) (hb : s.panelBusy = true)
    (hc : ∀ c, s.cfg.pollCeilingMs = some c → s.pollElapsed < c) :
    s.pollOnce = .wait { (s.log (.poll true :: delayEvents s.cfg.pollIntervalMs)) with
      busyIn := s.busyIn.tail
      pollElapsed := s.pollElapsed + s.cfg.pollIntervalMs } := by
  have hn : (s.cfg.pollCeilingMs.any fun c => decide (c ≤ s.pollElapsed)) = false := by
    cases hp : s.cfg.pollCeilingMs with
    | none => rfl
    | some c => simpa using hc c hp
  simp [State.pollOnce, State.readBusy, s.bus_good _ ho h, hb, Result.andThen, hn, State.log, Nat.add_comm]

/-- A poll that reads "busy" at or above the ceiling raises. -/
theorem State.pollOnce_ceiling (s : State) (c : Nat) (ho : s.own = true) (h : s.xferFails = [])
    (hb : s.panelBusy = true) (hc : s.cfg.pollCeilingMs = some c) (he : c ≤ s.pollElapsed) :
    s.pollOnce = .raised .panelTimeout { s.log [.poll true] with busyIn := s.busyIn.tail } := by
  simp [State.pollOnce, State.readBusy, s.bus_good _ ho h, hb, Result.andThen, hc, he]

/-- What the busy line says at the sample after `n` others. -/
theorem State.panelBusy_drop (s t : State) (n : Nat) (hb : t.busyIn = s.busyIn.drop n) (hr : t.busyRest = s.busyRest)
    (hc : t.cfg = s.cfg) : t.panelBusy = s.sample n := by
  simp [State.panelBusy, State.sample, hb, hr, hc, List.headD_eq_head?_getD, List.getD_eq_getElem?_getD, List.head?_drop]

/-- The answers to the coming polls, from a state that has used up `n` samples. -/
theorem State.sample_drop (s t : State) (n k : Nat) (hb : t.busyIn = s.busyIn.drop n) (hr : t.busyRest = s.busyRest)
    (hc : t.cfg = s.cfg) : t.sample k = s.sample (n + k) := by
  simp [State.sample, hb, hr, hc, List.getD_eq_getElem?_getD, List.getElem?_drop]

theorem State.answersFrom_drop (s t : State) (n k : Nat) (ns : List Nat) (hb : t.busyIn = s.busyIn.drop n)
    (hr : t.busyRest = s.busyRest) (hc : t.cfg = s.cfg) (h : s.answersFrom (n + k) ns) : t.answersFrom k ns := by
  induction ns generalizing k with
  | nil => trivial
  | cons m ns ih =>
    obtain ⟨h1, h2, h3, h4⟩ := h
    refine ⟨fun j hj => ?_, ?_, by rwa [hc], ih _ (by rwa [← Nat.add_assoc, ← Nat.add_assoc])⟩
    · rw [s.sample_drop t n _ hb hr hc, ← Nat.add_assoc]; exact h1 j hj
    · rw [s.sample_drop t n _ hb hr hc, ← Nat.add_assoc]; exact h2

/-- The answers that are left after one poll. -/
theorem State.busyFor_tail {s t : State} {n : Nat} {ns : List Nat} (h : s.busyFor (n :: ns))
    (hb : t.busyIn = s.busyIn.drop (n + 1)) (hr : t.busyRest = s.busyRest) (hc : t.cfg = s.cfg) : t.busyFor ns :=
  s.answersFrom_drop t (n + 1) 0 ns hb hr hc (by simpa using h.2.2.2)

/-- The answers to the first poll, asked of a state that differs elsewhere. -/
theorem State.busyFor_head {s t : State} {n : Nat} {ns : List Nat} (h : s.busyFor (n :: ns))
    (hb : t.busyIn = s.busyIn) (hr : t.busyRest = s.busyRest) (hc : t.cfg = s.cfg) : t.busyFor [n] :=
  s.answersFrom_drop t 0 0 [n] (by simpa using hb) hr hc
    ⟨by simpa using h.1, by simpa using h.2.1, h.2.2.1, trivial⟩

/-! ### A stretch of steps, with the busy turns it takes -/

/-- The steps `ms`, conditions included, lead from `s` to `t` with no error, the panel being found busy `k` times. -/
inductive Runs : Nat → List Micro → State → State → Prop where
  | nil (s : State) : Runs 0 [] s s
  | step {k : Nat} {m : Micro} {ms : List Micro} {s t u : State} :
      m.run s = .ok t → Runs k ms t u → Runs k (m :: ms) s u
  | jump {k j : Nat} {m : Micro} {ms : List Micro} {s t u : State} :
      m.run s = .skip j t → j ≤ ms.length → Runs k (ms.drop j) t u → Runs k (m :: ms) s u
  | busy {k : Nat} {m : Micro} {ms : List Micro} {s t u : State} :
      m.run s = .wait t → Runs k (m :: ms) t u → Runs (k + 1) (m :: ms) s u

theorem runMicros_skip (i : Instr) (ms : List Micro) (n k : Nat) (s : State) (h : k ≤ ms.length) :
    runMicros i ms n k s = runMicros i (ms.drop k) (n + k) 0 s := by
  induction ms generalizing n k with
  | nil => cases k with
    | zero => rfl
    | succ k => simp at h
  | cons m ms ih =>
    cases k with
    | zero => rfl
    | succ k =>
      rw [show runMicros i (m :: ms) n (k + 1) s = runMicros i ms (n + 1) k s from by simp [runMicros],
        ih _ _ (by simpa using h)]
      congr 1
      omega

theorem runMicros_ok (i : Instr) {m : Micro} (ms : List Micro) (n : Nat) {s t : State} (h : m.run s = .ok t) :
    runMicros i (m :: ms) n 0 s = runMicros i ms (n + 1) 0 t := by
  simp [runMicros, h]

theorem runMicros_wait (i : Instr) {m : Micro} (ms : List Micro) (n : Nat) {s t : State} (h : m.run s = .wait t) :
    runMicros i (m :: ms) n 0 s = .next (t.at (some (i, n))) := by
  simp [runMicros, h, State.at]

theorem runMicros_raised (i : Instr) {m : Micro} (ms : List Micro) (n : Nat) {e : ErrCode} {s t : State}
    (h : m.run s = .raised e t) : runMicros i (m :: ms) n 0 s = .next (t.errorEntry e) := by
  simp [runMicros, h]

theorem runMicros_fault (i : Instr) {m : Micro} (ms : List Micro) (n : Nat) {f : Fault} {s : State}
    (h : m.run s = .fault f) : runMicros i (m :: ms) n 0 s = .fault f := by
  simp [runMicros, h]

/-- A stretch that finds the panel never busy is passed over. -/
theorem runMicros_of_runs (i : Instr) {k : Nat} {ms : List Micro} {s t : State} (h : Runs k ms s t) (hk : k = 0)
    (rest : List Micro) (n : Nat) : runMicros i (ms ++ rest) n 0 s = runMicros i rest (n + ms.length) 0 t := by
  induction h generalizing n with
  | nil s => simp
  | step hm _ ih => rw [List.cons_append, runMicros_ok i _ _ hm, ih hk]; simp; congr 1; omega
  | @jump k j m ms s t u hm hj _ ih =>
    have : runMicros i (m :: (ms ++ rest)) n 0 s = runMicros i (ms ++ rest) (n + 1) j t := by simp [runMicros, hm]
    rw [List.cons_append, this, runMicros_skip i _ _ _ _ (by simp; omega), List.drop_append_of_le_length hj, ih hk]
    simp only [List.length_drop, List.length_cons]
    congr 1
    omega
  | busy => cases hk

/-- One of several steps after a next state. -/
theorem thenSteps_succ (k : Nat) (s : State) : thenSteps (k + 1) (.next s) = thenSteps k (step s) := rfl

/-- What a step does to the schedule: nothing. -/
theorem Micro.host_of_run {m : Micro} {s t : State} (h : m.run s = .ok t ∨ (∃ k, m.run s = .skip k t) ∨ m.run s = .wait t) :
    t.host = s.host := by
  have := m.run_frame s
  rcases h with h | ⟨k, h⟩ | h <;> rw [h] at this <;> exact this.2.2.2.2.2.2.2.2.1

/-- A stretch of an operation with nothing scheduled: each busy turn is one step of the machine, and the rest is passed
over. -/
theorem thenSteps_of_runs (i : Instr) {k : Nat} {ms : List Micro} {s t : State} (h : Runs k ms s t) (rest : List Micro)
    (n j : Nat) (hp : (program i).drop n = ms ++ rest) (hh : s.host = []) :
    thenSteps (k + j) (runMicros i (ms ++ rest) n 0 s) = thenSteps j (runMicros i rest (n + ms.length) 0 t) := by
  induction h generalizing n with
  | nil s => simp
  | @step k m ms s t u hm hr ih =>
    rw [List.cons_append, runMicros_ok i _ _ hm,
      ih (n + 1) (by simpa using congrArg (List.drop 1) hp) (by rw [Micro.host_of_run (.inl hm), hh])]
    simp only [List.length_cons]; congr 2; omega
  | @jump k a m ms s t u hm hj hr ih =>
    have e : runMicros i (m :: (ms ++ rest)) n 0 s = runMicros i (ms ++ rest) (n + 1) a t := by simp [runMicros, hm]
    have hd : (program i).drop (n + 1 + a) = ms.drop a ++ rest := by
      have := congrArg (List.drop (1 + a)) hp
      rw [List.drop_drop, ← Nat.add_assoc] at this
      rw [this, List.cons_append, Nat.add_comm 1 a, List.drop_succ_cons, List.drop_append_of_le_length hj]
    rw [List.cons_append, e, runMicros_skip i _ _ _ _ (by simp; omega), List.drop_append_of_le_length hj,
      ih (n + 1 + a) hd (by rw [Micro.host_of_run (.inr (.inl ⟨_, hm⟩)), hh])]
    simp only [List.length_drop, List.length_cons]
    congr 2
    omega
  | @busy k m ms s t u hm hr ih =>
    have hht : t.host = [] := by rw [Micro.host_of_run (.inr (.inr hm)), hh]
    have hs : step (t.at (some (i, n))) = runMicros i (m :: ms ++ rest) n 0 t := by
      have : step (t.at (some (i, n))) = resume (t.at (some (i, n))) := by
        simp [step, show (t.at (some (i, n))).host = [] from hht]
      rw [this, resume, show (t.at (some (i, n))).cursor = some (i, n) from rfl]
      simp only
      rw [hp, runMicros_at]
    rw [List.cons_append, runMicros_wait i _ _ hm, show k + 1 + j = (k + j) + 1 by omega, thenSteps_succ, hs]
    exact ih n hp hht

/-- An operation whose steps lead to its end completes: at once on a panel never found busy, and with nothing scheduled in
as many more steps as it is found busy. -/
theorem completes_of_runs (i : Instr) {k : Nat} {s t : State}
    (he : exec i s = hostOperation i (program i) s) (hr : s.run = false) (h : Runs k (program i) (s.accept i) t) :
    (k = 0 → exec i s = .next t.complete) ∧ (s.host = [] → thenSteps k (exec i s) = .next t.complete) := by
  have hx : exec i s = runMicros i (program i) 0 0 (s.accept i) := by rw [he]; simp [hostOperation, hr]
  refine ⟨fun hk => ?_, fun hh => ?_⟩
  · subst hk
    have := runMicros_of_runs i h rfl [] 0
    rw [List.append_nil] at this
    rw [hx, this]; rfl
  · have := thenSteps_of_runs i h [] 0 0 (by simp) (by simpa using hh)
    simp only [List.append_nil, Nat.add_zero] at this
    rw [hx, this]; rfl

theorem Runs.append {k j : Nat} {ms ns : List Micro} {s t u : State} (h : Runs k ms s t) (h' : Runs j ns t u) :
    Runs (k + j) (ms ++ ns) s u := by
  induction h with
  | nil s => simpa using h'
  | step hm _ ih => exact .step hm (ih h')
  | jump hm hk _ ih =>
    exact .jump hm (by simp; omega) ((List.drop_append_of_le_length (l₂ := ns) hk).symm ▸ ih h')
  | @busy k m ms s t u hm _ ih =>
    rw [show k + 1 + j = (k + j) + 1 by omega]
    exact .busy hm (ih h')

/-! ### The same, whatever `SEQ_POS` says -/

/-- The steps lead from `s` to `t` wherever they stand, `SEQ_POS` aside: it is read by no step and written by most. -/
def Leads (k : Nat) (ms : List Micro) (s t : State) : Prop := ∀ q, ∃ q', Runs k ms (s.pos q) (t.pos q')

theorem Leads.nil (s : State) : Leads 0 [] s s := fun q => ⟨q, .nil _⟩

theorem Leads.append {k j : Nat} {ms ns : List Micro} {s t u : State} (h : Leads k ms s t) (h' : Leads j ns t u) :
    Leads (k + j) (ms ++ ns) s u := fun q =>
  let ⟨q', h1⟩ := h q
  let ⟨q'', h2⟩ := h' q'
  ⟨q'', h1.append h2⟩

/-- The states of a stretch need agree but for `SEQ_POS`. -/
theorem Leads.to {k : Nat} {ms : List Micro} {s t u : State} (h : Leads k ms s t) (e : t.pos [] = u.pos []) :
    Leads k ms s u := fun q =>
  let ⟨q', h1⟩ := h q
  ⟨q', by have := congrArg (fun v : State => v.pos q') e; simp only [State.pos_pos] at this; exact this ▸ h1⟩

/-- One step that completes. -/
theorem Leads.one {m : Micro} {s t : State} (h : m.run s = .ok t) : Leads 0 [m] s t := fun q => by
  have := m.run_pos s q
  rw [h] at this
  cases hm : m.run (s.pos q) with
  | ok u =>
    rw [hm] at this
    refine ⟨u.seqPos, .step (t := u) hm ?_⟩
    have e : t.pos u.seqPos = u := by
      have := congrArg (fun v : State => v.pos u.seqPos) (this : u.pos [] = t.pos [])
      exact this.symm
    rw [e]; exact .nil u
  | skip j u => rw [hm] at this; exact absurd this (by simp [Result.Alike])
  | wait u => rw [hm] at this; exact absurd this (by simp [Result.Alike])
  | raised e u => rw [hm] at this; exact absurd this (by simp [Result.Alike])
  | fault f => rw [hm] at this; exact absurd this (by simp [Result.Alike])

/-- "if c: steps", taken. -/
theorem Leads.whenTrue {k : Nat} {c : Cond} {ms : List Micro} {s t : State} (hc : c.holds s = true) (h : Leads k ms s t) :
    Leads k (whenDo c ms) s t := by
  have := (Leads.one (m := .skipUnless c ms.length) (s := s) (t := s) (by simp [Micro.run, hc])).append h
  simpa [whenDo] using this

/-- "if c: steps", not taken. -/
theorem Leads.whenFalse {c : Cond} {ms : List Micro} {s : State} (hc : c.holds s = false) :
    Leads 0 (whenDo c ms) s s := fun q => by
  have : c.holds (s.pos q) = false := by rw [← hc]; cases c <;> rfl
  exact ⟨q, .jump (j := ms.length) (t := s.pos q) (by simp [Micro.run, this]) (Nat.le_refl _) (by simpa using Runs.nil _)⟩

/-- An inner operation. -/
theorem Leads.inner {k : Nat} {ms : List Micro} {s t : State} (o : Operation) (h : Leads k ms s t) :
    Leads k (call o ms) s t := fun q => by
  obtain ⟨q', h1⟩ := h ((o, 0) :: q)
  have h0 : Runs 0 [.enter o] (s.pos q) (s.pos ((o, 0) :: q)) := .step rfl (.nil _)
  have h2 : Runs 0 [.leave] (t.pos q') (t.pos q'.tail) := .step rfl (.nil _)
  exact ⟨q'.tail, by simpa [call] using h0.append (h1.append h2)⟩

/-- An operation whose steps lead to its end completes. -/
theorem completes_of_leads (i : Instr) {k : Nat} {s t : State}
    (he : exec i s = hostOperation i (program i) s) (hr : s.run = false) (h : Leads k (program i) (s.accept i) t) :
    (k = 0 → exec i s = .next t.complete) ∧ (s.host = [] → thenSteps k (exec i s) = .next t.complete) := by
  obtain ⟨q', h1⟩ := h (s.accept i).seqPos
  exact completes_of_runs i he hr (t := t.pos q') h1

/-- An operation whose steps lead to one that faults stops there. -/
theorem faults_of_leads (i : Instr) {k : Nat} {s t : State} {ms rest : List Micro} {m : Micro} {f : Fault}
    (he : exec i s = hostOperation i (program i) s) (hr : s.run = false) (hp : program i = ms ++ m :: rest)
    (h : Leads k ms (s.accept i) t) (hm : ∀ q, m.run (t.pos q) = .fault f) :
    (k = 0 → exec i s = .fault f) ∧ (s.host = [] → thenSteps k (exec i s) = .fault f) := by
  obtain ⟨q', h1⟩ := h (s.accept i).seqPos
  rw [he, hostOperation, hr]
  refine ⟨fun hk => ?_, fun hh => ?_⟩
  · subst hk
    rw [hp]; exact (runMicros_of_runs i h1 rfl (m :: rest) 0).trans (runMicros_fault i _ _ (hm q'))
  · have := thenSteps_of_runs i h1 (m :: rest) 0 0 hp hh
    rw [hp]; exact this.trans (runMicros_fault i _ _ (hm q'))

/-! ### The steps -/

theorem Leads.acquire {s : State} (h : s.xferFails = []) :
    Leads 0 [.acquire] s { s.log (acquireEvents s) with own := true } := .one (s.acquire_good h)

theorem Leads.command {c : Byte} {s : State} (ho : s.own = true) (h : s.xferFails = []) :
    Leads 0 [.command c] s (s.log (commandEvents c)) := .one (s.bus_good _ ho h)

theorem Leads.payload {d : DataSource} {bs : List Byte} {s : State} (ho : s.own = true) (h : s.xferFails = [])
    (hd : d.bytes s = .ok bs) : Leads 0 [.payload d] s (s.log (dataEvents bs)) :=
  .one (by show withOperand _ _ = _; rw [hd]; exact s.bus_good _ ho h)

/-- A wire transaction. -/
theorem Leads.sent {c : Byte} {d : DataSource} {bs : List Byte} {s : State} (ho : s.own = true)
    (h : s.xferFails = []) (hd : d.bytes (s.log (commandEvents c)) = .ok bs) :
    Leads 0 (transaction c d) s (s.log (txEvents c bs)) := by
  have := (Leads.command (c := c) ho h).append (Leads.payload (by simpa) (by simpa) hd)
  rw [State.log_log] at this
  exact this

theorem Leads.pause (s : State) (q : Sequence) (k : Nat) : Leads 0 [.pause q k] s (s.log (gapEvents s.cfg q k)) := .one rfl

theorem Leads.need {ps : List PanelState} {s : State} (h : s.panelState ∈ ps) : Leads 0 [.need ps] s s :=
  .one (by simp [Micro.run, h])

theorem Leads.finish (s : State) (o : SeqOp) :
    Leads 0 [.finish o] s { s with panelState := o.panelState, fresh := o.fresh } := .one rfl

/-- Each of the transactions `txs` appends its events, wherever it stands among others. -/
abbrev Says (s : State) : List (List Micro) → List (List Event) → Prop :=
  List.Forall₂ fun tx es => ∀ fs, Leads 0 tx (s.log fs) (s.log (fs ++ es))

/-- Transactions with their delays. -/
theorem Leads.ofSays {s : State} (q : Sequence) {txs : List (List Micro)} {ess : List (List Event)} (h : Says s txs ess)
    (k : Nat) (fs : List Event) :
    Leads 0 (paced q k txs) (s.log fs) (s.log (fs ++ pacedEvents s.cfg q k ess)) := by
  induction h generalizing k fs with
  | nil => simpa [paced, pacedEvents] using Leads.nil _
  | @cons _ es _ _ h _ ih =>
    have h2 := Leads.pause (s.log (fs ++ es)) q k
    rw [State.log_log] at h2
    have := (h fs).append (h2.append (ih (k + 1) (fs ++ es ++ gapEvents s.cfg q k)))
    simpa [paced, pacedEvents] using this

/-- A command with no data, among others. -/
theorem Leads.commandAfter {s : State} (c : Byte) (ho : s.own = true) (h : s.xferFails = []) (fs : List Event) :
    Leads 0 [.command c] (s.log fs) (s.log (fs ++ commandEvents c)) := by
  rw [← State.log_log]; exact .command (by simpa) (by simpa)

/-- A wire transaction, among others. -/
theorem Leads.sentAfter {s : State} (c : Byte) {d : DataSource} {bs : List Byte} (ho : s.own = true)
    (h : s.xferFails = []) (hd : ∀ fs, d.bytes (s.log fs) = .ok bs) (fs : List Event) :
    Leads 0 (transaction c d) (s.log fs) (s.log (fs ++ txEvents c bs)) := by
  rw [← State.log_log]; exact .sent (by simpa) (by simpa) (by rw [State.log_log]; exact hd _)

/-- The poll loop on a panel that is busy `n` times. -/
theorem Leads.polls {s : State} {n : Nat} (ho : s.own = true) (h : s.xferFails = []) (e : Nat)
    (hb : ∀ j, j < n → s.sample j = true) (hi : s.sample n = false)
    (hc : ∀ c, s.cfg.pollCeilingMs = some c → n = 0 ∨ e + (n - 1) * s.cfg.pollIntervalMs < c) (hp : s.pollElapsed = e) :
    Leads n [.poll] s { s.log (busyTurns s.cfg n ++ [.poll false]) with
      pollElapsed := e + n * s.cfg.pollIntervalMs
      busyIn := s.busyIn.drop (n + 1) } := by
  induction n generalizing s e with
  | zero =>
    have h0 : s.panelBusy = false := by rw [s.panelBusy_drop s 0 (by simp) rfl rfl]; exact hi
    refine (Leads.one (m := .poll) (s.pollOnce_idle ho h h0)).to ?_
    simp [State.pos, State.log, busyTurns, hp]
  | succ n ih =>
    have h0 : s.panelBusy = true := by rw [s.panelBusy_drop s 0 (by simp) rfl rfl]; exact hb 0 (by omega)
    have hk : ∀ c, s.cfg.pollCeilingMs = some c → s.pollElapsed < c := fun c hcc => by
      rcases hc c hcc with h | h
      · omega
      · have := Nat.zero_le ((n + 1 - 1) * s.cfg.pollIntervalMs); omega
    intro q
    have hw := State.pollOnce_busy (s.pos q) ho h h0 hk
    let t : State := { (s.log (.poll true :: delayEvents s.cfg.pollIntervalMs)) with
      busyIn := s.busyIn.tail
      pollElapsed := s.pollElapsed + s.cfg.pollIntervalMs }
    have hd : t.busyIn = s.busyIn.drop 1 := by simp [t]
    have ht := ih (s := t) (by simpa [t]) (by simpa [t]) (e + s.cfg.pollIntervalMs)
      (fun j hj => by rw [s.sample_drop t 1 j hd rfl rfl, Nat.add_comm]; exact hb (j + 1) (by omega))
      (by rw [s.sample_drop t 1 n hd rfl rfl, Nat.add_comm]; exact hi)
      (fun c hcc => by
        rcases hc c hcc with h | h
        · omega
        · cases n with
          | zero => exact .inl rfl
          | succ n =>
            refine .inr ?_
            simp only [Nat.add_sub_cancel, t, State.log_cfg, Nat.succ_mul] at h ⊢
            omega)
      (by simp [t, hp])
    obtain ⟨q', hq'⟩ := ht (((s.pos q).log (.poll true :: delayEvents s.cfg.pollIntervalMs)).seqPos)
    refine ⟨q', .busy (t := t.pos (((s.pos q).log (.poll true :: delayEvents s.cfg.pollIntervalMs)).seqPos)) hw ?_⟩
    have e2 : ({ t.log (busyTurns t.cfg n ++ [.poll false]) with
        pollElapsed := e + s.cfg.pollIntervalMs + n * t.cfg.pollIntervalMs
        busyIn := t.busyIn.drop (n + 1) } : State).pos q' =
        ({ s.log (busyTurns s.cfg (n + 1) ++ [.poll false]) with
        pollElapsed := e + (n + 1) * s.cfg.pollIntervalMs
        busyIn := s.busyIn.drop (n + 1 + 1) } : State).pos q' := by
      simp [t, hp, State.pos, State.log, busyTurns_succ, levelAfter_append, Nat.succ_mul, Nat.add_comm, Nat.add_left_comm,
        Nat.add_assoc]
    rw [← e2]
    exact hq'

/-- `await_not_busy()` on a panel that is busy `n` times. -/
theorem Leads.await {s : State} {n : Nat} (ho : s.own = true) (h : s.xferFails = []) (hb : s.busyFor [n]) :
    Leads n awaitNotBusy s { s.log (awaitEvents s.cfg n) with
      pollElapsed := n * s.cfg.pollIntervalMs
      busyIn := s.busyIn.drop (n + 1) } := by
  let t : State := { s.log (delayEvents s.cfg.delays.prePollMs) with pollElapsed := 0 }
  have h1 : Leads 0 [.startAwait] s t := .one rfl
  have hs : ∀ k, t.sample k = s.sample k := fun k => rfl
  have h2 := Leads.polls (s := t) (n := n) (by simpa [t]) (by simpa [t]) 0
    (fun j hj => by rw [hs]; simpa using hb.1 j hj) (by rw [hs]; simpa using hb.2.1)
    (fun c hc => by simpa [t] using hb.2.2.1 c hc) rfl
  have := (h1.append h2).inner .awaitNotBusy
  rw [Nat.zero_add] at this
  refine Leads.to this ?_
  simp [t, State.pos, State.log, awaitEvents, levelAfter_append]

end Sys2Proof.Machine
end

