-- ==== Sys2Proof/Laws/Sequencer.lean ====
section
/-! SUPPORT. The inner sequencer operations on a good transport: what each leads to, wherever it stands inside an
operation, and however often its poll finds the panel busy. -/

namespace Sys2Proof.Machine

/-- The two tuning commands with their bytes. -/
theorem Leads.tuneWrites {s : State} (q : Sequence) (k : TuneKind) {p : Params} {a b : List Byte} (ho : s.own = true)
    (h : s.xferFails = []) (ha : ∀ t : State, t.cfg = p → (tuneE0Source k).bytes t = .ok a)
    (hb : ∀ t : State, t.cfg = p → (tuneE5Source k).bytes t = .ok b) (hp : s.cfg = p := by rfl) :
    Leads 0 (paced q 3 [wTuneE0 k, wTuneE5 k]) s
      (s.log (pacedEvents s.cfg q 3 [txEvents 0xE0#8 a, txEvents 0xE5#8 b])) := by
  have := Leads.ofSays (s := s) q (txs := [wTuneE0 k, wTuneE5 k])
    (.cons (Leads.sentAfter 0xE0#8 ho h fun _ => ha _ hp)
      (.cons (Leads.sentAfter 0xE5#8 ho h fun _ => hb _ hp) .nil)) 3 []
  rw [State.log_nil] at this
  exact this

/-- The two tuning sequences with their delays and their poll, all in one: what `init_fast` and `init_partial` share. -/
theorem Leads.tune {s : State} {n : Nat} (q : Sequence) (k : TuneKind) (o : SeqOp) (a b : List Byte) (ho : s.own = true)
    (h : s.xferFails = []) (hb : s.busyFor [n]) (ha : ∀ t : State, t.cfg = s.cfg → (tuneE0Source k).bytes t = .ok a)
    (hbb : ∀ t : State, t.cfg = s.cfg → (tuneE5Source k).bytes t = .ok b) :
    Leads n (tuneSteps q k o) s { s with
      dc := Config.dcData
      panelState := o.panelState
      fresh := o.fresh
      pollElapsed := n * s.cfg.pollIntervalMs
      busyIn := s.busyIn.drop (n + 1)
      trace := s.trace ++ tuneEvents s.cfg q a b n } := by
  let s1 := s.log (gapEvents s.cfg q 0)
  let s2 := s1.log (pacedEvents s.cfg q 1 [commandEvents 0x04#8])
  let s3 : State := { s2.log (awaitEvents s.cfg n) with
    pollElapsed := n * s.cfg.pollIntervalMs
    busyIn := s.busyIn.drop (n + 1) }
  let s4 := s3.log (gapEvents s.cfg q 2)
  have r1 : Leads 0 [.pause q 0] s s1 := .pause s q 0
  have r2 : Leads 0 (paced q 1 [wPowerOn]) s1 s2 := by
    have := Leads.ofSays (s := s1) q (txs := [wPowerOn])
      (.cons (Leads.commandAfter 0x04#8 (by simpa [s1]) (by simpa [s1])) .nil) 1 []
    rw [State.log_nil] at this
    exact this
  have r3 : Leads n awaitNotBusy s2 s3 :=
    Leads.await (by simpa [s2, s1]) (by simpa [s2, s1]) (State.busyFor_head hb rfl rfl rfl)
  have r4 : Leads 0 [.pause q 2] s3 s4 := .pause s3 q 2
  have r5 := Leads.tuneWrites q k (s := s4) (by simpa [s4, s3, s2, s1]) (by simpa [s4, s3, s2, s1]) ha hbb
  let s5 := s4.log (pacedEvents s4.cfg q 3 [txEvents 0xE0#8 a, txEvents 0xE5#8 b])
  have r := r1.append (r2.append (r3.append (r4.append (Leads.append (t := s5) r5 (.finish s5 o)))))
  simp only [Nat.zero_add, Nat.add_zero] at r
  refine Leads.to (show Leads n (tuneSteps q k o) s _ by simpa only [tuneSteps, List.append_assoc, List.cons_append,
    List.nil_append] using r) ?_
  simp [s5, s4, s3, s2, s1, State.pos, State.log, tuneEvents]

/-- `init_fast()`. -/
theorem Leads.initFast {s : State} {n : Nat} (h : s.xferFails = []) (hb : s.busyFor [n]) :
    Leads n initFastSteps s { s with
      own := true
      dc := Config.dcData
      panelState := .fast
      fresh := true
      pollElapsed := n * s.cfg.pollIntervalMs
      busyIn := s.busyIn.drop (n + 1)
      trace := s.trace ++ acquireEvents s ++ initFastEvents s.cfg n } := by
  have r2 := Leads.tune (s := { s.log (acquireEvents s) with own := true }) (n := n) .initFast .fast .initFast
    s.cfg.bytes.pfE0 s.cfg.bytes.pfE5 rfl (by simpa) (State.busyFor_head hb rfl rfl rfl)
    (fun t ht => by simp [tuneE0Source, DataSource.bytes, ht]) (fun t ht => by simp [tuneE5Source, DataSource.bytes, ht])
  have r := (Leads.acquire h).append r2
  rw [Nat.zero_add] at r
  exact r.to (by simp [State.pos, State.log, initFastEvents, SeqOp.panelState, SeqOp.fresh])

/-- `init_partial()`. -/
theorem Leads.initPartial {s : State} {n : Nat} (ho : s.own = true) (hp : s.panelState ∈ partialLegal)
    (h : s.xferFails = []) (hb : s.busyFor [n]) :
    Leads n initPartialSteps s { s with
      dc := Config.dcData
      panelState := .partialMode
      fresh := true
      pollElapsed := n * s.cfg.pollIntervalMs
      busyIn := s.busyIn.drop (n + 1)
      trace := s.trace ++ initPartialEvents s.cfg n } := by
  have r2 := Leads.tune (s := s) (n := n) .initPartial .partialMode .initPartial s.cfg.bytes.ppE0 s.cfg.bytes.ppE5 ho h hb
    (fun t ht => by simp [tuneE0Source, DataSource.bytes, ht]) (fun t ht => by simp [tuneE5Source, DataSource.bytes, ht])
  have r := (Leads.need hp).append r2
  rw [Nat.zero_add] at r
  exact r.to (by simp [State.pos, initPartialEvents, SeqOp.panelState, SeqOp.fresh])

/-- A transfer of either protocol (R90 to R92). -/
theorem Leads.transfer {s : State} {n : Nat} (q : Sequence) (k : TransferKind) (ps : List PanelState) (a b : List Byte)
    (ho : s.own = true) (h : s.xferFails = []) (hb : s.busyFor [n]) (hp : s.panelState ∈ ps)
    (ha : ∀ es, (oldDataSource k).bytes (s.log es) = .ok a) (hn : ∀ es, (newDataSource k).bytes (s.log es) = .ok b) :
    Leads n (transferSteps q ps k) s { s with
      dc := Config.dcCommand
      pollElapsed := n * s.cfg.pollIntervalMs
      busyIn := s.busyIn.drop (n + 1)
      trace := s.trace ++ transferEvents s.cfg q a b n } := by
  have r2 := Leads.ofSays (s := s) q (txs := [wOldData k, wNewData k, wDisplayRefresh])
    (.cons (Leads.sentAfter 0x10#8 ho h ha) (.cons (Leads.sentAfter 0x13#8 ho h hn)
      (.cons (Leads.commandAfter 0x12#8 ho h) .nil))) 1 (gapEvents s.cfg q 0)
  let s2 := s.log (gapEvents s.cfg q 0 ++
    pacedEvents s.cfg q 1 [txEvents 0x10#8 a, txEvents 0x13#8 b, commandEvents 0x12#8])
  have r3 : Leads n awaitNotBusy s2 _ :=
    Leads.await (by simpa [s2]) (by simpa [s2]) (State.busyFor_head hb rfl rfl rfl)
  have r := (Leads.need hp).append ((Leads.pause s q 0).append (r2.append (r3.append (Leads.pause _ q 4))))
  simp only [Nat.zero_add, Nat.add_zero] at r
  refine Leads.to (by simpa only [transferSteps, List.append_assoc, List.cons_append, List.nil_append] using r) ?_
  simp [s2, State.pos, State.log, transferEvents, levelAfter_append]

/-- `sleep()`. -/
theorem Leads.sleep {s : State} {n : Nat} (ho : s.own = true) (hp : s.panelState ∈ anyPowered) (h : s.xferFails = [])
    (hb : s.busyFor [n]) :
    Leads n sleepSteps s { s with
      dc := Config.dcData
      panelState := .sleeping
      fresh := false
      pollElapsed := n * s.cfg.pollIntervalMs
      busyIn := s.busyIn.drop (n + 1)
      trace := s.trace ++ sleepEvents s.cfg n } := by
  let s1 := s.log (commandEvents 0x02#8)
  let s2 : State := { s1.log (awaitEvents s.cfg n) with
    pollElapsed := n * s.cfg.pollIntervalMs
    busyIn := s.busyIn.drop (n + 1) }
  have r1 : Leads 0 wPowerOff s s1 := Leads.command ho h
  have r2 : Leads n awaitNotBusy s1 s2 := Leads.await (by simpa [s1]) (by simpa [s1]) (State.busyFor_head hb rfl rfl rfl)
  have r3 : Leads 0 wDeepSleep s2 _ := Leads.sent (by simpa [s2, s1]) (by simpa [s2, s1]) rfl
  have r := (Leads.need hp).append (r1.append (r2.append (r3.append (.finish _ .sleep))))
  simp only [Nat.zero_add, Nat.add_zero] at r
  refine Leads.to (by simpa [sleepSteps] using r) ?_
  simp [s2, s1, State.pos, State.log, sleepEvents, SeqOp.panelState, SeqOp.fresh, Config.sleepMagic]

/-- The reset toggle. -/
theorem Leads.toggle {s : State} (h : s.xferFails = []) :
    Leads 0 resetToggle s { s with
      own := true
      rst := true
      trace := s.trace ++ acquireEvents s ++ resetToggleEvents s.cfg } := by
  let s1 : State := { s.log (acquireEvents s) with own := true }
  let s2 := s1.log [.line .rst false]
  let s3 := s2.log (delayEvents s.cfg.resetSettleMs)
  let s4 := s3.log [.line .rst true]
  have r1 : Leads 0 [.acquire] s s1 := Leads.acquire h
  have r2 : Leads 0 [.setReset false] s1 s2 := .one (s1.bus_good _ rfl (by simpa [s1]))
  have r3 : Leads 0 [.settle] s2 s3 := .one rfl
  have r4 : Leads 0 [.setReset true] s3 s4 := .one (s3.bus_good _ (by simp [s3, s2, s1]) (by simpa [s3, s2, s1]))
  have r5 : Leads 0 [.settle] s4 (s4.log (delayEvents s.cfg.resetSettleMs)) := .one rfl
  refine (r1.append (r2.append (r3.append (r4.append r5)))).to ?_
  simp [s4, s3, s2, s1, State.pos, State.log, resetToggleEvents]

theorem Leads.constantAfter {s : State} (ho : s.own = true) (h : s.xferFails = []) (c : Byte) (f : OpenBytes → List Byte)
    (fs : List Event) :
    Leads 0 (transaction c (.constant f)) (s.log fs) (s.log (fs ++ txEvents c (f s.cfg.bytes))) :=
  Leads.sentAfter c ho h (fun _ => rfl) fs

/-- The nine configuration commands. -/
theorem Says.configuration {s : State} (ho : s.own = true) (h : s.xferFails = []) :
    Says s configurationSteps (configurationEvents s.cfg) := by
  have tx := Leads.constantAfter ho h
  exact .cons (tx 0x00#8 OpenBytes.p00) <| .cons (tx 0x01#8 OpenBytes.p01) <| .cons (tx 0x06#8 OpenBytes.p06) <|
    .cons (tx 0x30#8 OpenBytes.p30) <| .cons (tx 0x50#8 OpenBytes.p50) <| .cons (tx 0x60#8 OpenBytes.p60) <|
    .cons (tx 0x61#8 OpenBytes.p61) <| .cons (tx 0x65#8 OpenBytes.p65) <| .cons (tx 0x82#8 OpenBytes.p82) .nil

/-- The six LUT sub-writes. -/
theorem Says.lutWrite {s : State} (ho : s.own = true) (h : s.xferFails = []) :
    Says s [wLutVcom, wLutWw, wLutR, wLutW, wLutB, [.lut6Command, .lut6Payload]] (lutWriteEvents s.cfg) := by
  have tx := Leads.constantAfter ho h
  have l6 : ∀ fs, Leads 0 [.lut6Command, .lut6Payload] (s.log fs)
      (s.log (fs ++ (lut6CommandEvents s.cfg ++ lut6PayloadEvents s.cfg))) := fun fs => by
    rw [← List.append_assoc, ← State.log_log, ← State.log_log]
    exact (Leads.one (m := .lut6Command) (s := s.log fs) (State.bus_good _ _ (by simpa) (by simpa))).append
      (.one (m := .lut6Payload) (s := (s.log fs).log _) (State.bus_good _ _ (by simpa) (by simpa)))
  exact .cons (tx 0x20#8 OpenBytes.lut0) <| .cons (tx 0x21#8 OpenBytes.lut1) <| .cons (tx 0x22#8 OpenBytes.lut2) <|
    .cons (tx 0x23#8 OpenBytes.lut3) <| .cons (tx 0x24#8 OpenBytes.lut4) <| .cons l6 .nil

/-- `init_4gray()`. -/
theorem Leads.init4gray {s : State} {n : Nat} (h : s.xferFails = []) (hb : s.busyFor [n]) :
    Leads n init4graySteps s { s with
      own := true
      rst := true
      dc := Config.dcCommand
      panelState := .gray4
      fresh := false
      pollElapsed := n * s.cfg.pollIntervalMs
      busyIn := s.busyIn.drop (n + 1)
      trace := s.trace ++ acquireEvents s ++ init4grayEvents s.cfg n } := by
  let s1 : State := { s with own := true, rst := true, trace := s.trace ++ acquireEvents s ++ resetToggleEvents s.cfg }
  have ho : s1.own = true := rfl
  have r1 : Leads 0 resetToggle s s1 := Leads.toggle h
  have r2 := Leads.pause s1 .init4gray 0
  have r3 := Leads.ofSays (s := s1) .init4gray (Says.configuration ho h) 1 (gapEvents s1.cfg .init4gray 0)
  have r4 := (Leads.ofSays (s := s1) .init4gray (Says.lutWrite ho h) 10
    (gapEvents s1.cfg .init4gray 0 ++ pacedEvents s1.cfg .init4gray 1 (configurationEvents s1.cfg))).inner .lutWrite
  have r5 := Leads.ofSays (s := s1) .init4gray (txs := [wPowerOn])
    (.cons (Leads.commandAfter 0x04#8 ho h) .nil) 16
    (gapEvents s1.cfg .init4gray 0 ++ pacedEvents s1.cfg .init4gray 1 (configurationEvents s1.cfg) ++
      pacedEvents s1.cfg .init4gray 10 (lutWriteEvents s1.cfg))
  have r6 := Leads.await (s := s1.log (gapEvents s1.cfg .init4gray 0 ++
      pacedEvents s1.cfg .init4gray 1 (configurationEvents s1.cfg) ++
      pacedEvents s1.cfg .init4gray 10 (lutWriteEvents s1.cfg) ++ pacedEvents s1.cfg .init4gray 16 [commandEvents 0x04#8]))
    (n := n) (by simp [s1]) (by simpa [s1]) (State.busyFor_head hb rfl rfl rfl)
  have r := r1.append (r2.append (r3.append (r4.append (r5.append (r6.append ((Leads.pause _ .init4gray 17).append
    (.finish _ .init4gray)))))))
  simp only [Nat.zero_add, Nat.add_zero] at r
  refine Leads.to (by simpa only [init4graySteps, lutWriteSteps, List.append_assoc, List.cons_append,
    List.nil_append] using r) ?_
  simp [s1, State.pos, State.log, init4grayEvents, SeqOp.panelState, SeqOp.fresh, levelAfter_append, lutWriteEvents,
    configurationEvents]

end Sys2Proof.Machine
end

