-- ==== Sys2Proof/Tests/Slice0.lean ====
section
/-! SUPPORT. The model's own tests. Expected values come from the spec: its encoding tables and its test vectors
(spec/95_test_vectors.md, named in each test), or hand calculation from its rules. Then, for every obligation with
hypotheses, a witness that meets them. -/

namespace Sys2Proof.Tests

-- One thread: each of the tests is small, and many at once need much memory.
set_option Elab.async false

open Sys2Proof Sys2Proof.Machine

/-! ### Small blocks -/

/-- Parameters of a small block: one made-up byte in each OPEN string, no sixth LUT command, no ceiling. -/
def small (w h : Nat) : Params where
  w := w
  h := h
  pollIntervalMs := 10
  pollCeilingMs := none
  resetSettleMs := 20
  delays := .zero
  whiteByte := 0xFF#8
  padBit := false
  roundTie := .even
  arith := .binary32
  split := .highLow
  busyActiveLevel := false
  lut6Cmd := none
  bytes :=
    { p00 := [0x70#8], p01 := [0x71#8], p06 := [0x76#8], p30 := [0x73#8], p50 := [0x75#8], p60 := [0x7A#8]
      p61 := [0x7B#8], p65 := [0x7C#8], p82 := [0x7D#8], pfE0 := [0xA0#8], pfE5 := [0xA5#8], ppE0 := [0xB0#8]
      ppE5 := [0xB5#8], lut0 := [0x80#8], lut1 := [0x81#8], lut2 := [0x82#8], lut3 := [0x83#8], lut4 := [0x84#8]
      lut5 := [] }

/-- A small block after reset. -/
def block (w h : Nat) : State := { State.reset with cfg := small w h }

/-- A small block with a frame written. -/
def withFrame (w h : Nat) (f : List Byte) : State := { block w h with frame := Memory.ofList f }

/-- A small 1-bit powered block with its planes written. -/
def powered (p : PanelState) : State :=
  { withFrame 8 1 [63#8, 64#8, 127#8, 128#8, 191#8, 192#8, 0#8, 255#8] with
    panelState := p
    plane1 := Memory.ofList [0x3C#8]
    plane2 := Memory.ofList [0x16#8, 0xB3#8] }

/-- The state of an outcome. -/
def got (o : Outcome) : Option State :=
  match o with
  | .next t => some t
  | .fault _ => none
  | .refused _ => none

/-- The abstract trace, the Panel State and the status word of an outcome. -/
def seen (o : Outcome) : Option (List Event × PanelState × Byte) :=
  (got o).map fun t => (abstractTrace t.trace, t.panelState, t.hstat)

theorem next_of_got {o : Outcome} {p : State → Bool} (h : (got o).any p = true) : ∃ t, o = .next t ∧ p t = true := by
  cases o with
  | next t => exact ⟨t, rfl, h⟩
  | fault f => cases h
  | refused r => cases h

/-- The binary32 value `n / 2^k`. -/
def q (n : Int) (k : Nat) : F32 := ⟨decide (n < 0), n.natAbs * 2 ^ (149 - k)⟩

/-! ### Well-formedness: each check refuses an ill-formed term -/

theorem test_params_wf : (small 240 416).wf = true ∧ Config.nativeW = 240 ∧ Config.nativeH = 416 := by decide
theorem test_params_no_columns : (small 0 4).wf = false := by decide
theorem test_params_no_rows : (small 4 0).wf = false := by decide
theorem test_params_settle_too_short : { small 4 4 with resetSettleMs := 19 }.wf = false := by decide
theorem test_params_no_interval : { small 4 4 with pollIntervalMs := 0 }.wf = false := by decide

/-- R5: no transfer operation on a 4×4 block, each of them on a native one; the encoders on both. -/
theorem test_transfers_native_only :
    [Instr.picdisp, .picdisp4g, .picclear, .upd1 true, .upd4, .clear false, .reflush, .wOldData .pair,
      .wNewData .gray].all (fun i => !i.wf (small 4 4) && i.wf (small 240 416)) = true ∧
    [Instr.enc1 true, .enc4, .dither, .hwreset, .init4g].all (fun i => i.wf (small 4 4)) = true := by decide

/-- R5: such a word is refused by name. -/
theorem test_transfer_refused :
    step { block 4 4 with host := [.word 0x80#8] } = .refused .geometryNotNative := by rfl

/-! ### Decoding: words written out from R62 and R67 -/

theorem test_decode_host_no_argument :
    [(0b00000000#8, Instr.hwreset), (0b00010000#8, .initfast), (0b00100000#8, .initpart), (0b00110000#8, .init4g),
      (0b01000000#8, .sleep), (0b01010000#8, .deinit), (0b01100000#8, .picdisp), (0b01110000#8, .picdisp4g),
      (0b10000000#8, .picclear), (0b10100000#8, .enc4), (0b10110000#8, .dither), (0b11010000#8, .upd4),
      (0b11110000#8, .reflush)].all (fun r => decodeHost r.1 == some r.2 && decodeHost (r.1 ||| 1#8) == none) = true := by
  decide

theorem test_decode_host_argument :
    [(0b10010000#8, Instr.enc1 false), (0b10010001#8, .enc1 true), (0b11000000#8, .upd1 false),
      (0b11000001#8, .upd1 true), (0b11100000#8, .clear false), (0b11100001#8, .clear true)].all
      (fun r => decodeHost r.1 == some r.2 && decodeHost (r.1 ||| 0b10#8) == none) = true := by decide

theorem test_decode_wire :
    [(0b00000000#8, Instr.wPanelSetting), (0b00000001#8, .wPowerSetting), (0b00000010#8, .wPowerOff),
      (0b00000100#8, .wPowerOn), (0b00000110#8, .wBoosterSoftStart), (0b00000111#8, .wDeepSleep),
      (0b00010000#8, .wOldData .gray), (0b00010010#8, .wDisplayRefresh), (0b00010011#8, .wNewData .gray),
      (0b00100000#8, .wLutVcom), (0b00100001#8, .wLutWw), (0b00100010#8, .wLutR), (0b00100011#8, .wLutW),
      (0b00100100#8, .wLutB), (0b00110000#8, .wPll), (0b01010000#8, .wCdi), (0b01100000#8, .wTcon),
      (0b01100001#8, .wResolution), (0b01100101#8, .wResolutionExtra), (0b10000010#8, .wVcomDc),
      (0b11100000#8, .wTuneE0 .partialMode), (0b11100101#8, .wTuneE5 .partialMode)].all
      (fun r => decodeWire ⟨.partialMode, .gray⟩ r.1 == some r.2) = true := by decide

/-- R67, R73: 22 command bytes and no more. -/
theorem test_decode_wire_count :
    ((List.range 256).filter fun n => (decodeWire tableContext (BitVec.ofNat 8 n)).isSome).length = 22 := by
  decide +kernel

/-- The table's words: a byte of both formats is the host word; widths other than 8 are none. -/
theorem test_decode_table :
    decodeTableWord 8 0x20 = some .initpart ∧ decodeTableWord 8 0x21 = some .wLutWw ∧
      decodeTableWord 8 0x13 = some (.wNewData .white) ∧ decodeTableWord 8 0x25 = none ∧
      decodeTableWord 16 0x20 = none := by decide

/-- R66: data bytes belong to the command before them; a stretch that starts with data has no command. -/
theorem test_decode_stream :
    decodeStream [(false, 0x07#8), (true, 0xA5#8), (false, 0x04#8)] = some [(0x07#8, [0xA5#8]), (0x04#8, [])] ∧
      decodeStream [(true, 0xA5#8), (false, 0x04#8)] = none := by decide

/-! ### The status word and reserved words (V-HC-4, V-HC-5, the `HSTAT` examples of 2.1) -/

theorem test_hstat_examples :
    (block 4 4).hstat = 0x00#8 ∧ { block 4 4 with panelState := .fast }.hstat = 0x10#8 ∧
      { block 4 4 with panelState := .partialMode }.hstat = 0x30#8 ∧
      { block 4 4 with panelState := .sleeping }.hstat = 0x50#8 ∧
      { block 4 4 with err := .protocolState }.hstat = 0x06#8 ∧
      { block 4 4 with run := true, panelState := .gray4 }.hstat = 0x41#8 ∧
      { block 4 4 with panelState := .fast, err := .transport }.hstat = 0x12#8 := by decide

theorem test_reserved_word : seen (step { block 4 4 with host := [.word 0x01#8] }) = some ([], .uninit, 0x08#8) := by
  decide +kernel

theorem test_reserved_words : [0xC2#8, 0x98#8, 0xFF#8, 0xA1#8].all (fun w => decodeHost w == none) = true := by decide

/-! ### The sequencer -/

/-- V-SEQ-1. -/
theorem test_hwreset :
    seen (exec .hwreset { powered .sleeping with fresh := true }) =
      some ([.line .rst false, .delay 20, .line .rst true, .delay 20], .uninit, 0x00#8) := by decide +kernel

theorem test_hwreset_from_deinit :
    seen (exec .hwreset { powered .deinit with own := false }) =
      some ([.acquire, .line .rst false, .delay 20, .line .rst true, .delay 20], .uninit, 0x00#8) := by decide +kernel

/-- V-SEQ-2, the busy line answering busy, busy, not busy: the run up to the first answer, where the operation stands in
its await, whose events are numbered on their own (of the init's own there were two, the line and the byte); and the
whole run. -/
theorem test_initfast_busy :
    (got (exec .initfast { block 4 4 with busyIn := [false, false, true] })).map
      (fun t => (abstractTrace t.trace, t.hstat, t.seqPos, t.pollElapsed)) =
      some ([.cmd 0x04#8, .poll true, .delay 10], 0x01#8, [(.awaitNotBusy, 2), (.word .initfast, 2)], 10) ∧
    seen (thenSteps 2 (exec .initfast { block 4 4 with busyIn := [false, false, true] })) =
      some ([.cmd 0x04#8, .poll true, .delay 10, .poll true, .delay 10, .poll false, .cmd 0xE0#8, .data 0xA0#8,
        .cmd 0xE5#8, .data 0xA5#8], .fast, 0x10#8) := by decide +kernel

/-- V-SEQ-2 on an idle panel; V-SEQ-11: eight events succeed, the next one, the transfer of 0xE5, fails; `SEQ_DELAYS`: a
delay before the poll, one before 0x04, one after it, one after the poll, one after each of the two tuning commands and
none inside them (R180). -/
theorem test_initfast :
    seen (exec .initfast (block 4 4)) =
      some ([.cmd 0x04#8, .poll false, .cmd 0xE0#8, .data 0xA0#8, .cmd 0xE5#8, .data 0xA5#8], .fast, 0x10#8) ∧
    seen (exec .initfast { block 4 4 with xferFails := [8] }) =
      some ([.cmd 0x04#8, .poll false, .cmd 0xE0#8, .data 0xA0#8, .fail], .uninit, 0x02#8) ∧
    seen (exec .initfast { block 4 4 with
      cfg := { small 4 4 with delays := { SeqDelays.zero with prePollMs := 1, initFast := [2, 3, 4, 5, 6] } } }) =
      some ([.delay 2, .cmd 0x04#8, .delay 3, .delay 1, .poll false, .delay 4, .cmd 0xE0#8, .data 0xA0#8, .delay 5,
        .cmd 0xE5#8, .data 0xA5#8, .delay 6], .fast, 0x10#8) := by decide +kernel

/-- V-SEQ-3. -/
theorem test_initpart_uninit : seen (exec .initpart (block 4 4)) = some ([], .uninit, 0x06#8) := by decide +kernel

theorem test_initpart :
    seen (exec .initpart (powered .fast)) =
      some ([.cmd 0x04#8, .poll false, .cmd 0xE0#8, .data 0xB0#8, .cmd 0xE5#8, .data 0xB5#8], .partialMode, 0x30#8) := by
  decide +kernel

/-- V-SEQ-4, without a sixth LUT command. -/
theorem test_init4g :
    seen (exec .init4g (block 4 4)) =
      some ([.line .rst false, .delay 20, .line .rst true, .delay 20,
        .cmd 0x00#8, .data 0x70#8, .cmd 0x01#8, .data 0x71#8, .cmd 0x06#8, .data 0x76#8, .cmd 0x30#8, .data 0x73#8,
        .cmd 0x50#8, .data 0x75#8, .cmd 0x60#8, .data 0x7A#8, .cmd 0x61#8, .data 0x7B#8, .cmd 0x65#8, .data 0x7C#8,
        .cmd 0x82#8, .data 0x7D#8, .cmd 0x20#8, .data 0x80#8, .cmd 0x21#8, .data 0x81#8, .cmd 0x22#8, .data 0x82#8,
        .cmd 0x23#8, .data 0x83#8, .cmd 0x24#8, .data 0x84#8, .cmd 0x04#8, .poll false], .gray4, 0x40#8) := by
  decide +kernel

/-- R87: with a sixth LUT command, its byte and `LUT_5` come between 0x24 and 0x04. -/
theorem test_init4g_lut6 :
    (got (exec .init4g { block 4 4 with
      cfg := { small 4 4 with lut6Cmd := some 0x25#8, bytes := { (small 4 4).bytes with lut5 := [0x9A#8] } } })).map
      (fun t => (wireBytes t.trace).drop 27) =
      some [(true, 0x84#8), (false, 0x25#8), (true, 0x9A#8), (false, 0x04#8)] := by decide +kernel

/-- V-SEQ-5. -/
theorem test_sleep :
    seen (exec .sleep (powered .fast)) =
      some ([.cmd 0x02#8, .poll false, .cmd 0x07#8, .data 0xA5#8], .sleeping, 0x50#8) := by decide +kernel

theorem test_sleep_asleep : seen (exec .sleep (powered .sleeping)) = some ([], .sleeping, 0x56#8) := by decide +kernel

/-- V-SEQ-9. -/
theorem test_deinit :
    (got (exec .deinit (powered .partialMode))).map (fun t => (t.trace, t.own, t.hstat)) =
      some ([.release], false, 0x60#8) := by decide +kernel

theorem test_deinit_again :
    seen (exec .deinit { powered .deinit with own := false }) = some ([], .deinit, 0x60#8) := by decide +kernel

/-- V-SEQ-6 on an 8×1 block. -/
theorem test_picdisp :
    seen (exec .picdisp (powered .fast)) =
      some ([.cmd 0x10#8, .data 0xFF#8, .cmd 0x13#8, .data 0x3C#8, .cmd 0x12#8, .poll false], .fast, 0x10#8) := by
  decide +kernel

theorem test_picdisp_uninit : seen (exec .picdisp (powered .uninit)) = some ([], .uninit, 0x06#8) := by decide +kernel

/-- V-SEQ-7: the default split of `[0x16, 0xB3]` (PRESUMED, R94) and the source's own state error. -/
theorem test_picdisp4g :
    seen (exec .picdisp4g (powered .gray4)) =
      some ([.cmd 0x10#8, .data 0x1D#8, .cmd 0x13#8, .data 0x65#8, .cmd 0x12#8, .poll false], .gray4, 0x40#8) := by
  decide +kernel

theorem test_picdisp4g_partial : seen (exec .picdisp4g (powered .partialMode)) = some ([], .partialMode, 0x36#8) := by
  decide +kernel

/-- V-SEQ-8, V-SEQ-10: a transfer whose trailing poll times out at once when the ceiling is 0. -/
theorem test_picclear :
    seen (exec .picclear (powered .fast)) =
      some ([.cmd 0x10#8, .data 0xFF#8, .cmd 0x13#8, .data 0xFF#8, .cmd 0x12#8, .poll false], .fast, 0x10#8) := by
  decide +kernel

theorem test_picclear_timeout :
    seen (exec .picclear { powered .fast with cfg := { small 8 1 with pollCeilingMs := some 0 }, busyRest := false }) =
      some ([.cmd 0x10#8, .data 0xFF#8, .cmd 0x13#8, .data 0xFF#8, .cmd 0x12#8, .poll true], .fast, 0x14#8) := by
  decide +kernel

/-! ### The encoder and the engine -/

/-- V-ENC-3, V-ENC-2. -/
theorem test_enc1_dither :
    (got (exec (.enc1 true) (withFrame 4 4 (List.replicate 16 128#8)))).map (fun t => (t.plane1, t.trace, t.hstat)) =
      some (Memory.ofList [0xD0#8, 0x20#8, 0xD0#8, 0x30#8], [], 0x00#8) := by decide +kernel

theorem test_enc1 : encode1bit (small 4 4) (List.replicate 16 128#8) false = [0xF0#8, 0xF0#8, 0xF0#8, 0xF0#8] ∧
    encode1bit (small 4 4) (List.replicate 16 127#8) false = [0x00#8, 0x00#8, 0x00#8, 0x00#8] := by decide +kernel

/-- V-ENC-4, V-ENC-8. -/
theorem test_enc4 :
    (got (exec .enc4 (withFrame 4 4 (List.replicate 16 128#8)))).map (fun t => t.plane2) =
      some (Memory.ofList [0xA6#8, 0x59#8, 0xA6#8, 0x5A#8]) := by decide +kernel

theorem test_enc4_pad : encode4gray (small 5 1) [255#8, 170#8, 85#8, 0#8, 255#8] = [0xE4#8, 0xC0#8] := by decide +kernel

/-- V-ENC-5: flip and bit order; V-ENC-6: pad bits. -/
theorem test_flip_and_pad :
    encode1bit (small 8 2) ([0#8, 255#8] ++ List.replicate 6 0#8 ++ List.replicate 8 255#8) false = [0xFF#8, 0x40#8] ∧
      encode1bit (small 10 1) (List.replicate 10 255#8) false = [0xFF#8, 0xC0#8] := by decide +kernel

/-- V-ENC-7: breakpoints and the two maps. -/
theorem test_breakpoints :
    encode1bit (small 8 1) [63#8, 64#8, 127#8, 128#8, 191#8, 192#8, 0#8, 255#8] false = [0x1D#8] ∧
      encode4gray (small 8 1) [63#8, 64#8, 127#8, 128#8, 191#8, 192#8, 0#8, 255#8] = [0x16#8, 0xB3#8] := by
  decide +kernel

/-- V-ENC-10: no clamp between dithering and bucketing. -/
theorem test_no_clamp :
    encode1bit (small 3 2) [0#8, 0#8, 0#8, 0#8, 127#8, 255#8] true = [0x20#8, 0x00#8] ∧
      encode4gray (small 3 2) [0#8, 0#8, 0#8, 0#8, 127#8, 255#8] = [0x1C#8, 0x00#8] := by decide +kernel

/-- V-DIT-1. -/
theorem test_dither :
    (got (exec .dither (withFrame 4 4 (List.replicate 16 128#8)))).map (fun t => t.work) =
      some (Memory.ofList [q 128 0, q 170 0, q 85 0, q 17763 7, q 961 3, q 85 0, q 170 0, q 3931647 15,
        q 275389 11, q 170 0, q 85 0, q 4477587 15, q 1988661 14, q 15892973 17, q 2178135 14, q 8482325 16]) := by
  decide +kernel

/-- V-DIT-3: a tie, under both rules. -/
theorem test_tie :
    workOfDither (small 4 2) [10#8, 93#8, 39#8, 20#8, 30#8, 40#8, 50#8, 60#8] =
      [q 10 0, q 85 0, q 0 0, q 1235 5, q 63 1, q 1615 5, q 2041 5, q 2005 5] ∧
    workOfDither { small 4 2 with roundTie := .away } [10#8, 93#8, 39#8, 20#8, 30#8, 40#8, 50#8, 60#8] =
      [q 10 0, q 85 0, q 85 0, q 45 5, q 63 1, q 1105 5, q 1191 5, q 1835 5] := by decide +kernel

/-- V-DIT-2, V-DIT-5, V-DIT-4: the weights; a negative border value; nothing to visit. -/
theorem test_weights :
    workOfDither (small 3 2) (List.replicate 6 100#8) =
      [q 100 0, q 85 0, q 1705 4, q 1645 4, q 1675 4, q 1615 4] ∧
    workOfDither (small 3 2) [0#8, 43#8, 0#8, 255#8, 255#8, 255#8] =
      [q 0 0, q 85 0, q (-147) 3, q 1977 3, q 1935 3, q 2019 3] ∧
    workOfDither (small 2 3) [1#8, 2#8, 3#8, 4#8, 5#8, 6#8] = [q 1 0, q 2 0, q 3 0, q 4 0, q 5 0, q 6 0] := by
  decide +kernel

/-- R133: 0.5 → 0, 1.5 → 2, 2.5 → 2, 3.5 → 4, −0.5 → −0. -/
theorem test_rint :
    [q 1 1, q 3 1, q 5 1, q 7 1].map (F32.rint .even) = [q 0 0, q 2 0, q 2 0, q 4 0] ∧
      F32.rint .even (q (-1) 1) = ⟨true, 0⟩ ∧ F32.rint .away (q (-1) 1) = q (-1) 0 := by decide +kernel

/-- R137: the other arithmetic it names, exact operations rounded on the store: 100 loses 15/16 to its lower right
neighbour either way, and a value between two binary32 values is stored as the nearer. -/
theorem test_arith :
    workOfDither { small 3 2 with arith := .roundedAtStore } (List.replicate 6 100#8) =
      [q 100 0, q 85 0, q 1705 4, q 1645 4, q 1675 4, q 1615 4] ∧
    (⟨false, 1, 3⟩ : Exact).toF32 = q 11184811 25 := by decide +kernel

/-! ### The controller, on an 8×1 block -/

/-- P1: the first word, and the second, whose old plane is the first word's new plane. -/
theorem test_upd1 :
    seen (exec (.upd1 false) (powered .uninit)) =
      some ([.cmd 0x04#8, .poll false, .cmd 0xE0#8, .data 0xA0#8, .cmd 0xE5#8, .data 0xA5#8, .cmd 0x10#8, .data 0xFF#8,
        .cmd 0x13#8, .data 0x1D#8, .cmd 0x12#8, .poll false], .fast, 0x10#8) ∧
    seen (exec (.upd1 false) { powered .fast with
      old := Memory.ofList [0x80#8], oldValid := true, lastMode := .oneBit false }) =
      some ([.cmd 0x04#8, .poll false, .cmd 0xE0#8, .data 0xB0#8, .cmd 0xE5#8, .data 0xB5#8, .cmd 0x10#8, .data 0x80#8,
        .cmd 0x13#8, .data 0x1D#8, .cmd 0x12#8, .poll false], .partialMode, 0x30#8) := by decide +kernel

/-- P3: the transition from 4-gray; P5: a failure inside the new plane, after which what `init_partial()` wrote is
undone and the sent bytes are not. -/
theorem test_upd1_transition_and_failure :
    seen (exec (.upd1 true) { powered .sleeping with lastMode := .fourGray }) =
      some ([.cmd 0x04#8, .poll false, .cmd 0xE0#8, .data 0xA0#8, .cmd 0xE5#8, .data 0xA5#8, .cmd 0x10#8, .data 0xFF#8,
        .cmd 0x13#8, .data 0xFF#8, .cmd 0x12#8, .poll false, .cmd 0x10#8, .data 0xFF#8, .cmd 0x13#8, .data 0x1D#8,
        .cmd 0x12#8, .poll false], .fast, 0x10#8) ∧
    seen (exec (.upd1 false) { powered .fast with
      old := Memory.ofList [0x80#8], oldValid := true, lastMode := .oneBit false, xferFails := [17] }) =
      some ([.cmd 0x04#8, .poll false, .cmd 0xE0#8, .data 0xB0#8, .cmd 0xE5#8, .data 0xB5#8, .cmd 0x10#8, .data 0x80#8,
        .cmd 0x13#8, .fail], .fast, 0x12#8) := by decide +kernel

/-- P2: three polls, asleep at the end, `LAST_MODE` = 3. -/
theorem test_upd4 :
    (got (exec .upd4 (powered .uninit))).map
      (fun t => ((abstractTrace t.trace).drop 33, t.panelState, t.lastMode, t.oldValid)) =
      some ([.poll false, .cmd 0x10#8, .data 0x1D#8, .cmd 0x13#8, .data 0x65#8, .cmd 0x12#8, .poll false, .cmd 0x02#8,
        .poll false, .cmd 0x07#8, .data 0xA5#8], .sleeping, .fourGray, false) := by decide +kernel

/-- R155, its example. -/
theorem test_clear :
    (got (exec (.clear true) { powered .partialMode with oldValid := true })).any (fun t =>
      abstractTrace t.trace == [.cmd 0x10#8, .data 0xFF#8, .cmd 0x13#8, .data 0xFF#8, .cmd 0x12#8, .poll false,
        .cmd 0x02#8, .poll false, .cmd 0x07#8, .data 0xA5#8] &&
      t.hstat == 0x50#8 && !t.oldValid && t.cache == Memory.ofList (List.replicate 8 255#8) &&
      t.lastMode == .oneBit false) = true := by decide +kernel

/-- V-CTL-1, V-CTL-2. -/
theorem test_reflush_empty : seen (exec .reflush (powered .fast)) = some ([], .fast, 0x16#8) := by decide +kernel

theorem test_reflush_deinit :
    (got (exec .reflush { powered .deinit with
      cache := Memory.ofList (List.replicate 8 7#8), cacheValid := true, lastMode := .oneBit true })).map
      (fun t => (t.trace, t.hstat, t.frame)) = some ([], 0x66#8, Memory.ofList (List.replicate 8 7#8)) := by decide +kernel

/-- V-ANI-1: `STOP` set before the first frame. -/
theorem test_animation_stopped :
    (got (step { powered .fast with host := [.animTurn []], anim := true, stop := true })).map
      (fun t => (t.trace, t.panelState, t.stop, t.anim)) = some ([], .fast, false, false) := by decide +kernel

/-! ### Fetching -/

/-- A word of the table runs as the next step: a host word at the port, a wire command at the sequencer's position. -/
theorem test_fetch :
    seen (step ((block 4 4).withFetchWord 8 0x50)) = some ([.release], .deinit, 0x60#8) ∧
      seen (step ((block 4 4).withFetchWord 8 0x07)) = some ([.cmd 0x07#8, .data 0xA5#8], .uninit, 0x00#8) := by
  decide +kernel

/-- R75: the pseudo-operation's expansion. -/
theorem test_update_call :
    (HostCall.updateOneBit [7#8] true).moves = [.writeFrame 0 [7#8], .word 0b11000001#8, .awaitRun] := by decide

/-! ### Witnesses: for each obligation with hypotheses, a concrete case that meets them -/

/-- The block stands at the poll of its operation: `CLEAR` on an 8×1 block after one busy answer. -/
def atPoll (ceiling : Option Nat) (elapsed : Nat) : State :=
  { powered .fast with
    cfg := { small 8 1 with pollCeilingMs := ceiling }
    run := true
    seqPos := [(.awaitNotBusy, 2), (.word .picdisp, 10), (.word .picclear, 0), (.word (.clear false), 0)]
    cursor := some (.clear false, 34)
    pollElapsed := elapsed
    saved := some (powered .fast).snapshot }

theorem atPoll_place (c : Option Nat) (e : Nat) :
    (atPoll c e).run = true ∧ (atPoll c e).host = [] ∧ (atPoll c e).own = true ∧ (atPoll c e).transportGood ∧
      (atPoll c e).cursor = some (.clear false, 34) ∧ AtPoll (.clear false) 34 :=
  ⟨rfl, rfl, rfl, rfl, rfl, trivial⟩

theorem witness_DecodeAndEncodeAgree :
    (Instr.wTuneE0 .fast).format = .wire ∧ (Instr.wTuneE0 .fast).inContext ⟨.fast, .gray⟩ = true ∧
      decode .host ⟨.fast, .gray⟩ 0xE1#8 = some (.clear true) ∧
      decode .wire ⟨.fast, .gray⟩ 0xE0#8 = some (.wTuneE0 .fast) := by decide

theorem witness_WireStreamRoundTrip : decodeStream [(false, 0x07#8), (true, 0xA5#8)] = some [(0x07#8, [0xA5#8])] := by
  decide

theorem witness_ReservedWordSetsErrOnly :
    (block 4 4).run = false ∧ { block 4 4 with host := [.word 0xC2#8, .tick] }.host = .word 0xC2#8 :: [.tick] ∧
      (0xC2#8).extractLsb' 1 3 ≠ 0#3 ∧
      (0xD1#8).getLsbD 0 = true ∧ (0xD1#8).extractLsb' 4 4 ∉ [0x9#4, 0xC#4, 0xE#4] := by decide

theorem witness_WordWhileRunningIsDiscarded :
    { atPoll none 0 with host := [.word 0x10#8] }.run = true ∧
      { atPoll none 0 with host := [.word 0x10#8] }.host = .word 0x10#8 :: [] ∧
      { atPoll none 0 with host := [.writeStop true] }.host = .writeStop true :: [] := ⟨rfl, rfl, rfl⟩

theorem witness_StepRunsTheDecodedWord :
    (block 4 4).run = false ∧ { block 4 4 with host := [.word 0x91#8] }.host = .word 0x91#8 :: [] ∧
      decodeHost 0x91#8 = some (.enc1 true) ∧ (Instr.enc1 true).wf (small 4 4) = true ∧
      decodeHost 0xC0#8 = some (.upd1 false) ∧ (Instr.upd1 false).wf (small 240 416) = true := by decide

/-- A wire command at the sequencer's position. -/
def atWire (i : Instr) (fails : List Nat) : State :=
  { powered .fast with
    run := true, seqPos := [(.word i, 0)], cursor := some (i, 0), saved := some (powered .fast).snapshot, xferFails := fails }

/-- The three clauses: a failed transfer, a command no poll follows, a command a poll follows. -/
theorem witness_StepRunsTheWireCommand :
    (∃ t, exec .wPll (atWire .wPll [1]) = .next t ∧ (!t.run) = true) ∧
    (∃ t, exec .wPll (atWire .wPll []) = .next t ∧ t.run = true) ∧ encode .wPll ∉ [0x02#8, 0x04#8, 0x12#8] ∧
    (∃ t, exec .wPowerOn (atWire .wPowerOn []) = .next t ∧ t.run = true) ∧
      encode .wPowerOn ∈ [0x02#8, 0x04#8, 0x12#8] ∧
    (atWire .wPll []).run = true ∧ (atWire .wPll []).host = [] ∧ (atWire .wPll []).cursor = some (.wPll, 0) ∧
      Instr.wPll.format = .wire :=
  ⟨next_of_got (by decide +kernel), next_of_got (by decide +kernel), by decide, next_of_got (by decide +kernel),
    by decide, rfl, rfl, rfl, rfl⟩

theorem witness_ResetStateIsTheListed :
    { atPoll none 0 with host := [.reset] }.host = .reset :: [] ∧
      ∃ t, step { atPoll none 0 with host := [.reset] } = .next t ∧ (!t.run) = true :=
  ⟨rfl, next_of_got (by decide +kernel)⟩

theorem witness_BufferReadsAndWrites : (Memory.ofList [1#8, 2#8] : Memory Byte).wf := by decide

/-- At the boundary: a write that ends with the buffer, and one that ends one past it. -/
theorem witness_HostFrameWrites :
    (block 4 4).run = false ∧ 14 + [1#8, 2#8].length ≤ (block 4 4).cfg.samples ∧
      (block 4 4).cfg.samples < 15 + [1#8, 2#8].length ∧
      { atPoll none 0 with host := [.writeFrame 0 [1#8]] }.run = true ∧
      { atPoll none 0 with host := [.writeFrame 0 [1#8]] }.host = .writeFrame 0 [1#8] :: [] := by decide

/-- A failure at the first byte and one at the last; one at the first event of each other primitive, and at the last of a
command; a block without its lines. -/
theorem witness_BulkWriteIsSingleWrites :
    { block 4 4 with xferFails := [0] }.xferFails = 0 :: [] ∧ { block 4 4 with xferFails := [1] }.xferFails = 1 :: [] ∧
      (powered .deinit).transportGood ∧ { powered .deinit with own := false }.own = false ∧
      { powered .deinit with own := false, xferFails := [0] }.xferFails = 0 :: [] ∧
    (block 4 4).own = true ∧ (block 4 4).transportGood ∧ 0 ≤ [7#8].length ∧ [7#8].length ≤ [7#8].length ∧
      { block 4 4 with xferFails := [1] }.xferFails = (1 + 0) :: [] ∧
      { block 4 4 with xferFails := [2] }.xferFails = (1 + [7#8].length) :: [] :=
  ⟨rfl, rfl, rfl, rfl, rfl, rfl, rfl, by decide, by decide, rfl, rfl⟩

theorem witness_ConfigurationCommandsSent : (block 240 416).own = true ∧ (block 240 416).transportGood := ⟨rfl, rfl⟩

theorem witness_LutAndTuneCommandsSent : (powered .gray4).own = true ∧ (powered .gray4).transportGood := ⟨rfl, rfl⟩

theorem witness_PowerAndRefreshCommandsSent : (powered .fast).own = true ∧ (powered .fast).transportGood := ⟨rfl, rfl⟩

/-- Nothing written yet, for the white forms; with a retained old plane, and without one; the planes of the others. -/
theorem witness_PlaneTransfersSent :
    (block 8 1).own = true ∧ (block 8 1).transportGood ∧ (block 8 1).plane1 = [] ∧ (block 8 1).plane2 = [] ∧
    (powered .fast).own = true ∧ (powered .fast).transportGood ∧ (powered .fast).oldValid = false ∧
      (powered .fast).plane1.readAll (powered .fast).cfg.plane1Bytes = some [0x3C#8] ∧
      (powered .fast).plane2.readAll (powered .fast).cfg.plane2Bytes = some [0x16#8, 0xB3#8] ∧
      { powered .fast with old := Memory.ofList [9#8], oldValid := true }.old.readAll 1 = some [9#8] :=
  ⟨rfl, rfl, rfl, rfl, rfl, rfl, rfl, by decide, by decide, by decide⟩

/-- A failure at the first byte of a plane, which is also its last: of `PLANE1`, of a white plane, of the halves of `PLANE2`. -/
theorem witness_FailureInsideAPlane :
    { powered .fast with xferFails := [3] }.own = true ∧ (powered .fast).oldValid = false ∧
      0 < (List.replicate (powered .fast).cfg.plane1Bytes (powered .fast).cfg.whiteByte).length ∧
      (powered .fast).plane2.readAll 2 = some [0x16#8, 0xB3#8] ∧ (powered .fast).cfg.plane2Bytes = 2 ∧
      0 < (split4 (powered .fast).cfg [0x16#8, 0xB3#8]).1.length ∧
      0 < (split4 (powered .fast).cfg [0x16#8, 0xB3#8]).2.length ∧
      { powered .fast with xferFails := [3] }.plane1.readAll 1 = some [0x3C#8] ∧
      (powered .fast).cfg.plane1Bytes = 1 ∧ 0 < [0x3C#8].length ∧
      { powered .fast with xferFails := [3] }.xferFails = (3 + 0) :: [] := by decide

theorem witness_NoOwnershipIsTransportError :
    { powered .fast with own := false }.own = false ∧ (Instr.wNewData .pair).format = .wire := ⟨rfl, rfl⟩

/-- A "PSE" cell, and an "ok" cell in which the operation completes. -/
theorem witness_LegalityMatrix :
    isSequencerOp .sleep = true ∧ (powered .fast).idle ∧ (powered .fast).issuer = .foreground ∧
      legalIn .sleep (powered .sleeping).panelState = false ∧ legalIn .sleep (powered .fast).panelState = true ∧
      ∃ t, exec .sleep (powered .fast) = .next t ∧ (!t.run && t.err == .none) = true :=
  ⟨rfl, ⟨rfl, rfl, rfl, rfl⟩, rfl, rfl, rfl, next_of_got (by decide +kernel)⟩

/-- An idle panel answers every coming poll with "not busy". -/
theorem powered_idle (p : PanelState) (ns : List Nat) (h : ∀ n ∈ ns, n = 0) : (powered p).busyFor ns := by
  suffices ∀ k, (powered p).answersFrom k ns from this 0
  induction ns with
  | nil => exact fun _ => trivial
  | cons n ns ih =>
    have h0 : n = 0 := h n (by simp)
    subst h0
    exact fun k => ⟨fun j hj => by omega, rfl, fun c _ => .inl rfl, ih (fun n hn => h n (by simp [hn])) _⟩

/-- A panel that answers busy twice, then not busy, with a ceiling that the second interval just does not reach. -/
def busyTwice (p : PanelState) : State :=
  { powered p with cfg := { small 8 1 with pollCeilingMs := some 11 }, busyIn := [false, false, true] }

theorem busyTwice_busyFor (p : PanelState) : (busyTwice p).busyFor [2] :=
  ⟨fun j hj => by interval_cases j <;> rfl, rfl, fun c hc => by cases hc; exact .inr (by show (2 - 1) * 10 < 11; decide), trivial⟩

/-- A good transport; and each place it can fail, the lines held and not held. -/
theorem witness_HardwareResetResult : (powered .deinit).run = false ∧ (powered .deinit).transportGood ∧
    { powered .deinit with own := false }.own = false ∧ acquireEvents { powered .deinit with own := false } = [.acquire] ∧
    acquireEvents (powered .fast) = [] ∧
    ∀ k ∈ [0, 1, 2, 3], ∃ ks, { powered .deinit with own := false, xferFails := [k] }.xferFails = k :: ks :=
  ⟨rfl, rfl, rfl, rfl, rfl, fun _ _ => ⟨[], rfl⟩⟩

/-- On an idle panel, and on a busy one. -/
theorem witness_InitFastResult :
    (powered .sleeping).run = false ∧ (powered .sleeping).transportGood ∧ (powered .sleeping).busyFor [0] ∧
      (busyTwice .sleeping).busyFor [2] ∧ (busyTwice .sleeping).host = [] :=
  ⟨rfl, rfl, powered_idle _ _ (by simp), busyTwice_busyFor _, rfl⟩

theorem witness_InitPartialResult :
    (busyTwice .partialMode).run = false ∧ (busyTwice .partialMode).own = true ∧
      ((busyTwice .partialMode).panelState = .fast ∨ (busyTwice .partialMode).panelState = .partialMode) ∧
      (busyTwice .partialMode).transportGood ∧ (busyTwice .partialMode).busyFor [2] ∧
      (busyTwice .partialMode).host = [] := ⟨rfl, rfl, .inr rfl, rfl, busyTwice_busyFor _, rfl⟩

theorem witness_Init4grayResult :
    (busyTwice .uninit).run = false ∧ (busyTwice .uninit).transportGood ∧ (busyTwice .uninit).busyFor [2] ∧
      (busyTwice .uninit).host = [] := ⟨rfl, rfl, busyTwice_busyFor _, rfl⟩

theorem witness_SleepResult :
    (busyTwice .gray4).run = false ∧ (busyTwice .gray4).own = true ∧
      (busyTwice .gray4).panelState ∈ [.fast, .full, .partialMode, .gray4] ∧ (busyTwice .gray4).transportGood ∧
      (busyTwice .gray4).busyFor [2] ∧ (busyTwice .gray4).host = [] :=
  ⟨rfl, rfl, by decide, rfl, busyTwice_busyFor _, rfl⟩

/-- Every clause; of the last, events that meet all three hypotheses. -/
theorem witness_DeinitResult : (powered .fast).run = false ∧ (powered .fast).own = true ∧
    (∀ v, .line .dc v ∉ [Event.delay 5, .poll true]) ∧ (∀ v, .line .rst v ∉ [Event.delay 5, .poll true]) ∧
    ∀ b, .cmd b ∉ [Event.delay 5, .poll true] ∧ .data b ∉ [Event.delay 5, .poll true] := by
  simp [powered, withFrame, block, State.reset]

/-- Each of the three clauses; the first with and without a retained old plane. -/
theorem witness_TransferResults :
    (∀ p, (powered p).run = false ∧ (powered p).own = true ∧ (powered p).transportGood ∧ (powered p).busyFor [0]) ∧
      (powered .fast).panelState ∈ [.fast, .full, .partialMode] ∧ (powered .fast).oldValid = false ∧
      { powered .fast with old := Memory.ofList [9#8], oldValid := true }.old.readAll 1 = some [9#8] ∧
      (powered .fast).plane1.readAll (powered .fast).cfg.plane1Bytes = some [0x3C#8] ∧
      (powered .gray4).panelState = .gray4 ∧
      (powered .gray4).plane2.readAll (powered .gray4).cfg.plane2Bytes = some [0x16#8, 0xB3#8] :=
  ⟨fun p => ⟨rfl, rfl, rfl, powered_idle p _ (by simp)⟩, by decide, rfl, by decide, by decide, rfl, by decide⟩

/-- Every clause, the busy ones at the boundary of the ceiling; the failing read where the ceiling is reached, and the reads
that succeed on a transport that fails later and on one that never does. -/
theorem witness_PollLoopTurn :
    { atPoll (some 20) 20 with xferFails := [0] }.own = true ∧
      { atPoll (some 20) 20 with xferFails := [0] }.xferFails = 0 :: [] ∧
      { atPoll none 0 with own := false }.own = false ∧
      (atPoll (some 20) 20).letsOneThrough [] ∧ { atPoll (some 20) 20 with xferFails := [1] }.letsOneThrough [0] ∧
    { atPoll (some 20) 20 with busyRest := false }.panelBusy = true ∧ (atPoll (some 20) 20).cfg.pollCeilingMs = some 20 ∧
      20 ≤ (atPoll (some 20) 20).pollElapsed ∧
      { atPoll (some 20) 19 with busyRest := false }.panelBusy = true ∧ (atPoll (some 20) 19).pollElapsed < 20 ∧
      (atPoll (some 20) 0).panelBusy = false :=
  ⟨rfl, rfl, rfl, .inl ⟨rfl, rfl⟩, .inr ⟨0, [], rfl, rfl⟩, by decide⟩

/-- A panel that stays busy, and a ceiling. -/
def stuck (ceiling : Nat) : State :=
  { powered .fast with cfg := { small 8 1 with pollCeilingMs := some ceiling }, busyRest := false }

/-- The first clause in states that PICCLEAR reaches, with one sample to come and with more; the second at the least
ceiling and at a larger one. -/
theorem witness_PollCeilingBoundsTheAwait :
    (∀ c ∈ [10, 25], ∃ u, exec .picclear (stuck c) = .next u ∧
      (u.run && u.host == [] && u.own && u.xferFails == [] && u.busyIn == [] && u.busyRest == u.cfg.busyActiveLevel &&
        u.cursor == some (.picclear, 13) && u.cfg.pollCeilingMs == some c && u.pollElapsed == 10) = true) ∧
    AtPoll .picclear 13 ∧
    ∀ c ∈ [0, 25], Instr.picclear ∈ [.initfast, .initpart, .init4g, .sleep, .picclear] ∧
      legalIn .picclear (stuck c).panelState = true ∧ (stuck c).run = false ∧ (stuck c).host = [] ∧
      (stuck c).own = true ∧ (stuck c).transportGood ∧ (stuck c).stuckBusy ∧ (stuck c).cfg.pollCeilingMs = some c ∧
      1 ≤ (stuck c).cfg.pollIntervalMs := by
  refine ⟨fun c hc => next_of_got ?_, trivial, fun c _ => ⟨by decide, rfl, rfl, rfl, rfl, rfl, ⟨rfl, rfl⟩, rfl,
    by show 1 ≤ 10; decide⟩⟩
  revert c; decide +kernel

theorem witness_UnboundedAwaitNeverEnds :
    { atPoll none 0 with busyRest := false }.stuckBusy ∧ (atPoll none 0).cfg.pollCeilingMs = none := ⟨⟨rfl, rfl⟩, rfl⟩

theorem witness_FlipReversesTheRows : [1#8, 2#8, 3#8, 4#8, 5#8, 6#8].length = 3 * 2 ∧ 2 < 3 ∧ 1 < 2 := by decide

/-- The boundary of each bucket. -/
theorem witness_BucketsByBreakpoint :
    (q 8191 7).toInt < 64 * 2 ^ 149 ∧ 64 * 2 ^ 149 ≤ (q 64 0).toInt ∧ (q 16383 7).toInt < 128 * 2 ^ 149 ∧
      128 * 2 ^ 149 ≤ (q 128 0).toInt ∧ (q 24575 7).toInt < 192 * 2 ^ 149 ∧ 192 * 2 ^ 149 ≤ (q 192 0).toInt := by
  decide +kernel

theorem witness_PackingPlaces :
    (List.replicate 10 true).length = (small 10 1).samples ∧ (List.replicate 10 3#2).length = (small 10 1).samples ∧
      9 < (small 10 1).w ∧ 0 < (small 10 1).h := by decide

theorem witness_EncodeOfDecodedPlane : (List.replicate 10 200#8).length = (small 10 1).samples := by decide

theorem witness_FrameOperationResults :
    (powered .uninit).run = false ∧ (powered .uninit).frame.readAll (powered .uninit).cfg.samples =
      some [63#8, 64#8, 127#8, 128#8, 191#8, 192#8, 0#8, 255#8] := by decide

/-- Every clause; of the frame the last sample is the one not written. -/
theorem witness_UnwrittenFrameFaults :
    (withFrame 4 1 [1#8, 2#8, 3#8]).run = false ∧ (withFrame 4 1 [1#8, 2#8, 3#8]).frame.lacks 4 ∧
      (withFrame 4 1 [1#8, 2#8, 3#8]).cfg.samples = 4 ∧
    (busyTwice .sleeping).busyFor [2] ∧ (busyTwice .sleeping).panelState ≠ .deinit ∧ (busyTwice .sleeping).host = [] ∧
      { busyTwice .sleeping with frame := [] }.frame.lacks (busyTwice .sleeping).cfg.samples ∧
    (powered .fast).own = true ∧ (powered .fast).transportGood ∧ (powered .fast).run = false ∧
      { powered .fast with oldValid := true }.old.lacks (powered .fast).cfg.plane1Bytes ∧
      { powered .fast with plane1 := [] }.plane1.lacks (powered .fast).cfg.plane1Bytes ∧
      { powered .gray4 with plane2 := [(0, 1#8)] }.plane2.lacks (powered .gray4).cfg.plane2Bytes ∧
      { powered .fast with cacheValid := true }.cache.lacks (powered .fast).cfg.samples :=
  ⟨rfl, ⟨3, by decide, rfl⟩, rfl, busyTwice_busyFor _, by decide, rfl, ⟨0, by decide, rfl⟩, rfl, rfl, rfl,
    ⟨0, by decide, rfl⟩, ⟨0, by decide, rfl⟩, ⟨1, by decide, rfl⟩, ⟨0, by decide, rfl⟩⟩

theorem witness_DitherScanOrder : 2 < 3 ∧ 1 < 2 ∧ (1, 0) ∈ ditherScan 3 2 := by decide

theorem witness_DitherVisitDistributesTheError :
    1 ≤ 1 ∧ 1 + 1 < 3 ∧ (0 + 1) * 3 + 1 + 1 < (Array.replicate 6 (q 100 0)).size := by decide

theorem witness_VisitedElementsAreLevels :
    (List.replicate 6 (q 100 0)).length = 3 * 2 ∧ 1 ≤ 1 ∧ 1 + 2 ≤ 3 ∧ 0 + 2 ≤ 2 := by decide

/-- The divisor 85; a denominator; a tie of `rint`; binary32 operands. -/
theorem witness_RoundingIsToNearestBinary32 :
    (q 85 0).mag ≠ 0 ∧ 0 < (q 1 1).toExact.den ∧ 2 * ((q 1 1).toInt - 0 * 2 ^ 149).natAbs = 2 ^ 149 ∧
      (small 4 4).arith = .binary32 ∧ (q 100 0).Representable ∧ (q 85 0).Representable := by
  unfold F32.Representable
  decide +kernel

/-- The four cases: from 4-gray, from `SLEEPING`, fresh, not fresh; the old plane retained in the last; a busy panel. -/
theorem witness_Update1bitResult :
    (∀ p, (powered p).run = false ∧ (powered p).own = true ∧ (powered p).transportGood ∧ (powered p).busyFor [0, 0, 0] ∧
      (powered p).busyFor [0, 0] ∧ (powered p).busyFor [0] ∧
      (powered p).frame.readAll (powered p).cfg.samples = some [63#8, 64#8, 127#8, 128#8, 191#8, 192#8, 0#8, 255#8] ∧
      (powered p).oldValid = false) ∧
    { powered .sleeping with lastMode := .fourGray }.lastMode = .fourGray ∧
    ((powered .sleeping).panelState = .uninit ∨ (powered .sleeping).panelState = .sleeping) ∧
    (powered .fast).fresh = false ∧ { powered .full with fresh := true }.fresh = true ∧
    { powered .fast with old := Memory.ofList [9#8], oldValid := true }.old.readAll 1 = some [9#8] ∧
    { busyTwice .partialMode with fresh := true }.busyFor [2] ∧ (busyTwice .partialMode).host = [] :=
  ⟨fun p => ⟨rfl, rfl, rfl, powered_idle p _ (by simp), powered_idle p _ (by simp), powered_idle p _ (by simp),
      by cases p <;> decide, rfl⟩, rfl, .inr rfl, rfl, rfl, by decide, busyTwice_busyFor .partialMode, rfl⟩

theorem witness_Update4bitResult :
    (powered .fast).run = false ∧ (powered .fast).panelState ≠ .deinit ∧ (powered .fast).transportGood ∧
      (powered .fast).busyFor [0, 0, 0] ∧ (powered .fast).host = [] ∧
      (powered .fast).frame.readAll (powered .fast).cfg.samples =
        some [63#8, 64#8, 127#8, 128#8, 191#8, 192#8, 0#8, 255#8] :=
  ⟨rfl, by decide, rfl, powered_idle _ _ (by simp), rfl, by decide⟩

/-- Both cases, with and without power-off. -/
theorem witness_ClearResult :
    ∀ p ∈ [PanelState.partialMode, .gray4], (powered p).run = false ∧ (powered p).panelState ≠ .deinit ∧
      (powered p).own = true ∧ (powered p).transportGood ∧ (powered p).busyFor [0] ∧ (powered p).busyFor [0, 0] ∧
      (powered p).busyFor [0, 0, 0] := by
  intro p hp
  refine ⟨rfl, ?_, rfl, rfl, powered_idle p _ (by simp), powered_idle p _ (by simp), powered_idle p _ (by simp)⟩
  simp only [List.mem_cons, List.not_mem_nil, or_false] at hp
  rcases hp with rfl | rfl <;> decide

/-- A block with a valid cache. -/
def cached (m : LastMode) : State :=
  { powered .fast with cache := Memory.ofList (List.replicate 8 9#8), cacheValid := true, lastMode := m }

/-- Both modes complete, at once and after a busy answer. -/
theorem witness_ReflushIsTheUpdateOfTheCache :
    (cached .fourGray).idle ∧ (cached .fourGray).issuer = .foreground ∧ (powered .fast).cacheValid = false ∧
      (cached .fourGray).cache.readAll (cached .fourGray).cfg.samples = some (List.replicate 8 9#8) ∧
      (cached .fourGray).host = [] ∧
      (∃ t, thenSteps 1 (exec (.upd1 true) { cached (.oneBit true) with
        frame := Memory.ofList (List.replicate 8 9#8), busyIn := [false, true] }) = .next t ∧ (!t.run) = true) ∧
      ∃ t, thenSteps 0 (exec .upd4 { cached .fourGray with frame := Memory.ofList (List.replicate 8 9#8) }) = .next t ∧
        (!t.run) = true :=
  ⟨⟨rfl, rfl, rfl, rfl⟩, rfl, rfl, by decide, rfl, next_of_got (by decide +kernel), next_of_got (by decide +kernel)⟩

theorem witness_ReflushCompletes :
    (cached .fourGray).run = false ∧ (cached .fourGray).own = true ∧ (cached .fourGray).panelState ≠ .deinit ∧
      (cached .fourGray).panelState ≠ .full ∧ (cached .fourGray).transportGood ∧
      (cached .fourGray).busyFor [0, 0, 0] ∧ (cached .fourGray).cacheValid = true ∧ (cached .fourGray).lastMode ≠ .none ∧
      (cached .fourGray).cache.readAll (cached .fourGray).cfg.samples = some (List.replicate 8 9#8) ∧
      (cached .fourGray).oldValid = false :=
  ⟨rfl, rfl, by decide, by decide, rfl, powered_idle .fast [0, 0, 0] (by simp), rfl, by decide, by decide, rfl⟩

/-- The clear completes, and the reflush after it, on an 8×1 block whose cache held another frame: with power-off, the
panel busy once in the clear and once in the reflush. -/
theorem witness_ClearThenReflushIsBlank :
    (cached .fourGray).run = false ∧ (cached .fourGray).cfg.w % 8 = 0 ∧ (cached .fourGray).cfg.whiteByte = 0xFF#8 ∧
      (cached .fourGray).host = [] ∧
      ∃ t, thenSteps 1 (exec (.clear true) { cached .fourGray with busyIn := [false, true, true, false, true] }) = .next t ∧
        (!t.run && t.err == .none &&
          (got (thenSteps 1 (exec .reflush t))).any fun u => !u.run && u.err == .none) = true :=
  ⟨rfl, rfl, rfl, rfl, next_of_got (by decide +kernel)⟩

theorem witness_ControllerStateErrors :
    (powered .deinit).idle ∧ (powered .deinit).issuer = .foreground ∧ (powered .deinit).panelState = .deinit ∧
      (powered .full).idle ∧ (powered .full).issuer = .foreground ∧ (powered .full).panelState = .full ∧
      (powered .full).fresh = false ∧ (powered .full).lastMode ≠ .fourGray ∧
      (powered .full).frame.readAll (powered .full).cfg.samples =
        some [63#8, 64#8, 127#8, 128#8, 191#8, 192#8, 0#8, 255#8] :=
  ⟨⟨rfl, rfl, rfl, rfl⟩, rfl, rfl, ⟨rfl, rfl, rfl, rfl⟩, rfl, rfl, rfl, by decide, by decide⟩

/-- Every clause; the turn that issues an update on the native geometry. -/
theorem witness_AnimationTurn :
    { block 4 4 with host := [.startAnim] }.host = .startAnim :: [] ∧
      { powered .fast with host := [.animTurn []], anim := true, stop := true }.stop = true ∧
      { powered .fast with host := [.animTurn []], anim := true, stop := true }.run = false ∧
      (block 240 416).stop = false ∧ (List.replicate 99840 0#8).length = (block 240 416).cfg.samples ∧
      (block 240 416).cfg.native = true ∧
      { atPoll none 0 with issuer := .worker, anim := true, host := [.animTurn []] }.run = true ∧
      { atPoll none 0 with host := [.awaitRun] }.host = .awaitRun :: [] ∧
      { atPoll none 0 with anim := true, host := [.awaitAnim] }.host = .awaitAnim :: [] ∧
      { block 4 4 with anim := true, host := [.awaitAnim] }.stop = false :=
  ⟨rfl, rfl, rfl, rfl, by rw [List.length_replicate]; decide, by decide, rfl, rfl, rfl, rfl⟩

/-- Both clauses: an update refused at once, and one in flight that times out at its poll. -/
theorem witness_FailedAnimationUpdateEndsTheLoop :
    { powered .deinit with issuer := .worker, anim := true }.issuer = .worker ∧
      { powered .deinit with issuer := .worker, anim := true }.run = false ∧
      (∃ t, exec (.upd1 false) { powered .deinit with issuer := .worker, anim := true } = .next t ∧
        (!t.run && t.err != .none) = true) ∧
      (∀ rest, (atPoll (some 20) 20).host ≠ .reset :: rest) ∧
      ∃ t, step { atPoll (some 20) 20 with issuer := .worker, anim := true, busyRest := false } = .next t ∧
        (!t.run && t.err != .none) = true :=
  ⟨rfl, rfl, next_of_got (by decide +kernel), fun _ => (List.cons_ne_nil _ _).symm, next_of_got (by decide +kernel)⟩

/-- Both clauses: still in flight at a busy panel, and ended by a failed transfer. -/
theorem witness_ErrorRollsBack :
    (Instr.upd1 false).format = .host ∧ (powered .fast).run = false ∧
      (∃ t, exec (.upd1 false) { powered .fast with busyRest := false } = .next t ∧ t.run = true) ∧
      ∃ t, exec (.upd1 false) { powered .fast with xferFails := [12] } = .next t ∧ (!t.run && t.err != .none) = true :=
  ⟨rfl, rfl, next_of_got (by decide +kernel), next_of_got (by decide +kernel)⟩

/-- Both clauses: the panel still busy, and the ceiling reached. -/
theorem witness_ErrorRollsBackInFlight :
    (atPoll (some 20) 20).run = true ∧ (atPoll (some 20) 20).saved = some (powered .fast).snapshot ∧
      (∀ rest, (atPoll (some 20) 20).host ≠ .reset :: rest) ∧
      (∃ t, step { atPoll (some 20) 10 with busyRest := false } = .next t ∧ t.run = true) ∧
      ∃ t, step { atPoll (some 20) 20 with busyRest := false } = .next t ∧ (!t.run && t.err != .none) = true :=
  ⟨rfl, rfl, fun _ => List.cons_ne_nil _ _ |>.symm, next_of_got (by decide +kernel),
    next_of_got (by decide +kernel)⟩

theorem witness_QuietOperationsRaiseNothing :
    ∀ i ∈ [Instr.deinit, .enc1 true, .enc1 false, .enc4, .dither],
      (got (exec i { powered .uninit with xferFails := [0] })).isSome = true := by decide +kernel

theorem witness_NoTimeoutWithoutCeiling :
    (atPoll none 50).cfg.pollCeilingMs = none ∧ (atPoll none 50).err ≠ .panelTimeout ∧
      ∃ t, step { atPoll none 50 with busyRest := false } = .next t ∧ t.run = true :=
  ⟨rfl, by decide, next_of_got (by decide +kernel)⟩

/-- Every clause, at once and from a state in flight; events that may fail, in an operation that runs and in a step. -/
theorem witness_ErrorPlaceIsTheLastEvent :
    ((powered .fast).transportGood ∧ (∃ t, exec .hwreset (powered .fast) = .next t ∧
        decide (1 < fallibleIn (t.trace.drop (powered .fast).trace.length)) = true) ∧
      (atPoll none 0).transportGood ∧ ∃ t, step (atPoll none 0) = .next t ∧
        decide (0 < fallibleIn (t.trace.drop (atPoll none 0).trace.length)) = true) ∧
    (∃ t, exec .picclear { powered .fast with xferFails := [4] } = .next t ∧ (!t.run && t.err == .transport) = true) ∧
      (∃ t, exec .picclear { powered .fast with
        cfg := { small 8 1 with pollCeilingMs := some 0 }, busyRest := false } = .next t ∧
        (!t.run && t.err == .panelTimeout) = true) ∧
      (∃ t, step { atPoll none 0 with xferFails := [0] } = .next t ∧ (!t.run && t.err == .transport) = true) ∧
      (∃ t, step { atPoll (some 20) 20 with busyRest := false } = .next t ∧ (!t.run && t.err == .panelTimeout) = true) ∧
      ∀ rest, (atPoll none 0).host ≠ .reset :: rest :=
  ⟨⟨rfl, next_of_got (by decide +kernel), rfl, next_of_got (by decide +kernel)⟩, next_of_got (by decide +kernel),
    next_of_got (by decide +kernel), next_of_got (by decide +kernel), next_of_got (by decide +kernel),
    fun _ => (List.cons_ne_nil _ _).symm⟩

/-- The invariant holds in flight, not only at rest. -/
theorem atPoll_inv : (atPoll none 0).Inv := by
  have hs : (powered .fast).snapshot.Inv (small 8 1) :=
    ⟨by decide, ⟨by decide, by decide⟩, ⟨by decide, by decide⟩, by decide, by decide⟩
  refine ⟨⟨by decide, by decide⟩, ⟨by decide, by decide⟩, ⟨by decide, by decide⟩, ⟨by decide, by decide⟩, hs, ?_, ?_, ?_⟩
  · intro v hv
    cases hv
    exact hs
  · exact fun _ => ⟨rfl, .clear false, 34, rfl, trivial, by decide +kernel⟩
  · exact fun h => Bool.noConfusion h

theorem witness_StepKeepsInvariant : (atPoll none 0).Inv ∧ ∃ t, step (atPoll none 0) = .next t ∧ (!t.run) = true :=
  ⟨atPoll_inv, next_of_got (by decide +kernel)⟩

theorem witness_OnlyItsCommandBytesAreSent :
    (atPoll none 0).wireClean ∧ ∃ t, step (atPoll none 0) = .next t ∧ (!t.run) = true :=
  ⟨fun b hb => absurd hb (by simp [atPoll, powered, withFrame, block, State.reset]), next_of_got (by decide +kernel)⟩

/-- A step after which the lines are released. -/
theorem witness_LinesReleasedOnlyInDeinit :
    { block 4 4 with host := [.word 0x50#8] }.Inv ∧ { block 4 4 with host := [.word 0x50#8] }.own = true ∧
      ∃ t, step { block 4 4 with host := [.word 0x50#8] } = .next t ∧ (!t.own) = true := by
  have hs : (block 4 4).snapshot.Inv (small 4 4) :=
    ⟨by decide, ⟨by decide, by decide⟩, ⟨by decide, by decide⟩, by decide, by decide⟩
  have hi : { block 4 4 with host := [.word 0x50#8] }.Inv :=
    ⟨⟨by decide, by decide⟩, ⟨by decide, by decide⟩, ⟨by decide, by decide⟩, ⟨by decide, by decide⟩, hs,
      fun v hv => (by cases hv), fun h => Bool.noConfusion h, fun _ => ⟨rfl, rfl, rfl⟩⟩
  exact ⟨hi, rfl, next_of_got (by decide +kernel)⟩

theorem witness_TraceOnlyGrows :
    (∃ t, step (atPoll none 0) = .next t ∧ (!t.run) = true) ∧ ∀ rest, (atPoll none 0).host ≠ .reset :: rest :=
  ⟨next_of_got (by decide +kernel), fun _ => (List.cons_ne_nil _ _).symm⟩

/-- For a form of every line: the operations the lines leave out complete here. An operation in flight whose step waits, one
whose step completes it, and one whose step fails. -/
theorem witness_WhoWritesWhat :
    ((powered .fast).run = false ∧ (powered .fast).saved = none ∧
      ∀ i ∈ [Instr.hwreset, .picdisp, .enc1 true, .enc4, .dither, .upd1 true, .upd4, .clear true, .wPll],
        (got (exec i (powered .fast))).isSome = true) ∧
    (atPoll none 0).run = true ∧ (atPoll none 0).cursor = some (.clear false, 34) ∧
      (atPoll none 0).saved = some (powered .fast).snapshot ∧ (∀ rest, (atPoll none 0).host ≠ .reset :: rest) ∧
      (∃ t, step { atPoll none 0 with busyRest := false } = .next t ∧ t.run = true) ∧
      (∃ t, step (atPoll none 0) = .next t ∧ (!t.run && t.err == .none) = true) ∧
      ∃ t, step { atPoll none 0 with xferFails := [0] } = .next t ∧ (!t.run && t.err != .none) = true :=
  ⟨⟨rfl, rfl, by decide +kernel⟩, rfl, rfl, rfl, fun _ => (List.cons_ne_nil _ _).symm, next_of_got (by decide +kernel),
    next_of_got (by decide +kernel), next_of_got (by decide +kernel)⟩

end Sys2Proof.Tests
end

section
/-! PROOFS. The poll loop of an operation in flight, turn by turn, and what becomes of it on a stuck panel (R82, U11). -/

namespace Sys2Proof.Machine

theorem program_drop_of_atPoll {i : Instr} {n : Nat} (h : AtPoll i n) :
    (program i).drop n = .poll :: (program i).drop (n + 1) := by
  unfold AtPoll at h
  split at h
  · next hp =>
    obtain ⟨hn, hp⟩ := List.getElem?_eq_some_iff.mp hp
    rw [List.drop_eq_getElem_cons hn, hp]
  · exact h.elim

/-- With nothing scheduled, a step of an operation that stands at a poll begins with that poll. -/
theorem step_eq_runMicros_poll {s : State} {i : Instr} {n : Nat} (hh : s.host = []) (hc : s.cursor = some (i, n))
    (ha : AtPoll i n) : step s = runMicros i (.poll :: (program i).drop (n + 1)) n 0 s := by
  simp only [step, hh, resume, hc, program_drop_of_atPoll ha]

/-- The state after `k` turns of the poll loop that find the panel busy and go on (R82). -/
def State.afterBusyTurns (s : State) (k : Nat) : State :=
  { s.log (busyTurns s.cfg k) with
    busyIn := s.busyIn.drop k
    pollElapsed := s.pollElapsed + k * s.cfg.pollIntervalMs }

@[simp] theorem busyTurns_zero (p : Params) : busyTurns p 0 = [] := rfl

theorem State.afterBusyTurns_zero (s : State) : s.afterBusyTurns 0 = s := by
  simp [State.afterBusyTurns]

theorem State.afterBusyTurns_one_add (s : State) (k : Nat) :
    (s.afterBusyTurns 1).afterBusyTurns k = s.afterBusyTurns (k + 1) := by
  simp [State.afterBusyTurns, State.log, busyTurns_succ, levelAfter_append, Nat.succ_mul, Nat.add_comm,
    Nat.add_left_comm, Nat.add_assoc]

theorem State.afterBusyTurns_sample (s : State) (k j : Nat) : (s.afterBusyTurns k).sample j = s.sample (k + j) :=
  s.sample_drop _ k j rfl rfl rfl

/-- A step at a poll that reads "busy" below the ceiling is one busy turn, and the operation stands at the same poll. -/
theorem step_busyTurn {s : State} {i : Instr} {n : Nat} (hh : s.host = []) (hc : s.cursor = some (i, n))
    (ha : AtPoll i n) (ho : s.own = true) (hx : s.transportGood) (hb : s.sample 0 = true)
    (hl : ∀ c, s.cfg.pollCeilingMs = some c → s.pollElapsed < c) : step s = .next (s.afterBusyTurns 1) := by
  have hp : s.panelBusy = true := by rw [s.panelBusy_drop s 0 rfl rfl rfl, hb]
  have hw : (Micro.poll).run s = .wait (s.afterBusyTurns 1) := by
    simpa [Micro.run, State.afterBusyTurns, busyTurns_succ] using s.pollOnce_busy ho hx hp hl
  rw [step_eq_runMicros_poll hh hc ha, runMicros_wait i _ n hw, State.at, ← hc]
  rfl

theorem run_succ_of_step {s t : State} (k : Nat) (h : step s = .next t) :
    Host.Core.run core (k + 1) s = Host.Core.run core k t := by
  have h : core.step s = .next t := h
  simp only [Host.Core.run, h]

/-- While the coming samples say busy and no ceiling is reached, each step is one busy turn. -/
theorem run_busyTurns {s : State} {i : Instr} {n : Nat} (k : Nat) (hh : s.host = []) (hc : s.cursor = some (i, n))
    (ha : AtPoll i n) (ho : s.own = true) (hx : s.transportGood) (hb : ∀ j, j < k → s.sample j = true)
    (hl : ∀ c, s.cfg.pollCeilingMs = some c → ∀ j, j < k → s.pollElapsed + j * s.cfg.pollIntervalMs < c) :
    Host.Core.run core k s = .next (s.afterBusyTurns k) := by
  induction k generalizing s with
  | zero => rw [s.afterBusyTurns_zero]; rfl
  | succ k ih =>
    have hstep : step s = .next (s.afterBusyTurns 1) :=
      step_busyTurn hh hc ha ho hx (hb 0 k.succ_pos) fun c h => by simpa using hl c h 0 k.succ_pos
    have hrest : Host.Core.run core k (s.afterBusyTurns 1) = .next ((s.afterBusyTurns 1).afterBusyTurns k) := by
      refine ih hh hc ho hx (fun j hj => ?_) (fun c h j hj => ?_)
      · rw [s.afterBusyTurns_sample, Nat.add_comm]
        exact hb (j + 1) (Nat.succ_lt_succ hj)
      · have := hl c h (j + 1) (Nat.succ_lt_succ hj)
        simp only [State.afterBusyTurns, State.log_cfg, Nat.succ_mul] at this ⊢
        omega
    rw [run_succ_of_step k hstep, hrest, s.afterBusyTurns_one_add]

theorem State.stuckBusy.sample {s : State} (h : s.stuckBusy) (j : Nat) : s.sample j = true := by
  obtain ⟨hin, hrest⟩ := h
  simp [State.sample, hin, hrest]

theorem le_length_busyTurns (p : Params) (k : Nat) : k ≤ (busyTurns p k).length := by
  induction k with
  | zero => exact Nat.zero_le _
  | succ k ih =>
    rw [busyTurns_succ, List.length_cons, List.length_append]
    omega

end Sys2Proof.Machine

open Sys2Proof Sys2Proof.Machine

/-- Settles O29: on a stuck panel every sample says busy, and with no ceiling to reach each step is a busy turn. -/
theorem unboundedAwaitNeverEnds : Obligations.UnboundedAwaitNeverEnds := by
  intro s i n hrun hh ho hx hstuck hc ha hl k
  have htrace : (s.afterBusyTurns k).trace = s.trace ++ busyTurns s.cfg k := rfl
  refine ⟨s.afterBusyTurns k, ?_, hrun, ?_, ?_⟩
  · exact run_busyTurns k hh hc ha ho hx (fun j _ => hstuck.sample j) fun c h => by simp [hl] at h
  · exact htrace ▸ List.prefix_append _ _
  · rw [htrace, List.drop_left]
    exact le_length_busyTurns s.cfg k

end

section
/-! PROOFS. What each step of an operation writes, and so what it leaves as it was (R31). -/

namespace Sys2Proof.Machine

/-- Every instruction, with every operand. -/
def allInstrs : List Instr :=
  [.hwreset, .initfast, .initpart, .init4g, .sleep, .deinit, .picdisp, .picdisp4g, .picclear, .enc1 false, .enc1 true,
    .enc4, .dither, .upd1 false, .upd1 true, .upd4, .clear false, .clear true, .reflush,
    .wPanelSetting, .wPowerSetting, .wPowerOff, .wPowerOn, .wBoosterSoftStart, .wDeepSleep, .wDisplayRefresh,
    .wLutVcom, .wLutWw, .wLutR, .wLutW, .wLutB, .wPll, .wCdi, .wTcon, .wResolution, .wResolutionExtra, .wVcomDc,
    .wOldData .pair, .wOldData .white, .wOldData .gray, .wNewData .pair, .wNewData .white, .wNewData .gray,
    .wTuneE0 .fast, .wTuneE0 .partialMode, .wTuneE5 .fast, .wTuneE5 .partialMode]

theorem mem_allInstrs (i : Instr) : i ∈ allInstrs := by
  cases i
  case enc1 b | upd1 b | clear b => cases b <;> decide
  case wOldData k | wNewData k => cases k <;> decide
  case wTuneE0 k | wTuneE5 k => cases k <;> decide
  all_goals decide

/-- A test passed by the list of all instructions is passed by each. -/
theorem forall_of_allInstrs {P : Instr → Bool} (h : allInstrs.all P = true) (i : Instr) : P i = true :=
  List.all_eq_true.1 h i (mem_allInstrs i)

theorem Result.After.of_ok {P : State → Prop} {r : Result} {u : State} (h : r.After P) (e : r = .ok u) : P u := by
  subst e; exact h

theorem Result.After.of_skip {P : State → Prop} {r : Result} {k : Nat} {u : State} (h : r.After P) (e : r = .skip k u) :
    P u := by
  subst e; exact h

theorem Result.After.and {P Q : State → Prop} {r : Result} (hp : r.After P) (hq : r.After Q) :
    r.After fun t => P t ∧ Q t := by
  cases r
  case fault => trivial
  all_goals exact ⟨hp, hq⟩

/-- A step that reads an operand does what it does with the operand's value, or faults. -/
theorem Result.After.withOperand {P : State → Prop} {o : Except Fault (List Byte)} {f : List Byte → Result}
    (h : ∀ bs, o = .ok bs → (f bs).After P) : (withOperand o f).After P := by
  cases o with
  | ok bs => exact h bs rfl
  | error g => trivial

/-- A part that is done and then another. -/
theorem Result.After.andThen {P Q : State → Prop} {r : Result} {f : State → Result} (h : r.After P)
    (hf : ∀ t, P t → (f t).After Q) (hpq : ∀ t, P t → Q t) : (r.andThen f).After Q := by
  cases r with
  | ok t => exact hf t h
  | skip k t => exact hpq t h
  | wait t => exact hpq t h
  | raised e t => exact hpq t h
  | fault g => trivial

/-- What no step changes of an acceptance: `RUN` and the values kept. -/
theorem Micro.run_keeps_acceptance (m : Micro) (s : State) :
    (m.run s).After fun t => t.run = s.run ∧ t.saved = s.saved :=
  (m.run_frame s).mono fun _ ⟨_, hrun, _, _, _, _, hsaved, _⟩ => ⟨hrun, hsaved⟩

/-- The parts of the state of which R31 says who writes them. -/
inductive Part where
  | frame
  | work
  | plane1
  | plane2
  /-- `OWN` and the level of `RST` -/
  | lines
  | old
  | oldValid
  /-- `CACHE`, `CACHE_VALID` and `LAST_MODE` -/
  | cache
  /-- `PANEL_STATE` and `FRESH` -/
  | panel
  deriving DecidableEq

/-- The part has the same value in both states. -/
def Part.Same : Part → State → State → Prop
  | .frame, s, t => t.frame = s.frame
  | .work, s, t => t.work = s.work
  | .plane1, s, t => t.plane1 = s.plane1
  | .plane2, s, t => t.plane2 = s.plane2
  | .lines, s, t => t.own = s.own ∧ t.rst = s.rst
  | .old, s, t => t.old = s.old
  | .oldValid, s, t => t.oldValid = s.oldValid
  | .cache, s, t => t.cache = s.cache ∧ t.cacheValid = s.cacheValid ∧ t.lastMode = s.lastMode
  | .panel, s, t => t.panelState = s.panelState ∧ t.fresh = s.fresh

/-- The parts an error brings back to their values at acceptance (R93, R159, R215). -/
def Part.restored : Part → Bool
  | .frame | .work | .plane1 | .plane2 | .lines => false
  | .old | .oldValid | .cache | .panel => true

/-- The parts each step writes. -/
def Micro.written : Micro → List Part
  | .acquire | .release | .setReset _ => [.lines]
  | .finish _ => [.panel]
  | .emptyOld => [.oldValid]
  | .encode1 _ => [.work, .plane1]
  | .encode4 => [.work, .plane2]
  | .ditherFrame => [.work]
  | .cacheToFrame => [.frame]
  | .commit1 _ => [.old, .oldValid, .cache, .panel]
  | .commit4 => [.cache]
  | .commitClear => [.oldValid, .cache]
  | _ => []

theorem Part.Same.refl (p : Part) (s : State) : p.Same s s := by
  cases p <;> simp [Part.Same]

theorem Part.Same.trans {p : Part} {s t u : State} (h : p.Same s t) (h' : p.Same t u) : p.Same s u := by
  cases p <;> simp_all [Part.Same]

/-- Events that write no level to a line leave its level. -/
theorem levelAfter_of_not_mem (l : Line) (es : List Event) (v : Bool) (h : ∀ v, .line l v ∉ es) :
    levelAfter l es v = v := by
  induction es generalizing v with
  | nil => rfl
  | cons e es ih =>
    have hes : ∀ v, .line l v ∉ es := fun v hv => h v (List.mem_cons_of_mem e hv)
    cases e with
    | line l' v' =>
      have hl : l' ≠ l := fun e => h v' (by simp [e])
      rw [levelAfter_otherLine l l' hl]
      exact ih v hes
    | _ => exact ih v hes

/-- A bus call that writes no level to `RST` leaves `OWN` and `RST`, whatever the transport answers. -/
theorem State.bus_keeps_lines (s : State) (es : List Event) (h : ∀ v, .line .rst v ∉ es) :
    (s.bus es).After (Part.lines.Same s) := by
  rcases s.bus_cases es with ⟨ks, -, hb⟩ | ⟨k, ks, hb⟩ <;> rw [hb]
  · exact ⟨rfl, levelAfter_of_not_mem .rst es s.rst h⟩
  · refine ⟨rfl, levelAfter_of_not_mem .rst _ s.rst fun v hv => ?_⟩
    rcases List.mem_append.1 hv with hv | hv
    · exact h v (List.mem_of_mem_take hv)
    · simp at hv

theorem rst_not_mem_commandEvents (b : Byte) (v : Bool) : Event.line .rst v ∉ commandEvents b := by
  simp [commandEvents]

theorem rst_not_mem_dataEvents (bs : List Byte) (v : Bool) : Event.line .rst v ∉ dataEvents bs := by
  simp [dataEvents]

/-- One turn of the poll loop leaves `OWN` and `RST`. -/
theorem State.pollOnce_keeps_lines (s : State) : s.pollOnce.After (Part.lines.Same s) := by
  have hread : s.readBusy.After (Part.lines.Same s) :=
    (s.bus_keeps_lines _ (by simp)).andThen (fun _ h => h) fun _ h => h
  refine hread.andThen (fun t ht => ?_) fun _ h => h
  split
  · split
    · exact ht
    · exact ⟨ht.1, (levelAfter_delayEvents _ _ _).trans ht.2⟩
  · exact ht

/-- Only an acquisition, a release and a write of `RST` touch `OWN` or `RST`. -/
theorem Micro.run_keeps_lines (m : Micro) (hp : .lines ∉ m.written) (s : State) :
    (m.run s).After (Part.lines.Same s) := by
  cases m <;> simp only [Micro.written, List.mem_singleton, not_true_eq_false] at hp
  case need | needCache | skipUnless | enter | leave | finish | emptyOld | commitClear =>
    simp only [Micro.run]
    repeat' split
    all_goals exact .refl .lines s
  case settle | pause | startAwait => exact ⟨rfl, levelAfter_delayEvents _ _ _⟩
  case command c => exact s.bus_keeps_lines _ (rst_not_mem_commandEvents c)
  case payload d => exact .withOperand fun bs _ => s.bus_keeps_lines _ (rst_not_mem_dataEvents bs)
  case lut6Command =>
    refine s.bus_keeps_lines _ ?_
    unfold lut6CommandEvents
    split
    · simp
    · exact rst_not_mem_commandEvents _
  case lut6Payload =>
    refine s.bus_keeps_lines _ ?_
    unfold lut6PayloadEvents
    split
    · simp
    · exact rst_not_mem_dataEvents _
  case poll => exact s.pollOnce_keeps_lines
  case commit1 => exact .withOperand fun _ _ => .withOperand fun _ _ => .refl .lines s
  all_goals exact .withOperand fun _ _ => .refl .lines s

/-- A step leaves every part it does not write, whatever the oracles answer. -/
theorem Micro.run_keeps (m : Micro) (p : Part) (hp : p ∉ m.written) (s : State) : (m.run s).After (p.Same s) := by
  by_cases hl : p = .lines
  · subst hl; exact m.run_keeps_lines hp s
  cases hm : m.physical
  case true =>
    refine (m.run_physical hm s).mono ?_
    rintro t ⟨es, o, ks, pe, bi, q, rfl, -, -⟩
    cases p
    case lines => exact absurd rfl hl
    all_goals simp [Part.Same]
  case false =>
    cases m <;> simp only [Micro.physical, Bool.true_eq_false] at hm
    case finish | emptyOld | commitClear => cases p <;> simp_all [Micro.written, Part.Same, Micro.run, Result.After]
    case commit1 =>
      refine .withOperand fun _ _ => .withOperand fun _ _ => ?_
      cases p <;> simp_all [Micro.written, Part.Same, Result.After]
    all_goals
      refine .withOperand fun _ _ => ?_
      cases p <;> simp_all [Micro.written, Part.Same, Result.After]

end Sys2Proof.Machine
end

section
/-! PROOFS. The machine's invariant: its unconditional part is kept by every step of an operation, so by every stretch,
and `RUN`, the cursor and `SEQ_POS` are right wherever a stretch ends (R15, R16, R24, R29, R40, R44, R215). -/

namespace Sys2Proof.Machine

theorem State.frameOperand_eq_ok {s : State} {f : List Byte} (h : s.frameOperand = .ok f) :
    s.frame.readAll s.cfg.samples = some f := by
  unfold State.frameOperand at h
  split at h
  · next hf => cases h; exact hf
  · cases h

theorem State.cacheOperand_eq_ok {s : State} {f : List Byte} (h : s.cacheOperand = .ok f) :
    s.cache.readAll s.cfg.samples = some f := by
  unfold State.cacheOperand at h
  split at h
  · next hf => cases h; exact hf
  · cases h

theorem State.plane1Operand_eq_ok {s : State} {p : List Byte} (h : s.plane1Operand = .ok p) :
    s.plane1.readAll s.cfg.plane1Bytes = some p := by
  unfold State.plane1Operand at h
  split at h
  · next hp => cases h; exact hp
  · cases h

/-- A list of a buffer's size, written whole, is a whole buffer. -/
theorem Memory.isSome_readAll_ofList {β : Type} {vs : List β} {n : Nat} (h : vs.length = n) :
    ((Memory.ofList vs).readAll n).isSome = true := by
  rw [← h, Memory.readAll_ofList]; rfl

/-- The part of the machine's invariant that holds inside an operation too: the buffers and the bookkeeping. -/
structure State.Sound (s : State) : Prop where
  frame : Memory.okay s.frame s.cfg.samples
  work : Memory.okay s.work s.cfg.samples
  plane1 : Memory.okay s.plane1 s.cfg.plane1Bytes
  plane2 : Memory.okay s.plane2 s.cfg.plane2Bytes
  books : s.snapshot.Inv s.cfg
  saved : ∀ v, s.saved = some v → v.Inv s.cfg

/-- Where the cursor names a place, an operation is in flight there. -/
theorem State.Inv.inFlight {s : State} {i : Instr} {n : Nat} (h : s.Inv) (hc : s.cursor = some (i, n)) :
    s.run = true ∧ s.saved.isSome = true ∧ AtPoll i n ∧ s.seqPos.map Prod.fst = openCalls i n := by
  have hr : s.run = true := by
    by_contra hr
    obtain ⟨-, hcur, -⟩ := h.resting (by simpa using hr)
    simp [hc] at hcur
  obtain ⟨hsaved, i', n', hc', hpoll, hcalls⟩ := h.running hr
  cases hc.symm.trans hc'
  exact ⟨hr, hsaved, hpoll, hcalls⟩

theorem State.Inv.sound {s : State} (h : s.Inv) : s.Sound :=
  ⟨h.frame, h.work, h.plane1, h.plane2, h.books, h.saved⟩

/-- At rest nothing but the buffers and the bookkeeping is asked for. -/
theorem State.Sound.inv_of_rest {s : State} (h : s.Sound) (hr : s.run = false)
    (hrest : s.saved = none ∧ s.cursor = none ∧ s.seqPos = []) : s.Inv :=
  { h with running := fun hr' => by simp [hr] at hr', resting := fun _ => hrest }

/-- Every step of an operation keeps the buffers and the bookkeeping sound. -/
theorem Micro.run_sound (m : Micro) {s : State} (h : s.Sound) : (m.run s).After State.Sound := by
  cases hm : m.physical
  case true =>
    refine (m.run_physical hm s).mono ?_
    rintro t ⟨es, o, ks, pe, bi, q, rfl, -, -⟩
    exact ⟨h.frame, h.work, h.plane1, h.plane2, h.books, h.saved⟩
  case false =>
    obtain ⟨hfull, hold, hcache, holdValid, hcacheValid⟩ := h.books
    cases m <;> simp only [Micro.physical, Bool.true_eq_false] at hm
    case finish o =>
      have ho : o.panelState ≠ .full := by cases o <;> decide
      exact ⟨h.frame, h.work, h.plane1, h.plane2, ⟨ho, hold, hcache, holdValid, hcacheValid⟩, h.saved⟩
    case emptyOld =>
      exact ⟨h.frame, h.work, h.plane1, h.plane2, ⟨hfull, hold, hcache, nofun, hcacheValid⟩, h.saved⟩
    case encode1 d =>
      refine .withOperand fun f hf => ?_
      have hlen := Memory.length_of_readAll (State.frameOperand_eq_ok hf)
      exact ⟨h.frame, Memory.okay_ofList _ _ (length_workOf1 s.cfg f d hlen).le,
        Memory.okay_ofList _ _ (length_pack1 s.cfg _).le, h.plane2, h.books, h.saved⟩
    case encode4 =>
      refine .withOperand fun f hf => ?_
      have hlen := Memory.length_of_readAll (State.frameOperand_eq_ok hf)
      exact ⟨h.frame, Memory.okay_ofList _ _ (length_workOf4 s.cfg f hlen).le, h.plane1,
        Memory.okay_ofList _ _ (length_pack2 s.cfg _).le, h.books, h.saved⟩
    case ditherFrame =>
      refine .withOperand fun f hf => ?_
      have hlen := Memory.length_of_readAll (State.frameOperand_eq_ok hf)
      exact ⟨h.frame, Memory.okay_ofList _ _ (length_workOfDither s.cfg f hlen).le, h.plane1, h.plane2, h.books,
        h.saved⟩
    case cacheToFrame =>
      refine .withOperand fun f hf => ?_
      have hlen := Memory.length_of_readAll (State.cacheOperand_eq_ok hf)
      exact ⟨Memory.okay_ofList f _ hlen.le, h.work, h.plane1, h.plane2, h.books, h.saved⟩
    case commit1 d =>
      refine .withOperand fun p hp => .withOperand fun f hf => ?_
      have hplen := Memory.length_of_readAll (State.plane1Operand_eq_ok hp)
      have hflen := Memory.length_of_readAll (State.frameOperand_eq_ok hf)
      exact ⟨h.frame, h.work, h.plane1, h.plane2,
        ⟨hfull, Memory.okay_ofList p _ hplen.le, Memory.okay_ofList f _ hflen.le,
          fun _ => Memory.isSome_readAll_ofList hplen, fun _ => ⟨Memory.isSome_readAll_ofList hflen, nofun⟩⟩, h.saved⟩
    case commit4 =>
      refine .withOperand fun f hf => ?_
      have hlen := Memory.length_of_readAll (State.frameOperand_eq_ok hf)
      exact ⟨h.frame, h.work, h.plane1, h.plane2,
        ⟨hfull, hold, Memory.okay_ofList f _ hlen.le, holdValid,
          fun _ => ⟨Memory.isSome_readAll_ofList hlen, nofun⟩⟩, h.saved⟩
    case commitClear =>
      have hlen : (whiteFrame s.cfg).length = s.cfg.samples := List.length_replicate
      exact ⟨h.frame, h.work, h.plane1, h.plane2,
        ⟨hfull, hold, Memory.okay_ofList _ _ hlen.le, nofun,
          fun _ => ⟨Memory.isSome_readAll_ofList hlen, nofun⟩⟩, h.saved⟩

/-- Error entry brings back values that were sound at acceptance. -/
theorem State.Sound.errorEntry {s : State} (h : s.Sound) (e : ErrCode) : (s.errorEntry e).Sound := by
  have hbooks : (s.errorEntry e).snapshot.Inv s.cfg := by
    cases hv : s.saved with
    | none => simpa [State.snapshot, hv, State.restore] using h.books
    | some v => simpa [State.snapshot, hv] using h.saved v hv
  exact ⟨by simpa using h.frame, by simpa using h.work, by simpa using h.plane1, by simpa using h.plane2,
    by simpa using hbooks, by simp⟩

theorem atPoll_of_drop {i : Instr} {ms : List Micro} {n j : Nat} (hp : (program i).drop n = ms)
    (hj : ms[j]? = some .poll) : AtPoll i (n + j) := by
  have : (program i)[n + j]? = some .poll := by rw [← hj, ← hp, List.getElem?_drop]
  simp [AtPoll, this]

/-- A stretch of an operation, begun where `SEQ_POS` names the operations in flight, ends in the invariant. -/
theorem runMicros_inv {i : Instr} {n : Nat} {s t : State} (hs : s.Sound) (hr : s.run = true)
    (hsaved : s.saved.isSome = true) (hcalls : s.seqPos.map Prod.fst = openCalls i n)
    (h : runMicros i ((program i).drop n) n 0 s = .next t) : t.Inv := by
  have keep : ∀ m ∈ (program i).drop n, ∀ u : State, (u.Sound ∧ u.run = true ∧ u.saved.isSome = true) →
      (m.run u).After fun u => u.Sound ∧ u.run = true ∧ u.saved.isSome = true := by
    rintro m - u ⟨hu, hur, hus⟩
    refine ((m.run_sound hu).and (m.run_keeps_acceptance u)).mono ?_
    rintro v ⟨hv, hvr, hvs⟩
    exact ⟨hv, hvr.trans hur, hvs ▸ hus⟩
  rcases runMicros_cases ⟨hs, hr, hsaved⟩ keep h with
    ⟨u, ⟨hu, -⟩, rfl⟩ | ⟨u, j, m, ⟨hu, hur, hus⟩, hj, ⟨w, -, hw⟩, rfl⟩ | ⟨u, e, ⟨hu, -⟩, -, rfl⟩
  · have : u.complete.Sound := ⟨hu.frame, hu.work, hu.plane1, hu.plane2, hu.books, nofun⟩
    exact this.inv_of_rest rfl ⟨rfl, rfl, rfl⟩
  · obtain ⟨j', hcur, hseq⟩ := runMicros_calls i _ n 0 s _ rfl hcalls h hur
    cases hcur
    have hpoll : AtPoll i (n + j) := atPoll_of_drop rfl (Micro.poll_of_wait hw ▸ hj)
    exact ⟨hu.frame, hu.work, hu.plane1, hu.plane2, hu.books, hu.saved,
      fun _ => ⟨hus, i, n + j, rfl, hpoll, hseq⟩, fun hr' => by simp [hur] at hr'⟩
  · exact (hu.errorEntry e).inv_of_rest rfl ⟨rfl, rfl, rfl⟩

/-- What a host or the worker writes into `FRAME` stays inside it. -/
theorem FrameWritten.okay {s : State} {f : Memory Byte} (hf : FrameWritten s f)
    (h : Memory.okay s.frame s.cfg.samples) : Memory.okay f s.cfg.samples := by
  rcases hf with rfl | ⟨-, i, vs, hlen, rfl⟩ | ⟨-, vs, hlen, rfl⟩
  · exact h
  · exact Memory.okay_writeRange _ i _ vs h hlen
  · exact Memory.okay_ofList vs _ hlen.le

theorem PlainMove.inv {s t : State} (h : PlainMove s t) (hs : s.Inv) : t.Inv := by
  obtain ⟨h, f, st, an, e, g, rfl, hf, -, -⟩ := h
  exact ⟨hf.okay hs.frame, hs.work, hs.plane1, hs.plane2, hs.books, hs.saved, hs.running, hs.resting⟩

theorem AcceptMove.inv {s t : State} (h : AcceptMove s t) (hs : s.Inv) : t.Inv := by
  obtain ⟨i, h, f, g, -, -, hf, hrun⟩ := h
  have hsound : (State.accept { s with host := h, frame := f, issuer := g } i).Sound :=
    ⟨hf.okay hs.frame, hs.work, hs.plane1, hs.plane2, hs.books, by rintro v ⟨⟩; exact hs.books⟩
  exact runMicros_inv (n := 0) hsound rfl rfl rfl hrun

theorem ResumeMove.inv {s t : State} (h : ResumeMove s t) (hs : s.Inv) : t.Inv := by
  obtain ⟨i, n, h, hcur, hrun⟩ := h
  obtain ⟨hr, hsaved, -, hcalls⟩ := hs.inFlight hcur
  have hsound : ({ s with host := h } : State).Sound := ⟨hs.frame, hs.work, hs.plane1, hs.plane2, hs.books, hs.saved⟩
  exact runMicros_inv hsound hr hsaved hcalls hrun

/-- The block's reset leads to the invariant from every state: nothing is written, nothing in flight. -/
theorem State.blockReset_inv (s : State) : s.blockReset.Inv := by
  have hbooks : s.blockReset.snapshot.Inv s.cfg :=
    ⟨nofun, Memory.okay_nil _, Memory.okay_nil _, nofun, nofun⟩
  exact State.Sound.inv_of_rest
    ⟨Memory.okay_nil _, Memory.okay_nil _, Memory.okay_nil _, Memory.okay_nil _, hbooks, nofun⟩ rfl ⟨rfl, rfl, rfl⟩

end Sys2Proof.Machine

open Sys2Proof Sys2Proof.Machine

/-- Settles O56: a plain move changes nothing the invariant speaks of but `FRAME`; an accepted operation and one that
goes on run a stretch of steps, each of which keeps the buffers and the bookkeeping; the reset leads to it. -/
theorem stepKeepsInvariant : Obligations.StepKeepsInvariant := by
  intro s t hs hstep
  rcases step_moves hstep with h | h | h | ⟨rest, -, rfl⟩
  · exact h.inv hs
  · exact h.inv hs
  · exact h.inv hs
  · exact State.blockReset_inv _

/-- Settles O55: the reset state is what the block's reset leaves of itself. -/
theorem invariantAtReset : Obligations.InvariantAtReset := State.reset.blockReset_inv

/-- Settles O8: both states are what the block's reset leaves of some state, and it leaves the listed values whatever
stood there; an empty buffer has no element. -/
theorem resetStateIsTheListed : Obligations.ResetStateIsTheListed := by
  intro s rest hhost t ht
  obtain ⟨u, rfl⟩ : ∃ u : State, t = u.blockReset := by
    rcases ht with rfl | hstep
    · exact ⟨State.reset, rfl⟩
    · simp only [step, hhost] at hstep
      cases hstep
      exact ⟨_, rfl⟩
  exact ⟨rfl, rfl, rfl, rfl, rfl, rfl, rfl, rfl, rfl, rfl, rfl, rfl, rfl, rfl, rfl,
    fun _ => ⟨rfl, rfl, rfl, rfl, rfl, rfl⟩⟩

end

section
/-! PROOFS. Who holds the lines: only `deinit()` gives them up, and an operation that begins without them in `DEINIT`
claims them or raises before it can leave that state (R20, R80, R89). -/

namespace Sys2Proof.Machine

def Micro.isRelease : Micro → Bool
  | .release => true
  | _ => false

/-- No step but a release gives up the lines. -/
theorem Micro.run_keeps_own {m : Micro} (hm : m.isRelease = false) {s : State} (ho : s.own = true) :
    (m.run s).After fun t => t.own = true := by
  cases hp : m.physical
  case true =>
    refine (m.run_physical hp s).mono ?_
    rintro t ⟨es, o, ks, pe, bi, q, rfl, -, hown⟩
    exact hown (by rintro rfl; simp [Micro.isRelease] at hm) ho
  case false =>
    have hw : .lines ∉ m.written := by cases m <;> simp [Micro.physical, Micro.written] at hp ⊢
    exact (m.run_keeps .lines hw s).mono fun t ht => ht.1.trans ho

/-- A run of these steps, `k` of them skipped first, that begins without the lines in `DEINIT` writes no Panel State
before it claims the lines or raises. -/
def staysInDeinit : List Micro → Nat → Bool
  | [], _ => true
  | _ :: ms, k + 1 => staysInDeinit ms k
  | .acquire :: _, 0 => true
  | .need ps :: ms, 0 => !decide (.deinit ∈ ps) || staysInDeinit ms 0
  | .skipUnless _ k :: ms, 0 => staysInDeinit ms 0 && staysInDeinit ms k
  | m :: ms, 0 => !decide (.panel ∈ m.written) && staysInDeinit ms 0

theorem staysInDeinit_program {i : Instr} (h : i.format = .host) (hi : i ≠ .deinit) :
    staysInDeinit (program i) 0 = true := by
  have := forall_of_allInstrs (P := fun i => i.format == .wire || i == .deinit || staysInDeinit (program i) 0)
    (by decide +kernel) i
  simpa [h, hi] using this

theorem isRelease_program {i : Instr} (hi : i ≠ .deinit) : ∀ m ∈ program i, m.isRelease = false := by
  have := forall_of_allInstrs (P := fun i => i == .deinit || (program i).all (!·.isRelease)) (by decide +kernel) i
  simpa [hi] using this

/-- A successful claim holds the lines. -/
theorem State.own_of_acquire {s t : State} (h : s.acquire = .ok t) : t.own = true := by
  unfold State.acquire at h
  split at h
  · next ho => cases h; exact ho
  · rcases s.attempt_cases [.acquire] with ⟨ks, ha⟩ | ⟨k, ks, ha⟩ <;> rw [ha] at h <;> cases h
    rfl

/-- Without the lines no step waits: a poll raises. -/
theorem Micro.run_ne_wait {m : Micro} {s t : State} (ho : s.own = false) : m.run s ≠ .wait t := by
  intro h
  have := Micro.poll_of_wait h
  subst this
  simp [Micro.run, State.pollOnce, State.readBusy, State.bus, ho, Result.andThen] at h

/-- One step of a run that stays in `DEINIT`, and is done: the rest stays there. -/
theorem staysInDeinit_of_ok {m : Micro} {ms : List Micro} {s t : State} (hd : s.panelState = .deinit)
    (h : staysInDeinit (m :: ms) 0 = true) (hm : m.run s = .ok t) (ho : t.own = false) :
    t.panelState = .deinit ∧ staysInDeinit ms 0 = true := by
  have quiet : .panel ∉ m.written → staysInDeinit ms 0 = true → t.panelState = .deinit ∧ staysInDeinit ms 0 = true :=
    fun hw hms => ⟨((m.run_keeps .panel hw s).of_ok hm).1.trans hd, hms⟩
  cases m
  case acquire => exact absurd (State.own_of_acquire hm) (by simp [ho])
  case need ps =>
    have hps : PanelState.deinit ∈ ps := by
      by_contra hps
      simp [Micro.run, hd, hps] at hm
    exact quiet (by simp [Micro.written]) (by simpa [staysInDeinit, hps] using h)
  case skipUnless c k =>
    simp only [staysInDeinit, Bool.and_eq_true] at h
    exact quiet (by simp [Micro.written]) h.1
  all_goals
    simp only [staysInDeinit, Bool.and_eq_true, Bool.not_eq_true', decide_eq_false_iff_not] at h
    exact quiet h.1 h.2

/-- One step of a run that stays in `DEINIT`, and is a condition that does not hold: what is left stays there. -/
theorem staysInDeinit_of_skip {m : Micro} {ms : List Micro} {k : Nat} {s t : State} (hd : s.panelState = .deinit)
    (h : staysInDeinit (m :: ms) 0 = true) (hm : m.run s = .skip k t) :
    t.panelState = .deinit ∧ staysInDeinit ms k = true := by
  obtain ⟨c, rfl⟩ := Micro.skipUnless_of_skip hm
  simp only [staysInDeinit, Bool.and_eq_true] at h
  exact ⟨((Micro.run_keeps _ .panel (by simp [Micro.written]) s).of_skip hm).1.trans hd, h.2⟩

/-- Without a release among its steps a stretch that begins with the lines held keeps them. -/
theorem runMicros_keeps_own {i : Instr} {ms : List Micro} {n k : Nat} {s t : State}
    (h : runMicros i ms n k s = .next t) (hms : ∀ m ∈ ms, m.isRelease = false) (ho : s.own = true) : t.own = true := by
  rcases runMicros_cases (P := fun u => u.own = true) ho (fun m hm u hu => m.run_keeps_own (hms m hm) hu) h with
    ⟨u, hu, rfl⟩ | ⟨u, j, m, hu, -, -, rfl⟩ | ⟨u, e, hu, -, rfl⟩
  · exact hu
  · exact hu
  · simpa using hu

/-- A stretch that begins in `DEINIT` without the lines claims them, or ends in `DEINIT` and at rest. -/
theorem runMicros_staysInDeinit {i : Instr} {ms : List Micro} {n k : Nat} {s t : State} {v : Saved}
    (h : runMicros i ms n k s = .next t) (hms : ∀ m ∈ ms, m.isRelease = false) (hd : s.panelState = .deinit)
    (hs : s.saved = some v) (hv : v.panelState = .deinit) (hk : staysInDeinit ms k = true) (ho : s.own = false)
    (hto : t.own = false) : t.panelState = .deinit ∧ t.run = false := by
  induction ms generalizing n k s with
  | nil => cases h; exact ⟨hd, rfl⟩
  | cons m ms ih =>
    have hms' : ∀ m ∈ ms, m.isRelease = false := fun m hm => hms m (List.mem_cons_of_mem _ hm)
    cases k with
    | succ k => exact ih h hms' hd hs hk ho
    | zero =>
      have hsaved := m.run_keeps_acceptance s
      have goOn : ∀ {k u}, u.saved = s.saved →
          (u.own = false → u.panelState = .deinit ∧ staysInDeinit ms k = true) →
          runMicros i ms (n + 1) k u = .next t → t.panelState = .deinit ∧ t.run = false := fun {k u} hus hu hrun => by
        cases huo : u.own with
        | true => exact absurd (runMicros_keeps_own hrun hms' huo) (by simp [hto])
        | false => exact ih hrun hms' (hu huo).1 (hus.trans hs) (hu huo).2 huo
      simp only [runMicros] at h
      cases hm : m.run s with
      | ok u =>
        rw [hm] at h hsaved
        exact goOn hsaved.2 (staysInDeinit_of_ok hd hk hm) h
      | skip j u =>
        rw [hm] at h hsaved
        exact goOn hsaved.2 (fun _ => staysInDeinit_of_skip hd hk hm) h
      | wait u => exact absurd hm (Micro.run_ne_wait ho)
      | raised e u =>
        rw [hm] at h hsaved
        cases h
        exact ⟨by simp [hsaved.2, hs, hv], rfl⟩
      | fault f => rw [hm] at h; cases h

/-- `deinit()` never waits and never raises: it ends in `DEINIT`, at rest. -/
theorem runMicros_deinit {s t : State} (h : runMicros .deinit (program .deinit) 0 0 s = .next t) :
    t.panelState = .deinit ∧ t.run = false := by
  cases ho : s.own <;> simp only [program, deinitSteps, runMicros, Micro.run, ho, if_true] at h <;> cases h <;>
    exact ⟨rfl, rfl⟩

theorem not_atPoll_deinit (n : Nat) : ¬ AtPoll .deinit n := by
  rcases n with _ | _ | n <;> simp [AtPoll, program, deinitSteps]

end Sys2Proof.Machine

open Sys2Proof Sys2Proof.Machine

/-- Settles O58: an operation in flight holds its lines and gives none up, and one that is accepted without them, in
`DEINIT`, claims them or ends there; `deinit()` itself ends there. -/
theorem linesReleasedOnlyInDeinit : Obligations.LinesReleasedOnlyInDeinit := by
  intro s t hinv hs hstep hto
  rcases step_moves hstep with ⟨h, f, st, an, e, g, rfl, -⟩ | ⟨i, h, f, g, hi, -, -, hrun⟩ | ⟨i, n, h, hcur, hrun⟩ |
    ⟨rest, -, rfl⟩
  · exact hs hto
  · by_cases hdeinit : i = .deinit
    · subst hdeinit; exact runMicros_deinit hrun
    · have hms := isRelease_program hdeinit
      cases ho : s.own with
      | true => exact absurd (runMicros_keeps_own hrun hms ho) (by simp [hto])
      | false =>
        obtain ⟨hd, -⟩ := hs ho
        exact runMicros_staysInDeinit hrun hms hd rfl hd (staysInDeinit_program hi hdeinit) ho hto
  · obtain ⟨hr, -, hpoll, -⟩ := hinv.inFlight hcur
    have hi : i ≠ .deinit := by rintro rfl; exact not_atPoll_deinit n hpoll
    have hms : ∀ m ∈ (program i).drop n, m.isRelease = false :=
      fun m hm => isRelease_program hi m (List.mem_of_mem_drop hm)
    have ho : s.own = true := by
      by_contra ho
      obtain ⟨-, hr'⟩ := hs (by simpa using ho)
      simp [hr] at hr'
    exact absurd (runMicros_keeps_own hrun hms ho) (by simp [hto])
  · cases hto

end

section
/-! PROOFS. What a whole stretch leaves as it was: the parameters and the events before it always; and a part of the
state that none of its steps writes, where no error brings the bookkeeping back to acceptance (R31, R55, R215). -/

namespace Sys2Proof.Machine

/-- Every stretch keeps the parameters and only adds to the trace. -/
theorem runMicros_trace_grows {i : Instr} {ms : List Micro} {n k : Nat} {s t : State}
    (h : runMicros i ms n k s = .next t) : t.cfg = s.cfg ∧ s.trace <+: t.trace := by
  have keep : ∀ m ∈ ms, ∀ u : State, u.cfg = s.cfg ∧ s.trace <+: u.trace →
      (m.run u).After fun u => u.cfg = s.cfg ∧ s.trace <+: u.trace := by
    rintro m - u ⟨hcfg, htrace⟩
    refine (m.run_frame u).mono ?_
    rintro v ⟨hvcfg, -, -, -, -, -, -, -, -, -, hvtrace⟩
    exact ⟨hvcfg.trans hcfg, htrace.trans hvtrace⟩
  rcases runMicros_cases ⟨rfl, List.prefix_rfl⟩ keep h with
    ⟨u, hu, rfl⟩ | ⟨u, j, m, hu, -, -, rfl⟩ | ⟨u, e, hu, -, rfl⟩
  · exact hu
  · exact hu
  · simpa using hu

/-- A bus primitive raises nothing but `TransportError`. -/
theorem State.eq_transport_of_bus {s t : State} {es : List Event} {e : ErrCode} (h : s.bus es = .raised e t) :
    e = .transport := by
  rcases s.bus_cases es with ⟨ks, -, hb⟩ | ⟨k, ks, hb⟩ <;> rw [hb] at h <;> cases h
  rfl

/-- A claim of the lines raises nothing but `TransportError`. -/
theorem State.eq_transport_of_acquire {s t : State} {e : ErrCode} (h : s.acquire = .raised e t) : e = .transport := by
  unfold State.acquire at h
  split at h
  · cases h
  · rcases s.attempt_cases [.acquire] with ⟨ks, ha⟩ | ⟨k, ks, ha⟩ <;> rw [ha] at h <;> cases h
    rfl

/-- A turn of the poll loop raises `TransportError` or `PanelTimeoutError`. -/
theorem State.error_of_pollOnce {s t : State} {e : ErrCode} (h : s.pollOnce = .raised e t) :
    e = .transport ∨ e = .panelTimeout := by
  unfold State.pollOnce State.readBusy at h
  rcases s.bus_cases [.poll s.panelBusy] with ⟨ks, -, hb⟩ | ⟨k, ks, hb⟩ <;> rw [hb] at h <;>
    simp only [Result.andThen] at h
  · repeat' split at h
    all_goals cases h
    exact .inr rfl
  · cases h; exact .inl rfl

/-- No step raises "no error". -/
theorem Micro.ne_none_of_raised {m : Micro} {s t : State} {e : ErrCode} (h : m.run s = .raised e t) : e ≠ .none := by
  have hbus : ∀ es, s.bus es = .raised e t → e ≠ .none := fun es hb => by
    rw [State.eq_transport_of_bus hb]; decide
  cases m <;> simp only [Micro.run, withOperand] at h
  case acquire => rw [State.eq_transport_of_acquire h]; decide
  case setReset | command | lut6Command | lut6Payload => exact hbus _ h
  case payload d =>
    cases hd : d.bytes s with
    | ok bs => rw [hd] at h; exact hbus _ h
    | error g => rw [hd] at h; cases h
  case poll => rcases State.error_of_pollOnce h with rfl | rfl <;> decide
  case need | needCache => split at h <;> cases h; decide
  all_goals
    repeat' split at h
    all_goals cases h

/-- Completion touches no part. -/
theorem Part.Same.complete {p : Part} {s t : State} (h : p.Same s t) : p.Same s t.complete := by
  cases p <;> exact h

/-- The cursor is in no part. -/
theorem Part.Same.at {p : Part} {s t : State} (h : p.Same s t) (q : Option (Instr × Nat)) :
    p.Same s { t with cursor := q } := by
  cases p <;> exact h

/-- Error entry touches no part but those it brings back. -/
theorem Part.Same.errorEntry {p : Part} {s t : State} (h : p.Same s t) (hp : p.restored = false) (e : ErrCode) :
    p.Same s (t.errorEntry e) := by
  cases p <;> simp_all [Part.restored, Part.Same]

/-- The parts an error brings back are those of the values kept at acceptance. -/
theorem Part.Same.of_snapshot {p : Part} {s t : State} (h : t.snapshot = s.snapshot) (hp : p.restored = true) :
    p.Same s t := by
  simp only [State.snapshot, Saved.mk.injEq] at h
  cases p <;> simp_all [Part.restored, Part.Same]

theorem State.snapshot_errorEntry {s : State} {v : Saved} (h : s.saved = some v) (e : ErrCode) :
    (s.errorEntry e).snapshot = v := by
  simp [State.snapshot, h]

/-- What a stretch of an operation in flight leaves as it was: the parts none of its steps writes, where it completes or
waits; the scratch parts among them, where it ends with an error, and then the bookkeeping is as at acceptance. -/
theorem runMicros_keeps {i : Instr} {ms : List Micro} {n k : Nat} {s t : State} {v : Saved} (hr : s.run = true)
    (hv : s.saved = some v) (h : runMicros i ms n k s = .next t) :
    ((t.run = true ∨ t.err = .none) ∧ ∀ p : Part, (∀ m ∈ ms, p ∉ m.written) → p.Same s t) ∨
      (t.run = false ∧ t.err ≠ .none ∧ t.snapshot = v ∧
        ∀ p : Part, p.restored = false → (∀ m ∈ ms, p ∉ m.written) → p.Same s t) := by
  have keep : ∀ m ∈ ms, ∀ u : State,
      ((∀ p : Part, (∀ m ∈ ms, p ∉ m.written) → p.Same s u) ∧ u.run = true ∧ u.saved = some v) →
      (m.run u).After fun u =>
        (∀ p : Part, (∀ m ∈ ms, p ∉ m.written) → p.Same s u) ∧ u.run = true ∧ u.saved = some v := by
    rintro m hm u ⟨hu, hur, hus⟩
    have hparts : ∀ p, (∀ m ∈ ms, p ∉ m.written) → (m.run u).After (p.Same u) :=
      fun p hp => m.run_keeps p (hp m hm) u
    have hacc := m.run_keeps_acceptance u
    cases hrun : m.run u
    case fault => trivial
    all_goals
      rw [hrun] at hparts hacc
      obtain ⟨hr', hs'⟩ := hacc
      exact ⟨fun p hp => (hu p hp).trans (hparts p hp), hr'.trans hur, hs'.trans hus⟩
  rcases runMicros_cases ⟨fun p _ => .refl p s, hr, hv⟩ keep h with
    ⟨u, ⟨hu, -⟩, rfl⟩ | ⟨u, j, m, ⟨hu, hur, -⟩, -, -, rfl⟩ | ⟨u, e, ⟨hu, -, hus⟩, ⟨m, -, w, -, hw⟩, rfl⟩
  · exact .inl ⟨.inr rfl, fun p hp => (hu p hp).complete⟩
  · exact .inl ⟨.inl hur, fun p hp => (hu p hp).at _⟩
  · exact .inr ⟨rfl, Micro.ne_none_of_raised hw, State.snapshot_errorEntry hus e,
      fun p hpr hp => (hu p hp).errorEntry hpr e⟩

/-- What a wire command on its own leaves as it was, with no operation in flight to go back from. -/
theorem wireCommand_keeps {ms : List Micro} {s t : State} (hs : s.saved = none) (h : wireCommand ms s = .next t)
    (p : Part) (hp : ∀ m ∈ ms, p ∉ m.written) : p.Same s t := by
  have hparts : ∀ (ms : List Micro) (u : State), (∀ m ∈ ms, p ∉ m.written) → p.Same s u ∧ u.saved = none →
      (runParts ms u).After fun u => p.Same s u ∧ u.saved = none := by
    intro ms
    induction ms with
    | nil => exact fun u _ hu => hu
    | cons m ms ih =>
      rintro u hms ⟨hu, hus⟩
      refine Result.After.andThen (P := fun u => p.Same s u ∧ u.saved = none) ?_
        (fun v hv => ih v (fun m hm => hms m (List.mem_cons_of_mem _ hm)) hv) fun _ hv => hv
      refine ((m.run_keeps p (hms m List.mem_cons_self) u).and (m.run_keeps_acceptance u)).mono ?_
      rintro v ⟨hv, -, hvs⟩
      exact ⟨hu.trans hv, hvs.trans hus⟩
  have hrun := hparts ms s hp ⟨.refl p s, hs⟩
  unfold wireCommand at h
  cases hr : runParts ms s
  case fault => rw [hr] at h; cases h
  case raised e u =>
    rw [hr] at h hrun
    cases h
    obtain ⟨hu, hus⟩ := hrun
    cases p <;> simpa [Part.Same, hus, State.restore] using hu
  all_goals
    rw [hr] at h hrun
    cases h
    exact hrun.1

end Sys2Proof.Machine

open Sys2Proof Sys2Proof.Machine

/-- Settles O59: a plain move appends nothing, a stretch of an operation only appends, and neither writes a parameter;
the block's reset, which empties the trace, keeps the parameters. -/
theorem traceOnlyGrows : Obligations.TraceOnlyGrows := by
  intro s t hstep
  rcases step_moves hstep with ⟨h, f, st, an, e, g, rfl, -⟩ | ⟨i, h, f, g, -, -, -, hrun⟩ | ⟨i, n, h, -, hrun⟩ |
    ⟨rest, hhost, rfl⟩
  · exact ⟨rfl, fun _ => List.prefix_rfl⟩
  · obtain ⟨hcfg, htrace⟩ := runMicros_trace_grows hrun
    exact ⟨hcfg, fun _ => htrace⟩
  · obtain ⟨hcfg, htrace⟩ := runMicros_trace_grows hrun
    exact ⟨hcfg, fun _ => htrace⟩
  · exact ⟨rfl, fun hno => absurd hhost (hno rest)⟩

end

section
/-! PROOFS. Who writes what (R31): the parts each instruction leaves alone are those none of its steps writes. -/

namespace Sys2Proof.Machine

/-- The instructions that leave a part as it was, as R31 and R37 name the writers of the others. -/
def Part.sparedBy : Part → Instr → Bool
  | .frame, i => decide (i ≠ .reflush)
  | .work, i =>
    decide (i ∉ [.enc1 true, .enc1 false, .enc4, .dither, .upd1 true, .upd1 false, .upd4, .reflush])
  | .plane1, i => decide (i ∉ [.enc1 true, .enc1 false, .upd1 true, .upd1 false, .reflush])
  | .plane2, i => decide (i ∉ [.enc4, .upd4, .reflush])
  | .old, i => decide (i ∉ [.upd1 true, .upd1 false, .reflush])
  | .oldValid, i => decide (i ∉ [.upd1 true, .upd1 false, .clear true, .clear false, .reflush])
  | .cache, i => decide (i ∉ [.upd1 true, .upd1 false, .upd4, .clear true, .clear false, .reflush])
  | .lines, i | .panel, i =>
    decide (i ∈ [.picdisp, .picdisp4g, .picclear, .enc1 true, .enc1 false, .enc4, .dither] ∨ i.format = .wire)

/-- No step of an instruction writes a part it is to spare. -/
theorem not_mem_written_of_sparedBy {p : Part} {i : Instr} (h : p.sparedBy i = true) :
    ∀ m ∈ program i, p ∉ m.written := by
  have hall : allInstrs.all (fun i => !p.sparedBy i || (program i).all fun m => !decide (p ∈ m.written)) = true := by
    cases p <;> decide +kernel
  simpa [h] using forall_of_allInstrs hall i

/-- Acceptance touches no part. -/
theorem Part.Same.accept (p : Part) (s : State) (i : Instr) : p.Same s (s.accept i) := by
  cases p <;> simp [Part.Same]

/-- From rest an instruction leaves every part it is to spare, however the step that issues it ends. -/
theorem exec_keeps {i : Instr} {s t : State} (hr : s.run = false) (hs : s.saved = none) (h : exec i s = .next t)
    (p : Part) (hp : p.sparedBy i = true) : p.Same s t := by
  have hw := not_mem_written_of_sparedBy hp
  cases hi : i.format with
  | wire =>
    rw [exec_wire i s hi] at h
    exact wireCommand_keeps hs h p fun m hm => hw m ((List.takeWhile_sublist _).subset hm)
  | host =>
    rw [exec_idle i s hi hr] at h
    rcases runMicros_keeps rfl (s.accept_saved i) h with ⟨-, hkeep⟩ | ⟨-, -, hsnap, hkeep⟩
    · exact (Part.Same.accept p s i).trans (hkeep p hw)
    · cases hres : p.restored with
      | true => exact .of_snapshot hsnap hres
      | false => exact (Part.Same.accept p s i).trans (hkeep p hres hw)

/-- A step in flight, other than the block's reset, leaves every part the operation is to spare, unless it ends the
operation with an error; then it leaves the scratch parts, and the bookkeeping is as at acceptance. -/
theorem step_keeps {i : Instr} {n : Nat} {s t : State} {v : Saved} (hr : s.run = true) (hc : s.cursor = some (i, n))
    (hv : s.saved = some v) (hno : ∀ rest, s.host ≠ .reset :: rest) (h : step s = .next t) :
    ((t.run = true ∨ t.err = .none) ∧ ∀ p : Part, p.sparedBy i = true → p.Same s t) ∨
      (t.run = false ∧ t.err ≠ .none ∧ t.snapshot = v ∧
        ∀ p : Part, p.restored = false → p.sparedBy i = true → p.Same s t) := by
  rcases step_moves h with ⟨h, f, st, an, e, g, rfl, hf, -⟩ | ⟨j, h, f, g, -, hr', -⟩ | ⟨j, m, h, hc', hrun⟩ |
    ⟨rest, hhost, -⟩
  · have hframe : f = s.frame := by
      rcases hf with hf | ⟨hr', -⟩ | ⟨hr', -⟩
      · exact hf
      · simp [hr] at hr'
      · simp [hr] at hr'
    subst hframe
    exact .inl ⟨.inl hr, fun p _ => by cases p <;> simp [Part.Same]⟩
  · simp [hr] at hr'
  · cases hc.symm.trans hc'
    have hw : ∀ {p : Part}, p.sparedBy i = true → ∀ m ∈ (program i).drop n, p ∉ m.written :=
      fun hp m hm => not_mem_written_of_sparedBy hp m (List.mem_of_mem_drop hm)
    have hstart : ∀ p : Part, p.Same s { s with host := h } := fun p => by cases p <;> simp [Part.Same]
    refine (runMicros_keeps (s := { s with host := h }) hr hv hrun).imp ?_ ?_
    · exact fun ⟨hend, hkeep⟩ => ⟨hend, fun p hp => (hstart p).trans (hkeep p (hw hp))⟩
    · exact fun ⟨hend, herr, hsnap, hkeep⟩ =>
        ⟨hend, herr, hsnap, fun p hres hp => (hstart p).trans (hkeep p hres (hw hp))⟩
  · exact absurd hhost (hno rest)

end Sys2Proof.Machine

open Sys2Proof Sys2Proof.Machine

/-- Settles O60: the statement's lines are the parts, and its lists the instructions that spare each. -/
theorem whoWritesWhat : Obligations.WhoWritesWhat := by
  unfold Obligations.WhoWritesWhat
  intro kept booksKept
  have hkept : ∀ i s t, (∀ p : Part, p.restored = false → p.sparedBy i = true → p.Same s t) → kept i s t :=
    fun i s t h => ⟨fun hi => h .frame rfl (decide_eq_true hi), fun hi => h .work rfl (decide_eq_true hi),
      fun hi => h .plane1 rfl (decide_eq_true hi), fun hi => h .plane2 rfl (decide_eq_true hi),
      fun hi => h .lines rfl (decide_eq_true hi)⟩
  have hbooks : ∀ i s t, (∀ p : Part, p.sparedBy i = true → p.Same s t) → booksKept i s t :=
    fun i s t h => ⟨fun hi => h .old (decide_eq_true hi), fun hi => h .oldValid (decide_eq_true hi),
      fun hi => h .cache (decide_eq_true hi), fun hi => h .panel (decide_eq_true hi)⟩
  refine ⟨fun s t i hr hs h => ?_, fun s t i n v hr hc hv hno h => ?_⟩
  · have hkeep := exec_keeps hr hs h
    exact ⟨hkept i s t fun p _ => hkeep p, hbooks i s t hkeep⟩
  · rcases step_keeps hr hc hv hno h with ⟨hend, hkeep⟩ | ⟨hend, herr, hsnap, hkeep⟩
    · refine ⟨hkept i s t fun p _ => hkeep p, fun _ => hbooks i s t hkeep, fun hr' he => ?_⟩
      exact absurd hend (by simp [hr', he])
    · exact ⟨hkept i s t hkeep, fun hend' => absurd hend' (by simp [hend, herr]), fun _ _ => hsnap⟩

end

section
/-! PROOFS. An operation that comes to read a buffer of which some element is unwritten stops with the fault of that
buffer (R36, U1). -/

namespace Sys2Proof.Machine

/-! ### The operands -/

theorem State.frameOperand_of_lacks {s : State} (h : s.frame.lacks s.cfg.samples) :
    s.frameOperand = .error (.unwritten .frame) := by
  simp [State.frameOperand, Memory.readAll_of_lacks h]

theorem State.cacheOperand_of_lacks {s : State} (h : s.cache.lacks s.cfg.samples) :
    s.cacheOperand = .error (.unwritten .cache) := by
  simp [State.cacheOperand, Memory.readAll_of_lacks h]

theorem State.plane1Operand_of_lacks {s : State} (h : s.plane1.lacks s.cfg.plane1Bytes) :
    s.plane1Operand = .error (.unwritten .plane1) := by
  simp [State.plane1Operand, Memory.readAll_of_lacks h]

theorem State.plane2Operand_of_lacks {s : State} (h : s.plane2.lacks s.cfg.plane2Bytes) :
    s.plane2Operand = .error (.unwritten .plane2) := by
  simp [State.plane2Operand, Memory.readAll_of_lacks h]

theorem State.oldOperand_of_lacks {s : State} (hv : s.oldValid = true) (h : s.old.lacks s.cfg.plane1Bytes) :
    s.oldOperand = .error (.unwritten .old) := by
  simp [State.oldOperand, hv, Memory.readAll_of_lacks h]

@[simp] theorem DataSource.bytes_log (d : DataSource) (s : State) (es : List Event) :
    d.bytes (s.log es) = d.bytes s := by
  cases d <;> rfl

@[simp] theorem DataSource.bytes_accept (d : DataSource) (s : State) (i : Instr) :
    d.bytes (s.accept i) = d.bytes s := by
  cases d <;> rfl

/-! ### The steps that read -/

theorem Micro.run_encode1_of_lacks {s : State} (h : s.frame.lacks s.cfg.samples) (d : Bool) :
    (Micro.encode1 d).run s = .fault (.unwritten .frame) := by
  simp [Micro.run, State.frameOperand_of_lacks h, withOperand]

theorem Micro.run_encode4_of_lacks {s : State} (h : s.frame.lacks s.cfg.samples) :
    Micro.encode4.run s = .fault (.unwritten .frame) := by
  simp [Micro.run, State.frameOperand_of_lacks h, withOperand]

theorem Micro.run_ditherFrame_of_lacks {s : State} (h : s.frame.lacks s.cfg.samples) :
    Micro.ditherFrame.run s = .fault (.unwritten .frame) := by
  simp [Micro.run, State.frameOperand_of_lacks h, withOperand]

theorem Micro.run_cacheToFrame_of_lacks {s : State} (h : s.cache.lacks s.cfg.samples) :
    Micro.cacheToFrame.run s = .fault (.unwritten .cache) := by
  simp [Micro.run, State.cacheOperand_of_lacks h, withOperand]

theorem Micro.run_payload_of_error {s : State} {d : DataSource} {f : Fault} (h : d.bytes s = .error f) :
    (Micro.payload d).run s = .fault f := by
  simp [Micro.run, h, withOperand]

/-! ### The operations -/

/-- A host operation that is accepted stops where its steps lead to one that faults, however often the panel is found
busy. -/
theorem exec_faults_of_leads {i : Instr} {k : Nat} {s t : State} {ms rest : List Micro} {m : Micro} {f : Fault}
    (hi : i.format = .host) (hr : s.run = false) (hp : program i = ms ++ m :: rest) (h : Leads k ms (s.accept i) t)
    (hm : ∀ q, m.run (t.pos q) = .fault f) :
    (k = 0 → exec i s = .fault f) ∧ (s.host = [] → thenSteps k (exec i s) = .fault f) :=
  faults_of_leads i (exec_host i s hi) hr hp h hm

/-- A host operation whose first step faults. -/
theorem exec_faults_at_once {i : Instr} {s : State} {rest : List Micro} {m : Micro} {f : Fault}
    (hi : i.format = .host) (hr : s.run = false) (hp : program i = m :: rest)
    (hm : ∀ q, m.run ((s.accept i).pos q) = .fault f) :
    exec i s = .fault f :=
  (exec_faults_of_leads (ms := []) hi hr hp (.nil _) hm).1 rfl

/-- A wire transaction whose data has no value: the command is sent, then the block stops. -/
theorem wireCommand_faults {c : Byte} {d : DataSource} {s : State} {f : Fault} (ho : s.own = true)
    (hx : s.transportGood) (hd : d.bytes s = .error f) : wireCommand (transaction c d) s = .fault f := by
  have hcmd : (Micro.command c).run s = .ok (s.log (commandEvents c)) := s.bus_good _ ho hx
  have hdata := Micro.run_payload_of_error ((d.bytes_log s (commandEvents c)).trans hd)
  simp [wireCommand, transaction, runParts, hcmd, hdata, Result.andThen]

theorem transferSteps_eq_old (q : Sequence) (ps : List PanelState) (k : TransferKind) :
    ∃ rest, transferSteps q ps k = [.need ps, .pause q 0, .command 0x10#8] ++ .payload (oldDataSource k) :: rest :=
  ⟨_, rfl⟩

theorem transferSteps_eq_new (q : Sequence) (ps : List PanelState) (k : TransferKind) :
    ∃ rest, transferSteps q ps k =
      [.need ps, .pause q 0] ++ transaction 0x10#8 (oldDataSource k) ++ [.pause q 1, .command 0x13#8] ++
        .payload (newDataSource k) :: rest :=
  ⟨_, rfl⟩

section
variable {i : Instr} {q : Sequence} {ps : List PanelState} {k : TransferKind} {s : State} {f : Fault}
  (hi : i.format = .host) (hp : program i = transferSteps q ps k) (hr : s.run = false) (ho : s.own = true)
  (hx : s.transportGood) (hlegal : s.panelState ∈ ps)
include hi hp hr ho hx hlegal

/-- A transfer operation whose old plane has no value stops after 0x10. -/
theorem exec_transfer_faults_old (hd : (oldDataSource k).bytes s = .error f) : exec i s = .fault f := by
  obtain ⟨rest, hsteps⟩ := transferSteps_eq_old q ps k
  have hlead := (Leads.need (s := s.accept i) hlegal).append
    ((Leads.pause _ q 0).append (Leads.command (c := 0x10#8) ho hx))
  refine (exec_faults_of_leads hi hr (hp.trans hsteps) hlead fun q => Micro.run_payload_of_error ?_).1 rfl
  simpa [DataSource.bytes_pos] using hd

/-- A transfer operation whose new plane has no value stops after 0x13, the old plane sent. -/
theorem exec_transfer_faults_new {a : List Byte} (ha : (oldDataSource k).bytes s = .ok a)
    (hd : (newDataSource k).bytes s = .error f) : exec i s = .fault f := by
  obtain ⟨rest, hsteps⟩ := transferSteps_eq_new q ps k
  have hold := Leads.sent (c := 0x10#8) (d := oldDataSource k) (bs := a)
    (s := (s.accept i).log (gapEvents s.cfg q 0)) ho hx (by simpa using ha)
  have hlead := (Leads.need (s := s.accept i) hlegal).append ((Leads.pause _ q 0).append
    (hold.append ((Leads.pause _ q 1).append (Leads.command (c := 0x13#8) ho hx))))
  refine (exec_faults_of_leads hi hr (hp.trans hsteps) hlead fun q => Micro.run_payload_of_error ?_).1 rfl
  simpa [DataSource.bytes_pos] using hd

end

theorem update1Steps_eq (d : Bool) :
    ∃ rest, update1Steps d = ([.need notDeinit] ++ call .ensure1bit ensure1bitSteps) ++ .encode1 d :: rest :=
  ⟨_, rfl⟩

theorem update4Steps_eq :
    ∃ rest, update4Steps = ([.need notDeinit] ++ call (.word .init4g) init4graySteps) ++ .encode4 :: rest :=
  ⟨_, rfl⟩

theorem mem_notDeinit {p : PanelState} (h : p ≠ .deinit) : p ∈ notDeinit := by
  cases p <;> simp_all [notDeinit]

/-- `pic_display_clear()` on a good transport, in a 1-bit powered state. -/
theorem Leads.picClear {s : State} {n : Nat} (ho : s.own = true) (hx : s.transportGood) (hb : s.busyFor [n])
    (hp : s.panelState ∈ oneBitPowered) :
    Leads n picClearSteps s { s with
      dc := Config.dcCommand
      pollElapsed := n * s.cfg.pollIntervalMs
      busyIn := s.busyIn.drop (n + 1)
      trace := s.trace ++ transferEvents s.cfg .picDisplay (whitePlane s.cfg) (whitePlane s.cfg) n } :=
  (Leads.transfer .picDisplay .white oneBitPowered _ _ ho hx hb hp (fun _ => rfl) fun _ => rfl).inner (.word .picdisp)

/-- What `ensure_1bit()` does in 4-gray, on a good transport: it comes to `FAST`, and leaves `FRAME`. -/
theorem Leads.leaveGray {s : State} {a b : Nat} (hx : s.transportGood) (hb : s.busyFor [a, b]) :
    ∃ t : State, Leads (a + b)
      (call (.word .initfast) initFastSteps ++ call (.word .picclear) picClearSteps ++ [.emptyOld]) s t ∧
      t.panelState = .fast ∧ t.frame = s.frame ∧ t.cfg = s.cfg := by
  obtain ⟨u, hinit, ho, hp, hux, hub, hframe, hcfg⟩ : ∃ u : State, Leads a (call (.word .initfast) initFastSteps) s u ∧
      u.own = true ∧ u.panelState = .fast ∧ u.transportGood ∧ u.busyFor [b] ∧ u.frame = s.frame ∧ u.cfg = s.cfg :=
    ⟨_, (Leads.initFast (n := a) hx (State.busyFor_head hb rfl rfl rfl)).inner (.word .initfast), rfl, rfl, hx,
      State.busyFor_tail hb rfl rfl rfl, rfl, rfl⟩
  have hclear := (Leads.picClear ho hux hub (by simp [hp, oneBitPowered])).inner (.word .picclear)
  exact ⟨_, (hinit.append hclear).append (Leads.one (m := .emptyOld) rfl), hp, hframe, hcfg⟩

/-- `ensure_1bit()` on a good transport comes to its end, with the polls its branches take, and leaves `FRAME`. -/
theorem Leads.ensure1bit {s : State} {ns : List Nat} (hx : s.transportGood) (hb : s.busyFor ns)
    (hn : ns.length = if s.panelState = .gray4 ∨ s.lastMode = .fourGray then 2
      else if s.panelState = .uninit ∨ s.panelState = .sleeping then 1 else 0) :
    ∃ t : State, Leads ns.sum ensure1bitSteps s t ∧ t.frame = s.frame ∧ t.cfg = s.cfg := by
  by_cases hgray : s.panelState = .gray4 ∨ s.lastMode = .fourGray
  · rw [if_pos hgray] at hn
    obtain ⟨a, b, rfl⟩ := List.length_eq_two.1 hn
    obtain ⟨t, hbranch, hfast, hframe, hcfg⟩ := Leads.leaveGray hx hb
    have hlead : Leads (a + b + 0) ensure1bitSteps s t :=
      (Leads.whenTrue (by simpa [Cond.holds] using hgray) hbranch).append
        (Leads.whenFalse (by simp [Cond.holds, hfast]))
    exact ⟨t, by simpa using hlead, hframe, hcfg⟩
  · have hskip : Cond.fromGray.holds s = false := by simpa [Cond.holds] using hgray
    rw [if_neg hgray] at hn
    by_cases hdown : s.panelState = .uninit ∨ s.panelState = .sleeping
    · rw [if_pos hdown] at hn
      obtain ⟨a, rfl⟩ := List.length_eq_one_iff.1 hn
      have hinit := (Leads.initFast (n := a) hx hb).inner (.word .initfast)
      have hlead : Leads (0 + a) ensure1bitSteps s _ :=
        (Leads.whenFalse hskip).append (Leads.whenTrue (by simpa [Cond.holds] using hdown) hinit)
      rw [Nat.zero_add] at hlead
      exact ⟨_, hlead, rfl, rfl⟩
    · rw [if_neg hdown] at hn
      obtain rfl := List.length_eq_zero_iff.1 hn
      exact ⟨s, (Leads.whenFalse hskip).append (Leads.whenFalse (by simpa [Cond.holds] using hdown)), rfl, rfl⟩

/-- UPD1 stops at the encoding, after the polls of `ensure_1bit()`. -/
theorem exec_upd1_faults {s : State} {ns : List Nat} (d : Bool) (hr : s.run = false)
    (hf : s.frame.lacks s.cfg.samples) (hd : s.panelState ≠ .deinit) (hx : s.transportGood) (hb : s.busyFor ns)
    (hn : ns.length = if s.panelState = .gray4 ∨ s.lastMode = .fourGray then 2
      else if s.panelState = .uninit ∨ s.panelState = .sleeping then 1 else 0) :
    (ns.sum = 0 → exec (.upd1 d) s = .fault (.unwritten .frame)) ∧
      (s.host = [] → thenSteps ns.sum (exec (.upd1 d) s) = .fault (.unwritten .frame)) := by
  obtain ⟨t, hensure, hframe, hcfg⟩ := Leads.ensure1bit (s := s.accept (.upd1 d)) hx
    (State.answersFrom_drop s _ 0 0 ns rfl rfl rfl hb) hn
  have hlead := (Leads.need (s := s.accept (.upd1 d)) (mem_notDeinit hd)).append (hensure.inner .ensure1bit)
  rw [Nat.zero_add] at hlead
  obtain ⟨rest, hsteps⟩ := update1Steps_eq d
  have htf : t.frame.lacks t.cfg.samples := by rw [hframe, hcfg]; exact hf
  exact exec_faults_of_leads rfl hr hsteps hlead fun q => Micro.run_encode1_of_lacks (s := t.pos q) htf d

/-- UPD4 stops at the encoding, after the poll of `init_4gray()`. -/
theorem exec_upd4_faults {s : State} {n : Nat} (hr : s.run = false) (hf : s.frame.lacks s.cfg.samples)
    (hd : s.panelState ≠ .deinit) (hx : s.transportGood) (hb : s.busyFor [n]) :
    (n = 0 → exec .upd4 s = .fault (.unwritten .frame)) ∧
      (s.host = [] → thenSteps n (exec .upd4 s) = .fault (.unwritten .frame)) := by
  have hinit := (Leads.init4gray (s := s.accept .upd4) hx (State.busyFor_head hb rfl rfl rfl)).inner (.word .init4g)
  have hlead := (Leads.need (s := s.accept .upd4) (mem_notDeinit hd)).append hinit
  rw [Nat.zero_add] at hlead
  obtain ⟨rest, hsteps⟩ := update4Steps_eq
  exact exec_faults_of_leads rfl hr hsteps hlead fun q => Micro.run_encode4_of_lacks (s := State.pos _ q) hf

end Sys2Proof.Machine

open Sys2Proof Sys2Proof.Machine

/-- Settles O36: each operation is led to the step that reads the buffer, and stops there. -/
theorem unwrittenFrameFaults : Obligations.UnwrittenFrameFaults := by
  intro s
  refine ⟨fun hr hf => ⟨fun d => ?_, ?_, ?_⟩, fun ns d hr hf hd hx hb hn => exec_upd1_faults d hr hf hd hx hb hn,
    fun n hr hf hd hx hb => exec_upd4_faults hr hf hd hx hb,
    fun ho hx => ⟨fun hv hold => ?_, fun hnew => ?_, fun hgray => ?_⟩, fun hr hv hc => ?_⟩
  · exact exec_faults_at_once rfl hr rfl fun q => Micro.run_encode1_of_lacks (s := (s.accept _).pos q) hf d
  · exact exec_faults_at_once rfl hr rfl fun q => Micro.run_encode4_of_lacks (s := State.pos _ q) hf
  · exact exec_faults_at_once rfl hr rfl fun q => Micro.run_ditherFrame_of_lacks (s := State.pos _ q) hf
  · have hd : (oldDataSource .pair).bytes s = .error (.unwritten .old) := State.oldOperand_of_lacks hv hold
    exact ⟨wireCommand_faults ho hx hd, fun hr hlegal => exec_transfer_faults_old rfl rfl hr ho hx hlegal hd⟩
  · have hd : (newDataSource .pair).bytes s = .error (.unwritten .plane1) := State.plane1Operand_of_lacks hnew
    refine ⟨wireCommand_faults ho hx hd, fun hr hlegal hv => ?_⟩
    have ha : (oldDataSource .pair).bytes s = .ok (whitePlane s.cfg) := by
      simp [oldDataSource, DataSource.bytes, State.oldOperand, hv]
    exact exec_transfer_faults_new rfl rfl hr ho hx hlegal ha hd
  · have hplane := State.plane2Operand_of_lacks hgray
    have hold : (oldDataSource .gray).bytes s = .error (.unwritten .plane2) := by
      simp [oldDataSource, DataSource.bytes, hplane, Except.map]
    have hnew : (newDataSource .gray).bytes s = .error (.unwritten .plane2) := by
      simp [newDataSource, DataSource.bytes, hplane, Except.map]
    exact ⟨wireCommand_faults ho hx hold, wireCommand_faults ho hx hnew,
      fun hr hlegal => exec_transfer_faults_old rfl rfl hr ho hx (by simp [hlegal, grayLegal]) hold⟩
  · have hlead : Leads 0 [.needCache] (s.accept .reflush) (s.accept .reflush) := .one (by simp [Micro.run, hv])
    exact (exec_faults_of_leads rfl hr rfl hlead fun q => Micro.run_cacheToFrame_of_lacks (s := State.pos _ q) hc).1 rfl

end

section
/-! PROOFS. Reads and writes of a buffer, element by element (R44), and the host's writes of `FRAME` (R59). -/

namespace Sys2Proof.Machine

variable {β : Type}

/-! ### Reads of one element -/

theorem Memory.read_cons (c : Nat × β) (m : Memory β) (k : Nat) :
    Memory.read (c :: m) k = if k = c.1 then some c.2 else Memory.read m k := by
  obtain ⟨i, v⟩ := c
  by_cases h : k = i
  · simp [Memory.read, h]
  · simp [Memory.read, List.lookup_cons, h, beq_false_of_ne h]

theorem Memory.read_append (m l : Memory β) (k : Nat) :
    Memory.read (m ++ l) k = (Memory.read m k).or (Memory.read l k) :=
  List.lookup_append

/-- A buffer has no value at an index it does not list (R36). -/
theorem Memory.read_eq_none {m : Memory β} {k : Nat} (h : ∀ c ∈ m, c.1 ≠ k) : m.read k = none :=
  List.lookup_eq_none_iff.2 fun c hc => by simpa using (h c hc).symm

theorem Memory.read_filter (p : Nat → Bool) (m : Memory β) (k : Nat) :
    Memory.read (m.filter fun c => p c.1) k = if p k then m.read k else none := by
  cases hp : p k
  · exact Memory.read_eq_none fun c hc hk => by simpa [hk, hp] using (List.mem_filter.1 hc).2
  · induction m with
    | nil => rfl
    | cons c m ih =>
      by_cases hk : k = c.1
      · subst hk
        simp [hp, Memory.read_cons]
      · cases hc : p c.1 <;> simp_all [Memory.read_cons]

theorem Memory.read_stretch (i j : Nat) (vs : List β) : (Memory.stretch i vs).read (i + j) = vs[j]? := by
  induction vs generalizing i j with
  | nil => rfl
  | cons v vs ih =>
    cases j with
    | zero => simp [Memory.stretch, Memory.read_cons]
    | succ j => simpa [Memory.stretch, Memory.read_cons, Nat.add_assoc, Nat.add_comm 1 j] using ih (i + 1) j

theorem Memory.read_stretch_outside {i k : Nat} {vs : List β} (h : k < i ∨ i + vs.length ≤ k) :
    (Memory.stretch i vs).read k = none :=
  Memory.read_eq_none fun c hc => by
    have := Memory.mem_stretch_bounds i vs c hc
    omega

theorem Memory.read_writeRange (m : Memory β) (i : Nat) (vs : List β) (k : Nat) :
    (m.writeRange i vs).read k =
      ((if k < i then m.read k else none).or ((Memory.stretch i vs).read k)).or
        (if i + vs.length ≤ k then m.read k else none) := by
  have hlow := Memory.read_filter (fun k => decide (k < i)) m k
  have hhigh := Memory.read_filter (fun k => decide (i + vs.length ≤ k)) m k
  simp only [decide_eq_true_eq] at hlow hhigh
  rw [Memory.writeRange, Memory.read_append, Memory.read_append, hlow, hhigh]

theorem Memory.read_writeRange_inside (m : Memory β) (i : Nat) (vs : List β) {j : Nat} (h : j < vs.length) :
    (m.writeRange i vs).read (i + j) = vs[j]? := by
  simp [Memory.read_writeRange, Memory.read_stretch, h]

theorem Memory.read_writeRange_outside (m : Memory β) {i k : Nat} {vs : List β} (h : k < i ∨ i + vs.length ≤ k) :
    (m.writeRange i vs).read k = m.read k := by
  rw [Memory.read_writeRange, Memory.read_stretch_outside h]
  rcases h with h | h
  · simp [h, show ¬ i + vs.length ≤ k by omega]
  · simp [h, show ¬ k < i by omega]

/-! ### Reads of consecutive elements -/

@[simp] theorem Memory.readRange_zero (m : Memory β) (i : Nat) : m.readRange i 0 = some [] := rfl

theorem Memory.readRange_succ (m : Memory β) (i n : Nat) :
    m.readRange i (n + 1) = (m.read i).bind fun v => (m.readRange (i + 1) n).map (v :: ·) := by
  have hshift : (fun k => m.read (i + k)) ∘ Nat.succ = fun k => m.read (i + 1 + k) := by
    funext k
    simp [Nat.add_assoc, Nat.add_comm 1 k]
  simp only [Memory.readRange, List.range_succ_eq_map, List.mapM_cons, List.mapM_map, hshift, Nat.add_zero]
  cases m.read i <;> cases (List.range n).mapM fun k => m.read (i + 1 + k) <;> rfl

/-- A read of consecutive elements asks the buffer at their indices only. -/
theorem Memory.readRange_congr {m l : Memory β} {i n : Nat} (h : ∀ k, i ≤ k → m.read k = l.read k) :
    m.readRange i n = l.readRange i n := by
  have hread : (fun k => m.read (i + k)) = fun k => l.read (i + k) := funext fun k => h _ (Nat.le_add_right i k)
  simp only [Memory.readRange, hread]

/-- A range of which every element is known is read as the list of them. -/
theorem Memory.readRange_eq_some {m : Memory β} {i : Nat} {vs : List β}
    (h : ∀ j, j < vs.length → m.read (i + j) = vs[j]?) : m.readRange i vs.length = some vs := by
  induction vs generalizing i with
  | nil => rfl
  | cons v vs ih =>
    have hhead : m.read i = some v := h 0 (by simp)
    have htail : m.readRange (i + 1) vs.length = some vs := ih fun j hj => by
      simpa [Nat.add_assoc, Nat.add_comm 1 j] using h (j + 1) (by simpa using hj)
    simp [Memory.readRange_succ, hhead, htail]

/-- In canonical form, the first `n` elements are those at the `n` indices from `i` on, or one of these is missing. -/
theorem Memory.readRange_eq_take {m : Memory β} (n : Nat) {i : Nat} (hm : m.wf) (hi : ∀ c ∈ m, i ≤ c.1) :
    m.readRange i n =
      if (m.take n).map Prod.fst = List.range' i n then some ((m.take n).map Prod.snd) else none := by
  induction n generalizing m i with
  | zero => simp
  | succ n ih =>
    cases m with
    | nil => simp [Memory.readRange_succ, Memory.read, List.range'_succ]
    | cons c m =>
      obtain ⟨habove, hm⟩ := List.pairwise_cons.1 hm
      by_cases hc : c.1 = i
      · subst hc
        have hrest : Memory.readRange (c :: m) (c.1 + 1) n = Memory.readRange m (c.1 + 1) n :=
          Memory.readRange_congr fun k hk => by rw [Memory.read_cons, if_neg (by omega)]
        rw [Memory.readRange_succ, hrest, ih hm habove, Memory.read_cons, if_pos rfl]
        by_cases htail : (m.take n).map Prod.fst = List.range' (c.1 + 1) n <;> simp [List.range'_succ, htail]
      · have hmissing : Memory.read (c :: m) i = none := Memory.read_eq_none fun d hd hdi => by
          have hle := hi c (by simp)
          rcases List.mem_cons.1 hd with rfl | hd
          · exact hc hdi
          · have := habove d hd
            omega
        simp [Memory.readRange_succ, hmissing, List.range'_succ, hc]

/-- In canonical form the one-pass read of the whole is the read of its elements in index order. -/
theorem Memory.readAll_eq_readRange {m : Memory β} (n : Nat) (hm : m.wf) : m.readAll n = m.readRange 0 n := by
  rw [Memory.readRange_eq_take n hm fun c _ => Nat.zero_le c.1, Memory.readAll, List.range_eq_range']

end Sys2Proof.Machine

open Sys2Proof Sys2Proof.Machine

/-- Settles O10: a written range is known element by element, and the whole is read by induction along the list. -/
theorem bufferReadsAndWrites : Obligations.BufferReadsAndWrites := fun m i n vs hm =>
  ⟨m.wf_writeRange i vs hm, Memory.readRange_eq_some fun _ => m.read_writeRange_inside i vs,
    fun _ => m.read_writeRange_outside, Memory.readAll_eq_readRange n hm⟩

/-- Settles O11: the write port's three answers. -/
theorem hostFrameWrites : Obligations.HostFrameWrites := by
  intro s i vs rest hh
  have hport : step s = hostWriteFrame i vs { s with host := rest } := by simp only [step, hh]
  refine ⟨fun hr => ?_, fun hr hin => ?_, fun hr hout => ?_⟩
  · simp [hport, hostWriteFrame, hr]
  · simp [hport, hostWriteFrame, hr, hin]
  · simp [hport, hostWriteFrame, hr, Nat.not_le.2 hout]

end

section
/-! PROOFS. The bus primitives event by event: what each does on a good transport, where the transport fails it, and without
the lines (R45 to R49); and with them the wire commands that are cut short (R215, R218). -/

namespace Sys2Proof.Machine

/-! ### A run of events that the transport fails -/

/-- A run of events that a failure cuts short: those before the failing one have happened, then `Fail` (R49). -/
theorem State.attempt_cut {s : State} {es : List Event} {k : Nat} {ks : List Nat} (hx : s.xferFails = k :: ks)
    (hk : k < es.length) : s.attempt es = .raised .transport ((s.log (es.take k ++ [.fail])).fails ks) := by
  simp only [State.attempt, hx, if_neg (Nat.not_le.2 hk), State.fails]

theorem State.bus_cut {s : State} {es : List Event} {k : Nat} {ks : List Nat} (ho : s.own = true)
    (hx : s.xferFails = k :: ks) (hk : k < es.length) :
    s.bus es = .raised .transport ((s.log (es.take k ++ [.fail])).fails ks) := by
  rw [State.bus, if_pos ho, State.attempt_cut hx hk]

/-- A run of events all of which come before the next failure. -/
theorem State.bus_passes {s : State} {es : List Event} {k : Nat} {ks : List Nat} (ho : s.own = true)
    (hx : s.xferFails = (es.length + k) :: ks) : s.bus es = .ok ((s.log es).fails (k :: ks)) := by
  simp [State.bus, ho, State.attempt, hx, State.fails]

/-- Without the lines a bus primitive fails at once (R45). -/
theorem State.bus_unowned {s : State} (ho : s.own = false) (es : List Event) :
    s.bus es = .raised .transport (s.log [.fail]) := by
  simp [State.bus, ho]

/-! ### `write_data` -/

@[simp] theorem length_dataEvents (bs : List Byte) : (dataEvents bs).length = bs.length + 1 := by
  simp [dataEvents]

theorem take_succ_dataEvents (bs : List Byte) (k : Nat) :
    (dataEvents bs).take (k + 1) = dataEvents (bs.take k) := by
  simp [dataEvents, List.map_take]

@[simp] theorem abstractTrace_append (es fs : List Event) :
    abstractTrace (es ++ fs) = abstractTrace es ++ abstractTrace fs :=
  List.filter_append ..

/-- In the abstract trace a bulk write is its bytes (R46). -/
@[simp] theorem abstractTrace_dataEvents (bs : List Byte) : abstractTrace (dataEvents bs) = bs.map .data := by
  simp [abstractTrace, dataEvents]

/-- A `write_data` that fails at byte `k` has sent the `k` bytes before it. -/
theorem State.writeData_cut {s : State} {bs : List Byte} {k : Nat} {ks : List Nat} (ho : s.own = true)
    (hk : k < bs.length) (hx : s.xferFails = (1 + k) :: ks) :
    s.writeData bs = .raised .transport ((s.log (dataEvents (bs.take k) ++ [.fail])).fails ks) := by
  have hx : s.xferFails = (k + 1) :: ks := by rw [hx, Nat.add_comm]
  rw [State.writeData, State.bus_cut ho hx (by simpa using hk), take_succ_dataEvents]

/-! ### Wire commands cut short -/

theorem Micro.run_payload_of_ok {s : State} {d : DataSource} {bs : List Byte} (h : d.bytes s = .ok bs) :
    (Micro.payload d).run s = s.writeData bs := by
  simp [Micro.run, h, withOperand]

/-- A wire transaction whose data the transport fails at byte `k`. -/
theorem wireCommand_cut {c : Byte} {d : DataSource} {s : State} {bs : List Byte} {k : Nat} {ks : List Nat}
    (ho : s.own = true) (hd : d.bytes s = .ok bs) (hk : k < bs.length) (hx : s.xferFails = (3 + k) :: ks) :
    wireCommand (transaction c d) s =
      .next (((s.log (txEvents c (bs.take k) ++ [.fail])).fails ks).errorEntry .transport) := by
  let t := (s.log (commandEvents c)).fails ((1 + k) :: ks)
  have hcmd : (Micro.command c).run s = .ok t := State.bus_passes ho (by rw [hx]; simp [commandEvents]; omega)
  have hdata : (Micro.payload d).run t = .raised .transport ((t.log (dataEvents (bs.take k) ++ [.fail])).fails ks) := by
    have ht : d.bytes t = .ok bs := by rw [d.bytes_fails, d.bytes_log, hd]
    rw [Micro.run_payload_of_ok ht, State.writeData_cut (s := t) ho hk rfl]
  have hlog : (t.log (dataEvents (bs.take k) ++ [.fail])).fails ks =
      (s.log (txEvents c (bs.take k) ++ [.fail])).fails ks := by
    rw [txEvents, List.append_assoc, ← s.log_log (commandEvents c)]
    rfl
  simp only [wireCommand, transaction, runParts, hcmd, hdata, hlog, Result.andThen]

/-- Error entry after a run of events that is cut short: the bookkeeping goes back, the operation has ended, and with it the
animation whose update it was (R215, R218). -/
theorem State.errorEntry_log (s : State) (es : List Event) (ks : List Nat) (e : ErrCode) :
    ((s.log es).fails ks).errorEntry e = { s.restore s.saved with
      trace := s.trace ++ es
      dc := levelAfter .dc es s.dc
      rst := levelAfter .rst es s.rst
      xferFails := ks
      stop := if s.issuer = .worker then false else s.stop
      anim := if s.issuer = .worker then false else s.anim
      err := e
      run := false
      seqPos := []
      cursor := none
      saved := none } := by
  cases hv : s.saved <;> cases hi : s.issuer <;> simp [State.errorEntry, State.fails, State.restore, State.log, hv, hi]

/-- Each of the six forms is a transaction whose data is its own plane (R90 to R92, R200, R201). -/
theorem State.forPlaneTransfers_of_transactions {s : State} {P : Instr → Byte → List Byte → Prop}
    (h : ∀ i c d bs, exec i s = wireCommand (transaction c d) s → d.bytes s = .ok bs → P i c bs) :
    s.forPlaneTransfers P := by
  refine ⟨fun o hold hwhite => ?_, fun n hn => ?_, h _ _ .whitePlane _ rfl rfl, h _ _ .whitePlane _ rfl rfl,
    fun g hg => ?_⟩
  · have hbytes : DataSource.oldPlane.bytes s = .ok o := by
      cases hv : s.oldValid
      · simp [DataSource.bytes, State.oldOperand, hv, hwhite hv, whitePlane]
      · simp [DataSource.bytes, State.oldOperand, hv, hold hv]
    exact h _ _ .oldPlane o rfl hbytes
  · exact h _ _ .newPlane n rfl (by simp [DataSource.bytes, State.plane1Operand, hn])
  · have hgray : s.plane2Operand = .ok g := by simp [State.plane2Operand, hg]
    exact ⟨h _ _ .oldHalf _ rfl (by simp [DataSource.bytes, hgray, Except.map]),
      h _ _ .newHalf _ rfl (by simp [DataSource.bytes, hgray, Except.map])⟩

/-- Without the lines a wire command fails at its command byte. -/
theorem wireCommand_unowned {c : Byte} {s : State} (ho : s.own = false) (ms : List Micro) :
    wireCommand (.command c :: ms) s = .next ((s.log [.fail]).errorEntry .transport) := by
  have hcmd : (Micro.command c).run s = .raised .transport (s.log [.fail]) := State.bus_unowned ho _
  simp [wireCommand, runParts, hcmd, Result.andThen]

end Sys2Proof.Machine

open Sys2Proof Sys2Proof.Machine

/-- Settles O12: the primitives are runs of events, which a good transport lets through and a bad one cuts at the event it
fails. -/
theorem bulkWriteIsSingleWrites : Obligations.BulkWriteIsSingleWrites := by
  refine ⟨fun s b bs ho => ⟨fun hx => ?_, fun k ks hk hx => ?_⟩,
    fun s c v ho => ⟨fun hx => ⟨?_, ?_⟩, fun ks => ⟨fun hx => ?_, fun hx => ?_⟩⟩,
    fun s => ⟨fun ho => ?_, fun ho hx => ?_, fun ks ho hx => ?_⟩⟩
  · refine ⟨_, _, _, s.bus_good _ ho hx, s.bus_good _ ho hx, State.bus_good _ _ ho hx, ?_, ?_, ?_⟩
    · simp
    · simp [State.log]
    · simp [State.log, dataEvents]
  · have hlen : ((b :: bs).take k).length = k := List.length_take_of_le (Nat.le_succ_of_le hk)
    rw [State.writeData_cut ho (Nat.lt_succ_of_le hk) hx]
    generalize (b :: bs).take k = sent at hlen ⊢
    simp [State.fails, State.log, dataEvents, levelAfter_append, hlen]
  · rw [State.writeCommand, s.bus_good _ ho hx]
    simp [State.log, commandEvents]
  · rw [State.setReset, s.bus_good _ ho hx]
    simp [State.log]
  · have hfirst : ∀ es, 0 < es.length → s.bus es = .raised .transport ((s.log [.fail]).fails ks) := fun es he =>
      State.bus_cut ho hx he
    exact ⟨hfirst _ (by simp [commandEvents]), hfirst _ (by simp), fun bs => hfirst _ (by simp)⟩
  · rw [State.writeCommand, State.bus_cut ho hx (by simp [commandEvents])]
    simp [State.fails, State.log, commandEvents]
  · simp [State.acquire, ho]
  · rw [s.acquire_good hx]
    simp [acquireEvents, State.log, ho]
  · have hcut : s.attempt [.acquire] = .raised .transport ((s.log [.fail]).fails ks) :=
      State.attempt_cut hx Nat.zero_lt_one
    simp [State.acquire, ho, hcut, Result.andThen, State.fails, State.log]

/-- Settles O17: every form is a transaction, cut at a byte of its plane, and the error ends the operation. -/
theorem failureInsideAPlane : Obligations.FailureInsideAPlane := by
  intro s ho
  refine State.forPlaneTransfers_of_transactions fun i c d bs hi hd k ks hk hx => ?_
  rw [hi, wireCommand_cut ho hd hk hx, State.errorEntry_log]
  simp [txEvents, commandEvents, dataEvents, levelAfter_append]

/-- Settles O18: a wire command begins with its command byte, whether data follow or not. -/
theorem noOwnershipIsTransportError : Obligations.NoOwnershipIsTransportError := by
  intro s i ho hi
  rw [exec_wire i s hi]
  rcases wireParts_eq i hi with ⟨hparts, -⟩ | ⟨d, hparts, -⟩
  · rw [hparts, wireCommand_unowned ho]
  · rw [hparts, transaction, wireCommand_unowned ho]

end

section
/-! PROOFS. Where each pixel lands in a packed plane (R42, R43, R114, R115). -/

namespace Sys2Proof

/-! ### Rows -/

/-- Element `j` of row `r` of rows put together, each `n` long. -/
theorem getElem?_flatMap_of_rows {α β : Type} {n : Nat} (f : α → List β) (hf : ∀ a, (f a).length = n) (ls : List α)
    (r : Nat) {j : Nat} (hj : j < n) : (ls.flatMap f)[r * n + j]? = ls[r]?.bind fun a => (f a)[j]? := by
  induction ls generalizing r with
  | nil => simp
  | cons a ls ih =>
    cases r with
    | zero => simp [List.getElem?_append_left, hf, hj]
    | succ r =>
      have hpast : (f a).length ≤ (r + 1) * n + j := by rw [hf, Nat.succ_mul]; omega
      have hrest : (r + 1) * n + j - (f a).length = r * n + j := by rw [hf, Nat.succ_mul]; omega
      rw [List.flatMap_cons, List.getElem?_append_right hpast, hrest, ih, List.getElem?_cons_succ]

theorem getElem?_rowsOf {α : Type} (w : Nat) (l : List α) {r h : Nat} (hr : r < h) :
    (rowsOf w h l)[r]? = some ((l.drop (r * w)).take w) := by
  induction h generalizing l r with
  | zero => cases hr
  | succ h ih =>
    cases r with
    | zero => simp [rowsOf]
    | succ r =>
      rw [rowsOf, List.getElem?_cons_succ, ih _ (Nat.lt_of_succ_lt_succ hr), List.drop_drop, Nat.succ_mul, Nat.add_comm]

/-- Place `x` of row `r`, found by the groups of `m` places it is cut into. -/
theorem some_getD_of_row {α : Type} {w h r x : Nat} (m : Nat) (d : α) {l : List α} (hl : l.length = w * h) (hx : x < w)
    (hr : r < h) :
    some ((((l.drop (r * w)).take w).drop (m * (x / m))).getD (x % m) d) = l[r * w + x]? := by
  have hin : r * w + x < l.length := by
    have hrows : (r + 1) * w ≤ h * w := Nat.mul_le_mul_right w hr
    rw [hl, Nat.mul_comm w h]
    rw [Nat.succ_mul] at hrows
    omega
  rw [List.getD_eq_getElem?_getD, List.getElem?_drop, Nat.div_add_mod, List.getElem?_take_of_lt hx, List.getElem?_drop,
    List.getElem?_eq_getElem hin, Option.getD_some]

theorem getElem?_packRow1 (pad : Bool) {n j : Nat} (bits : List Bool) (hj : j < n) :
    (packRow1 pad n bits)[j]? = some (packByte1 pad (bits.drop (8 * j))) := by
  induction n generalizing bits j with
  | zero => cases hj
  | succ n ih =>
    cases j with
    | zero => rfl
    | succ j =>
      rw [packRow1, List.getElem?_cons_succ, ih _ (Nat.lt_of_succ_lt_succ hj), List.drop_drop, Nat.mul_succ, Nat.add_comm]

theorem getElem?_packRow2 (pad : Bool) {n j : Nat} (codes : List Code) (hj : j < n) :
    (packRow2 pad n codes)[j]? = some (packByte2 pad (codes.drop (4 * j))) := by
  induction n generalizing codes j with
  | zero => cases hj
  | succ n ih =>
    cases j with
    | zero => rfl
    | succ j =>
      rw [packRow2, List.getElem?_cons_succ, ih _ (Nat.lt_of_succ_lt_succ hj), List.drop_drop, Nat.mul_succ, Nat.add_comm]

/-- Byte `j` of row `r` of the 1-bit plane packs the row's pixels from `8·j` on (R114). -/
theorem getElem?_pack1 (p : Params) (bits : List Bool) {r j : Nat} (hr : r < p.h) (hj : j < p.stride1) :
    (pack1 p bits)[r * p.stride1 + j]? =
      some (packByte1 p.padBit (((bits.drop (r * p.w)).take p.w).drop (8 * j))) := by
  rw [pack1, getElem?_flatMap_of_rows _ (length_packRow1 _ _) _ _ hj, getElem?_rowsOf _ _ hr, Option.bind_some,
    getElem?_packRow1 _ _ hj]

/-- Byte `j` of row `r` of the 2-bit plane packs the row's pixels from `4·j` on (R115). -/
theorem getElem?_pack2 (p : Params) (codes : List Code) {r j : Nat} (hr : r < p.h) (hj : j < p.stride2) :
    (pack2 p codes)[r * p.stride2 + j]? =
      some (packByte2 p.padBit (((codes.drop (r * p.w)).take p.w).drop (4 * j))) := by
  rw [pack2, getElem?_flatMap_of_rows _ (length_packRow2 _ _) _ _ hj, getElem?_rowsOf _ _ hr, Option.bind_some,
    getElem?_packRow2 _ _ hj]

/-! ### Bytes -/

/-- A packed byte holds pixel `i` in bit `7 - i` (R114). -/
theorem getLsbD_packByte1 (pad : Bool) (bits : List Bool) {i : Nat} (hi : i < 8) :
    (packByte1 pad bits).getLsbD (7 - i) = bits.getD i pad := by
  have hsum : ((List.range 8).map fun j => (bits.getD j pad).toNat <<< (7 - j)).sum / 2 ^ (7 - i) % 2 =
      (bits.getD i pad).toNat := by
    have hbit : ∀ j, (bits.getD j pad).toNat ≤ 1 := fun j => Bool.toNat_le _
    have h1 := hbit 1; have h2 := hbit 2; have h3 := hbit 3; have h4 := hbit 4
    have h5 := hbit 5; have h6 := hbit 6; have h7 := hbit 7; have h0 := hbit 0
    simp only [List.range_succ, List.range_zero, List.nil_append, List.cons_append, List.map_cons, List.map_nil,
      List.sum_cons, List.sum_nil, Nat.shiftLeft_eq]
    interval_cases i <;> omega
  rw [packByte1, BitVec.getLsbD_ofNat, Nat.testBit_eq_decide_div_mod_eq, hsum]
  simp [show 7 - i < 8 by omega]

/-- A packed byte holds code `i` in bits `7 - 2i` and `6 - 2i` (R115). -/
theorem extractLsb'_packByte2 (pad : Bool) (codes : List Code) {i : Nat} (hi : i < 4) :
    (packByte2 pad codes).extractLsb' (6 - 2 * i) 2 = codes.getD i (padCode pad) := by
  have hcode : ∀ j, (codes.getD j (padCode pad)).toNat < 4 := fun j => BitVec.isLt _
  have h0 := hcode 0; have h1 := hcode 1; have h2 := hcode 2; have h3 := hcode 3
  apply BitVec.eq_of_toNat_eq
  rw [packByte2, BitVec.extractLsb'_toNat, BitVec.toNat_ofNat, Nat.shiftRight_eq_div_pow]
  simp only [List.range_succ, List.range_zero, List.nil_append, List.cons_append, List.map_cons, List.map_nil,
    List.sum_cons, List.sum_nil, Nat.shiftLeft_eq]
  interval_cases i <;> omega

end Sys2Proof

open Sys2Proof

/-- Settles O32: the pixel's row and byte are found by the rows' equal lengths, its bits by the byte's sum of shifts. -/
theorem packingPlaces : Obligations.PackingPlaces := by
  intro p bits codes hbits hcodes x r hx hr
  have hbyte1 : x / 8 < p.stride1 := by unfold Params.stride1; omega
  have hbyte2 : x / 4 < p.stride2 := by unfold Params.stride2; omega
  constructor
  · rw [getElem?_pack1 p bits hr hbyte1, Option.map_some, getLsbD_packByte1 _ _ (Nat.mod_lt x (by decide)),
      some_getD_of_row 8 p.padBit hbits hx hr]
  · rw [getElem?_pack2 p codes hr hbyte2, Option.map_some, extractLsb'_packByte2 _ _ (Nat.mod_lt x (by decide)),
      some_getD_of_row 4 (padCode p.padBit) hcodes hx hr]

end

section
/-! PROOFS. The two encodings: the fields of a host word, decoder against encoder in both formats, and a stretch of the wire
against its transactions (R61 to R63, R65 to R67, R69, R72). -/

namespace Sys2Proof

/-! ### Host words -/

/-- A host word is its `OP`, its reserved bits and its `ARG[0]` (R61). -/
theorem append_hostFields (b : Byte) : b.extractLsb' 4 4 ++ hostArgHigh b ++ BitVec.ofBool (hostArg b) = b := by
  ext k hk
  simp only [hostArgHigh, hostArg, BitVec.getElem_append, BitVec.getElem_extractLsb', BitVec.getElem_ofBool]
  interval_cases k <;> simp [BitVec.getLsbD_eq_getElem]

/-- A byte whose reserved bits are 0 is the host word of its fields. -/
theorem hostWord_of_hostArgHigh {b : Byte} (h : hostArgHigh b = 0#3) : hostWord (b.extractLsb' 4 4) (hostArg b) = b := by
  rw [hostWord, ← h, append_hostFields]

/-- A row of the host map is a host operation, and its word has the row's `OP` and `ARG[0]` (R62). -/
theorem encode_of_hostRow {op : BitVec 4} {arg : Bool} {i : Instr} (h : hostRow op.toNat arg = some i) :
    encode i = hostWord op arg ∧ i.format = .host := by
  have hrows : ∀ (op : BitVec 4) (arg : Bool), (hostRow op.toNat arg).all fun i =>
      decide (encode i = hostWord op arg ∧ i.format = .host) := by decide
  simpa [h] using hrows op arg

theorem decodeHost_eq_some {b : Byte} {i : Instr} :
    decodeHost b = some i ↔ hostArgHigh b = 0#3 ∧ hostRow (b.extractLsb' 4 4).toNat (hostArg b) = some i := by
  simp [decodeHost, hostOp]

/-- Only ENC1, UPD1 and CLEAR have an argument (R62, R69). -/
theorem hostRow_argument_eq_none : ∀ op : BitVec 4, op ∉ [0x9#4, 0xC#4, 0xE#4] → hostRow op.toNat true = none := by
  decide

/-- The two classes of reserved host words (R69). -/
theorem decodeHost_eq_none_of_reserved {b : Byte}
    (h : b.extractLsb' 1 3 ≠ 0#3 ∨ b.getLsbD 0 = true ∧ b.extractLsb' 4 4 ∉ [0x9#4, 0xC#4, 0xE#4]) :
    decodeHost b = none := by
  unfold decodeHost
  rcases h with hhigh | ⟨harg, hop⟩
  · simp [hostArgHigh, hhigh]
  · have hrow : hostRow (hostOp b) (hostArg b) = none := by
      rw [hostArg, harg]; exact hostRow_argument_eq_none _ hop
    rw [hrow, ite_self]

/-! ### Decoder against encoder -/

/-- The word of an instruction decodes to it, in its format and in every context of its operation. -/
theorem decode_encode (i : Instr) : Laws.Encoding.Statement i := by
  open Laws.Encoding in
  cases i
  exacts [hwreset, initfast, initpart, init4g, sleep, deinit, picdisp, picdisp4g, picclear, enc1 _, enc4, dither, upd1 _,
    upd4, clear _, reflush, wPanelSetting, wPowerSetting, wPowerOff, wPowerOn, wBoosterSoftStart, wDeepSleep, wOldData _,
    wDisplayRefresh, wNewData _, wLutVcom, wLutWw, wLutR, wLutW, wLutB, wPll, wCdi, wTcon, wResolution, wResolutionExtra,
    wVcomDc, wTuneE0 _, wTuneE5 _]

theorem inContext_of_host {i : Instr} (h : i.format = .host) (c : WireContext) : i.inContext c = true := by
  cases i <;> first | rfl | cases h

theorem encode_of_decodeHost {b : Byte} {i : Instr} (h : decodeHost b = some i) : encode i = b ∧ i.format = .host := by
  obtain ⟨hhigh, hrow⟩ := decodeHost_eq_some.1 h
  obtain ⟨hword, hformat⟩ := encode_of_hostRow hrow
  exact ⟨hword.trans (hostWord_of_hostArgHigh hhigh), hformat⟩

theorem encode_of_decodeWire {c : WireContext} {b : Byte} {i : Instr} (h : decodeWire c b = some i) :
    encode i = b ∧ i.format = .wire ∧ i.inContext c = true := by
  unfold decodeWire at h
  split at h
  all_goals
    next hb =>
    cases h
    all_goals exact ⟨BitVec.eq_of_toNat_eq hb.symm, rfl, by simp [Instr.inContext]⟩

/-! ### A stretch of the wire -/

theorem foldr_readWireByte_data (ds : List Byte) (acc : List Byte × List Transaction) :
    (ds.map fun b => (true, b)).foldr readWireByte acc = (ds ++ acc.1, acc.2) := by
  induction ds with
  | nil => rfl
  | cons d ds ih => simp [ih, readWireByte]

theorem encodeStream_cons (t : Transaction) (ts : List Transaction) :
    encodeStream (t :: ts) = encodeTransaction t ++ encodeStream ts := rfl

/-- The bytes of whole transactions are read back with no data byte left over (R66). -/
theorem foldr_readWireByte_encodeStream (ts : List Transaction) :
    (encodeStream ts).foldr readWireByte ([], []) = ([], ts) := by
  induction ts with
  | nil => rfl
  | cons t ts ih =>
    rw [encodeStream_cons, List.foldr_append, ih, encodeTransaction, List.foldr_cons, foldr_readWireByte_data]
    simp [readWireByte]

/-- Whatever the reader has taken in, it is the data bytes left over and then the transactions read (R72). -/
theorem data_append_encodeStream_foldr (bs : List WireByte) :
    ((bs.foldr readWireByte ([], [])).1.map fun b => (true, b)) ++
      encodeStream (bs.foldr readWireByte ([], [])).2 = bs := by
  induction bs with
  | nil => rfl
  | cons wb bs ih =>
    obtain ⟨level, b⟩ := wb
    cases level with
    | true => simpa [readWireByte] using ih
    | false => simpa [readWireByte, encodeStream_cons, encodeTransaction] using ih

/-- A stretch reads as transactions where the reader has no data byte left over. -/
theorem decodeStream_eq_some {bs : List WireByte} {ts : List Transaction} :
    decodeStream bs = some ts ↔ bs.foldr readWireByte ([], []) = ([], ts) := by
  unfold decodeStream
  split <;> simp_all

end Sys2Proof

open Sys2Proof

/-- Settles O3, by evaluation. -/
theorem wordsFromTheTablesDecode : Obligations.WordsFromTheTablesDecode := by
  unfold Obligations.WordsFromTheTablesDecode
  decide

/-- Settles O1: encoding and then decoding row by row; and a byte that decodes is put together again from its fields. -/
theorem decodeAndEncodeAgree : Obligations.DecodeAndEncodeAgree := by
  rintro f c i b
  refine ⟨?_, fun h => ?_⟩
  · rintro rfl hc
    exact decode_encode i c hc
  · cases f with
    | host =>
      obtain ⟨hword, hformat⟩ := encode_of_decodeHost h
      exact ⟨hword, hformat, inContext_of_host hformat c⟩
    | wire => exact encode_of_decodeWire h

/-- Settles O2: the reader's state after any stretch, the data bytes left over and the transactions behind them, stands for
the bytes of that stretch. -/
theorem wireStreamRoundTrip : Obligations.WireStreamRoundTrip := by
  intro ts bs
  refine ⟨decodeStream_eq_some.2 (foldr_readWireByte_encodeStream ts), fun h => ?_⟩
  simpa [decodeStream_eq_some.1 h] using data_append_encodeStream_foldr bs

end

section
/-! PROOFS. The command port: a reserved word, a word while `RUN = 1`, a word that is run; and the fields of the status word
(R64, R65, R69, R71). -/

namespace Sys2Proof.Machine

theorem step_word_idle {s : State} {w : Byte} {rest : List HostMove} (hr : s.run = false)
    (hh : s.host = .word w :: rest) : step s = presentWord w { s with host := rest, issuer := .foreground } := by
  simp [step, hh, hr]

theorem step_word_running {s : State} {w : Byte} {rest : List HostMove} (hr : s.run = true)
    (hh : s.host = .word w :: rest) : step s = presentWord w { s with host := rest } := by
  simp [step, hh, hr]

/-- While `RUN = 1` the port discards every word (R71). -/
theorem presentWord_running {s : State} (hr : s.run = true) (w : Byte) : presentWord w s = .next s := by
  unfold presentWord
  split
  · simp [illegalWord, hr]
  · next i hi => simp [hr, exec_running i s (format_of_decodeHost hi) hr]

theorem presentWord_reserved {s : State} {w : Byte} (hr : s.run = false) (hw : decodeHost w = none) :
    presentWord w s = .next { s with err := .illegalCommand } := by
  simp [presentWord, hw, illegalWord, hr]

theorem presentWord_decoded {s : State} {w : Byte} {i : Instr} (hw : decodeHost w = some i)
    (hi : i.wf s.cfg = true) : presentWord w s = exec i s := by
  simp [presentWord, hw, hi]

/-! ### `HSTAT` (R64) -/

theorem State.hstat_run (s : State) : s.hstat.getLsbD 0 = s.run := by
  simp only [State.hstat, BitVec.getLsbD_append]
  simp

theorem State.hstat_anim (s : State) : s.hstat.getLsbD 7 = s.anim := by
  simp only [State.hstat, BitVec.getLsbD_append]
  simp

theorem State.hstat_err (s : State) : s.hstat.extractLsb' 1 3 = s.err.code := by
  rw [State.hstat, BitVec.extractLsb'_append_eq_of_le (by decide)]
  exact BitVec.extractLsb'_append_eq_right

theorem State.hstat_panelState (s : State) : s.hstat.extractLsb' 4 3 = s.panelState.code := by
  rw [State.hstat, BitVec.extractLsb'_append_eq_of_le (by decide), BitVec.extractLsb'_append_eq_of_le (by decide)]
  exact BitVec.extractLsb'_append_eq_right

end Sys2Proof.Machine

open Sys2Proof Sys2Proof.Machine

/-- Settles O4: a word of either reserved class decodes to nothing, and the port answers with `ERR` alone. -/
theorem reservedWordSetsErrOnly : Obligations.ReservedWordSetsErrOnly := by
  refine ⟨fun s w rest hr hh hw => ?_, by decide +kernel⟩
  exact (step_word_idle hr hh).trans (presentWord_reserved hr (decodeHost_eq_none_of_reserved hw))

/-- Settles O5: the port discards the word before anything else, and a write of `STOP` is no word. -/
theorem wordWhileRunningIsDiscarded : Obligations.WordWhileRunningIsDiscarded := by
  refine ⟨fun s w rest hr hh => ?_, fun s v rest hh => ?_⟩
  · exact (step_word_running hr hh).trans (presentWord_running (s := { s with host := rest }) hr w)
  · simp only [step, hh]

/-- Settles O6: on a word that decodes the port's answer is the instruction's meaning. -/
theorem stepRunsTheDecodedWord : Obligations.StepRunsTheDecodedWord := by
  intro s w i rest hr hh hw hi
  exact (step_word_idle hr hh).trans (presentWord_decoded hw hi)

/-- Settles O9: the status word is put together from its four fields, and the numbers are the codes' own tables. -/
theorem statusWordLayout : Obligations.StatusWordLayout := by
  refine ⟨fun s => ⟨s.hstat_run, s.hstat_err.trans ?_, s.hstat_panelState.trans ?_, s.hstat_anim⟩, rfl, rfl, rfl, rfl⟩
  · cases s.err <;> rfl
  · cases s.panelState <;> rfl

end

section
/-! PROOFS. The wire commands on a good transport: each sends its transaction and does nothing else (R66, R180 to R202). -/

namespace Sys2Proof.Machine

/-- A wire transaction on a good transport appends its events. -/
theorem wireCommand_sent {c : Byte} {d : DataSource} {s : State} {bs : List Byte} (ho : s.own = true)
    (hx : s.transportGood) (hd : d.bytes s = .ok bs) :
    wireCommand (transaction c d) s = .next (s.log (txEvents c bs)) := by
  have hcmd : (Micro.command c).run s = .ok (s.log (commandEvents c)) := s.bus_good _ ho hx
  have hdata : (Micro.payload d).run (s.log (commandEvents c)) = .ok (s.log (txEvents c bs)) := by
    rw [Micro.run_payload_of_ok ((d.bytes_log s _).trans hd), txEvents, ← State.log_log]
    exact State.bus_good _ _ ho hx
  simp [wireCommand, transaction, runParts, hcmd, hdata, Result.andThen]

/-- A wire command without data on a good transport. -/
theorem wireCommand_command {c : Byte} {s : State} (ho : s.own = true) (hx : s.transportGood) :
    wireCommand [.command c] s = .next (s.log (commandEvents c)) := by
  have hcmd : (Micro.command c).run s = .ok (s.log (commandEvents c)) := s.bus_good _ ho hx
  simp [wireCommand, runParts, hcmd, Result.andThen]

/-- What a transaction changes: three events and its data bytes more, and `DC` left at the data level. -/
theorem State.log_txEvents (s : State) (c : Byte) (bs : List Byte) :
    s.log (txEvents c bs) = { s with
      trace := s.trace ++ [.line .dc Config.dcCommand, .cmd c, .line .dc Config.dcData] ++ bs.map .data
      seqPos := advance (3 + bs.length) s.seqPos
      dc := Config.dcData } := by
  have hlen : (txEvents c bs).length = 3 + bs.length := by simp [txEvents, commandEvents]; omega
  rw [State.log, hlen]
  simp [txEvents, commandEvents, dataEvents]

/-- What a command without data changes. -/
theorem State.log_commandEvents (s : State) (c : Byte) :
    s.log (commandEvents c) = { s with
      trace := s.trace ++ [.line .dc Config.dcCommand, .cmd c]
      seqPos := advance 2 s.seqPos
      dc := Config.dcCommand } := by
  simp [State.log, commandEvents]

/-- An instruction whose meaning is a transaction, on a good transport. -/
theorem exec_sent {i : Instr} {c : Byte} {s : State} {bs : List Byte} (d : DataSource) (ho : s.own = true)
    (hx : s.transportGood) (hi : exec i s = wireCommand (transaction c d) s) (hd : d.bytes s = .ok bs) :
    exec i s = .next { s with
      trace := s.trace ++ [.line .dc Config.dcCommand, .cmd c, .line .dc Config.dcData] ++ bs.map .data
      seqPos := advance (3 + bs.length) s.seqPos
      dc := Config.dcData } := by
  rw [hi, wireCommand_sent ho hx hd, State.log_txEvents]

/-- An instruction whose meaning is a command byte without data, on a good transport. -/
theorem exec_command {i : Instr} {c : Byte} {s : State} (ho : s.own = true) (hx : s.transportGood)
    (hi : exec i s = wireCommand [.command c] s) :
    exec i s = .next { s with
      trace := s.trace ++ [.line .dc Config.dcCommand, .cmd c]
      seqPos := advance 2 s.seqPos
      dc := Config.dcCommand } := by
  rw [hi, wireCommand_command ho hx, State.log_commandEvents]

end Sys2Proof.Machine

open Sys2Proof Sys2Proof.Machine

/-- Settles O16: every form is a transaction of its own plane. -/
theorem planeTransfersSent : Obligations.PlaneTransfersSent := fun _ ho hx =>
  State.forPlaneTransfers_of_transactions fun _ _ d _ hi hd => exec_sent d ho hx hi hd

/-- Settles O13: every row is a transaction of a constant byte string. -/
theorem configurationCommandsSent : Obligations.ConfigurationCommandsSent := by
  intro s ho hx
  simp only [List.forall_mem_cons]
  refine ⟨?_, ?_, ?_, ?_, ?_, ?_, ?_, ?_, ?_, nofun⟩
  all_goals exact exec_sent (.constant _) ho hx rfl rfl

/-- Settles O14: every row is a transaction of a constant byte string. -/
theorem lutAndTuneCommandsSent : Obligations.LutAndTuneCommandsSent := by
  intro s ho hx
  simp only [List.forall_mem_cons]
  refine ⟨?_, ?_, ?_, ?_, ?_, ?_, ?_, ?_, ?_, nofun⟩
  all_goals exact exec_sent (.constant _) ho hx rfl rfl

/-- Settles O15: three commands without data, and a transaction of the one byte. -/
theorem powerAndRefreshCommandsSent : Obligations.PowerAndRefreshCommandsSent := by
  intro s ho hx
  constructor
  · simp only [List.forall_mem_cons]
    exact ⟨exec_command ho hx rfl, exec_command ho hx rfl, exec_command ho hx rfl, nofun⟩
  · simpa using exec_sent .magic ho hx rfl (rfl : _ = Except.ok [0xA5#8])

end

section
/-! PROOFS. The command bytes the block sends: a step sends its own, and every step of every operation that sends one sends
the byte of a wire command or `LUT6_CMD` (R67, R73, R87). -/

namespace Sys2Proof.Machine

/-- The command byte of a wire command is one the block may send (R67). -/
theorem sendable_encode (p : Params) {i : Instr} (h : i.format = .wire) : sendable p (encode i) := by
  cases i <;> simp only [Instr.format, reduceCtorEq] at h
  all_goals exact .inl (by simp [encode])

/-- If the step is a `write_command`, its byte is that of a wire command. -/
def Micro.sendsWireCommand : Micro → Bool
  | .command c => allInstrs.any fun i => i.format == .wire && encode i == c
  | _ => true

theorem sendsWireCommand_program (i : Instr) : ∀ m ∈ program i, m.sendsWireCommand = true := by
  have := forall_of_allInstrs (P := fun i => (program i).all Micro.sendsWireCommand) (by decide +kernel) i
  simpa using this

theorem Micro.sendable_of_sends {m : Micro} {p : Params} {b : Byte} (hm : m.sendsWireCommand = true)
    (hb : m.sends p b) : sendable p b := by
  cases m <;> simp only [Micro.sends] at hb
  case command c =>
    subst hb
    simp only [Micro.sendsWireCommand, List.any_eq_true, Bool.and_eq_true, beq_iff_eq] at hm
    obtain ⟨i, -, hi, rfl⟩ := hm
    exact sendable_encode p hi
  case lut6Command => exact .inr hb

/-- A command byte in the trace after a step stood there before, or is the step's own. -/
theorem Micro.run_sends (m : Micro) (s : State) :
    (m.run s).After fun t => t.cfg = s.cfg ∧ ∀ b, .cmd b ∈ t.trace → .cmd b ∈ s.trace ∨ m.sends s.cfg b := by
  cases hm : m.physical
  case true =>
    refine (m.run_physical hm s).mono ?_
    rintro t ⟨es, o, ks, pe, bi, q, rfl, hsends, -⟩
    exact ⟨rfl, fun b hb => (List.mem_append.1 hb).imp_right (hsends b)⟩
  case false =>
    have silent : s.cfg = s.cfg ∧ ∀ b, Event.cmd b ∈ s.trace → Event.cmd b ∈ s.trace ∨ m.sends s.cfg b :=
      ⟨rfl, fun _ => .inl⟩
    cases m <;> simp only [Micro.physical, Bool.true_eq_false] at hm
    case finish | emptyOld | commitClear => exact silent
    case commit1 => exact .withOperand fun _ _ => .withOperand fun _ _ => silent
    all_goals exact .withOperand fun _ _ => silent

/-- A stretch of steps each of which sends, if a command, a wire command's byte, keeps the trace clean. -/
theorem runMicros_wireClean {i : Instr} {ms : List Micro} {n k : Nat} {s t : State}
    (h : runMicros i ms n k s = .next t) (hms : ∀ m ∈ ms, m.sendsWireCommand = true) (hs : s.wireClean) : t.wireClean := by
  have keep : ∀ m ∈ ms, ∀ u : State, u.wireClean → (m.run u).After State.wireClean := fun m hm u hu =>
    (m.run_sends u).mono fun v ⟨hcfg, hsent⟩ b hb =>
      hcfg ▸ (hsent b hb).elim (hu b) (Micro.sendable_of_sends (hms m hm))
  rcases runMicros_cases hs keep h with ⟨u, hu, rfl⟩ | ⟨u, j, m, hu, -, -, rfl⟩ | ⟨u, e, hu, -, rfl⟩
  · exact hu
  · exact hu
  · simpa [State.wireClean] using hu

end Sys2Proof.Machine

open Sys2Proof Sys2Proof.Machine

/-- Settles O57: a plain move appends nothing; an accepted operation and one that goes on run steps of their programs; the
reset empties the trace. -/
theorem onlyItsCommandBytesAreSent : Obligations.OnlyItsCommandBytesAreSent := by
  intro s t hs hstep
  rcases step_moves hstep with ⟨h, f, st, an, e, g, rfl, -⟩ | ⟨i, h, f, g, -, -, -, hrun⟩ | ⟨i, n, h, -, hrun⟩ |
    ⟨rest, -, rfl⟩
  · exact hs
  · exact runMicros_wireClean hrun (sendsWireCommand_program i) hs
  · exact runMicros_wireClean hrun (fun m hm => sendsWireCommand_program i m (List.mem_of_mem_drop hm)) hs
  · exact nofun

end

section
/-! PROOFS. The roll-back: an operation in flight keeps its values at acceptance, and an error brings them back (R93, R159,
R215). -/

namespace Sys2Proof.Machine

/-- However a stretch of an operation in flight ends, it keeps the values at acceptance or, on an error, brings them back. -/
theorem runMicros_rollsBack {i : Instr} {ms : List Micro} {n k : Nat} {s t : State} {v : Saved} (hr : s.run = true)
    (hv : s.saved = some v) (h : runMicros i ms n k s = .next t) :
    (t.run = true → t.saved = some v) ∧ (t.run = false → t.err ≠ .none → t.snapshot = v ∧ t.seqPos = []) := by
  have keep : ∀ m ∈ ms, ∀ u : State, u.run = true ∧ u.saved = some v →
      (m.run u).After fun u => u.run = true ∧ u.saved = some v := by
    rintro m - u ⟨hur, hus⟩
    refine (m.run_keeps_acceptance u).mono ?_
    rintro w ⟨hwr, hws⟩
    exact ⟨hwr.trans hur, hws.trans hus⟩
  rcases runMicros_cases ⟨hr, hv⟩ keep h with
    ⟨u, -, rfl⟩ | ⟨u, j, m, ⟨hur, hus⟩, -, -, rfl⟩ | ⟨u, e, ⟨-, hus⟩, -, rfl⟩
  · exact ⟨nofun, fun _ he => absurd rfl he⟩
  · exact ⟨fun _ => hus, fun hend => by simp [hur] at hend⟩
  · exact ⟨nofun, fun _ _ => ⟨State.snapshot_errorEntry hus e, rfl⟩⟩

end Sys2Proof.Machine

open Sys2Proof Sys2Proof.Machine

/-- Settles O51: a plain move touches neither `RUN` nor the values kept, no word is accepted in flight, and the operation
that goes on runs a stretch of its steps. -/
theorem errorRollsBackInFlight : Obligations.ErrorRollsBackInFlight := by
  intro s t v hr hv hno hstep
  rcases step_moves hstep with ⟨h, f, st, an, e, g, rfl, -⟩ | ⟨i, h, f, g, -, hidle, -⟩ | ⟨i, n, h, -, hrun⟩ |
    ⟨rest, hhost, -⟩
  · exact ⟨fun _ => hv, fun hend => by simp [hr] at hend⟩
  · simp [hr] at hidle
  · obtain ⟨hkept, hback⟩ := runMicros_rollsBack (s := { s with host := h }) hr hv hrun
    exact ⟨hkept, fun hend he => (hback hend he).1⟩
  · exact absurd hhost (hno rest)

/-- Settles O50: the values kept are those of acceptance. -/
theorem errorRollsBack : Obligations.ErrorRollsBack := by
  intro s t i hi hr h
  rw [exec_idle i s hi hr] at h
  exact runMicros_rollsBack rfl (s.accept_saved i) h

end

section
/-! PROOFS. The sequencer operations that succeed: each is led through its steps on a good transport, and completes after as
many steps as its poll finds the panel busy (R83 to R92). -/

namespace Sys2Proof.Machine

/-- A host operation whose steps lead from its acceptance to `u` completes in `u`. -/
theorem exec_completes {i : Instr} {n : Nat} {s u t : State} (hi : i.format = .host) (hr : s.run = false)
    (h : Leads n (program i) (s.accept i) u) (ht : u.complete = t) :
    (n = 0 → exec i s = .next t) ∧ (s.host = [] → thenSteps n (exec i s) = .next t) :=
  ht ▸ completes_of_leads i (exec_host i s hi) hr h

/-- Acceptance leaves the busy oracle. -/
theorem State.busyFor.accept {s : State} {n : Nat} (h : s.busyFor [n]) (i : Instr) : (s.accept i).busyFor [n] :=
  State.busyFor_head h rfl rfl rfl

/-- A transfer operation whose planes have these bytes. -/
theorem exec_transfer_completes {i : Instr} {q : Sequence} {ps : List PanelState} {k : TransferKind} {m : Nat}
    {s : State} {a b : List Byte} (hi : i.format = .host) (hp : program i = transferSteps q ps k) (hr : s.run = false)
    (ho : s.own = true) (hx : s.transportGood) (hb : s.busyFor [m]) (hlegal : s.panelState ∈ ps)
    (ha : (oldDataSource k).bytes s = .ok a) (hn : (newDataSource k).bytes s = .ok b) :
    let t : State := { s.complete with
      dc := Config.dcCommand, pollElapsed := m * s.cfg.pollIntervalMs, busyIn := s.busyIn.drop (m + 1)
      trace := s.trace ++ transferEvents s.cfg q a b m }
    (m = 0 → exec i s = .next t) ∧ (s.host = [] → thenSteps m (exec i s) = .next t) := by
  have hlead := Leads.transfer (s := s.accept i) q k ps a b ho hx (hb.accept i) hlegal
    (fun es => by simpa using ha) (fun es => by simpa using hn)
  exact exec_completes hi hr (hp ▸ hlead) rfl

/-- The retained old plane, or the white one where there is none (R15). -/
theorem DataSource.bytes_oldPlane {s : State} {o : List Byte}
    (hold : s.oldValid = true → s.old.readAll s.cfg.plane1Bytes = some o)
    (hwhite : s.oldValid = false → o = Sys2Proof.whitePlane s.cfg) : DataSource.oldPlane.bytes s = .ok o := by
  cases hv : s.oldValid
  · simp [DataSource.bytes, State.oldOperand, hv, hwhite hv]
  · simp [DataSource.bytes, State.oldOperand, hv, hold hv]

/-- `deinit()` has two steps, neither of which asks an oracle. -/
theorem exec_deinit {s : State} (hr : s.run = false) : exec .deinit s = .next
    { (if s.own then { (s.accept .deinit).log [.release] with own := false } else s.accept .deinit).complete with
      panelState := .deinit, fresh := false } := by
  rw [exec_idle .deinit s rfl hr]
  cases ho : s.own <;> simp only [program, deinitSteps, runMicros, Micro.run, State.accept_own, ho] <;> rfl

/-! ### The pins (R20, R27) -/

theorem State.outputPins_of_released {s : State} (h : s.own = false) : s.outputPins = .released := by
  simp [State.outputPins, h]

theorem State.outputPins_of_held {s : State} (h : s.own = true) : s.outputPins =
    ⟨some s.dc, some s.rst, some true, some false, some (Config.dataOutLevel (bytesIn s.trace))⟩ := by
  simp [State.outputPins, h]

end Sys2Proof.Machine

open Sys2Proof Sys2Proof.Machine

/-- Settles O21: its steps lead to `FAST` from every state. -/
theorem initFastResult : Obligations.InitFastResult := by
  intro s n hr hx hb
  exact exec_completes rfl hr (Leads.initFast (s := s.accept .initfast) hx (hb.accept _)) rfl

/-- Settles O22: its steps lead to `PARTIAL` where its test passes. -/
theorem initPartialResult : Obligations.InitPartialResult := by
  intro s n hr ho hp hx hb
  have hlegal : (s.accept .initpart).panelState ∈ partialLegal := by simpa [partialLegal] using hp
  exact exec_completes rfl hr (Leads.initPartial ho hlegal hx (hb.accept _)) rfl

/-- Settles O23: its steps lead to `GRAY4` from every state. -/
theorem init4grayResult : Obligations.Init4grayResult := by
  intro s n hr hx hb
  exact exec_completes rfl hr (Leads.init4gray (s := s.accept .init4g) hx (hb.accept _)) rfl

/-- Settles O24: its steps lead to `SLEEPING` from every powered state. -/
theorem sleepResult : Obligations.SleepResult := by
  intro s n hr ho hp hx hb
  exact exec_completes rfl hr (Leads.sleep (s := s.accept .sleep) ho hp hx (hb.accept _)) rfl

/-- Settles O25: `deinit()` runs its two steps; with the lines held every pin follows the levels of
the lines and the bytes sent, with the lines released none is driven. -/
theorem deinitResult : Obligations.DeinitResult := by
  refine ⟨fun s hr => ?_, fun s ho => ?_, fun s es => ?_⟩
  · refine ⟨?_, State.outputPins_of_released rfl⟩
    rw [exec_deinit hr]
    cases ho : s.own <;> simp [State.complete, State.accept, State.log, ho]
  · simp [State.outputPins_of_held ho]
  · cases ho : s.own
    · have hlog : (s.log es).own = false := ho
      simp [State.outputPins_of_released ho, State.outputPins_of_released hlog]
    · have hlog : (s.log es).own = true := ho
      simp only [State.outputPins_of_held ho, State.outputPins_of_held hlog, State.log_dc, State.log_rst, State.log_trace,
        bytesIn_append]
      refine ⟨fun h => by rw [levelAfter_of_not_mem _ _ _ h], fun h => by rw [levelAfter_of_not_mem _ _ _ h],
        fun h => by simp [bytesIn_eq_nil h]⟩

/-- Settles O26: the three are one transfer, each with its own planes; `pic_display_clear` runs it as an inner one. -/
theorem transferResults : Obligations.TransferResults := by
  intro s m hr ho hx hb
  refine ⟨fun o n hp hold hwhite hn => ?_, fun g hp hg => ?_, fun hp => ?_⟩
  · exact exec_transfer_completes rfl rfl hr ho hx hb hp (DataSource.bytes_oldPlane hold hwhite)
      (by simp [newDataSource, DataSource.bytes, State.plane1Operand, hn])
  · have hgray : s.plane2Operand = .ok g := by simp [State.plane2Operand, hg]
    exact exec_transfer_completes rfl rfl hr ho hx hb (by simp [hp, grayLegal])
      (by simp [oldDataSource, DataSource.bytes, hgray, Except.map])
      (by simp [newDataSource, DataSource.bytes, hgray, Except.map])
  · exact exec_completes rfl hr (Leads.picClear (s := s.accept .picclear) ho hx (hb.accept _) hp) rfl

end

section
/-! PROOFS. One turn of the poll loop in flight, however the read ends (R82, R49, R212, R216). -/

namespace Sys2Proof.Machine

/-- A bus call of one event that the transport lets through. -/
theorem State.bus_of_letsOneThrough {s : State} {fs : List Nat} (ho : s.own = true) (h : s.letsOneThrough fs) (e : Event) :
    s.bus [e] = .ok ((s.log [e]).fails fs) := by
  rcases h with ⟨hx, rfl⟩ | ⟨k, ks, hx, rfl⟩
  · have hfails : (s.log [e]).fails [] = s.log [e] := by rw [← (hx : s.xferFails = [])]; rfl
    rw [s.bus_good _ ho hx, hfails]
  · exact State.bus_passes ho (by rw [hx, List.length_singleton, Nat.add_comm])

/-- A busy read that raises ends the turn. -/
theorem State.pollOnce_raised {s t : State} (h : s.bus [.poll s.panelBusy] = .raised .transport t) :
    s.pollOnce = .raised .transport t := by
  simp [State.pollOnce, State.readBusy, h, Result.andThen]

/-- A turn of the poll loop whose read succeeds: the ceiling is tested where the panel is busy, and below it the block sleeps
one interval. -/
theorem State.pollOnce_read {s : State} {fs : List Nat} (ho : s.own = true) (h : s.letsOneThrough fs) :
    s.pollOnce =
      let t : State := { s.log [.poll s.panelBusy] with busyIn := s.busyIn.tail, xferFails := fs }
      if s.panelBusy then
        if s.cfg.pollCeilingMs.any (fun c => decide (c ≤ s.pollElapsed)) then .raised .panelTimeout t
        else .wait { t.log (delayEvents s.cfg.pollIntervalMs) with
          pollElapsed := s.pollElapsed + s.cfg.pollIntervalMs }
      else .ok t := by
  simp [State.pollOnce, State.readBusy, State.bus_of_letsOneThrough ho h, Result.andThen, State.fails]

end Sys2Proof.Machine

open Sys2Proof Sys2Proof.Machine

/-- Settles O27: the step begins with the poll; the read raises, or the poll says busy and the ceiling decides, or the rest
of the operation follows. -/
theorem pollLoopTurn : Obligations.PollLoopTurn := by
  intro s i n hr hh hc ha
  have hstep := step_eq_runMicros_poll hh hc ha
  refine ⟨fun ks ho hx => ?_, fun ho => ?_, fun fs ho hfs => ?_⟩
  · rw [hstep]
    exact runMicros_raised i _ n (State.pollOnce_raised (State.bus_cut ho hx Nat.zero_lt_one))
  · rw [hstep]
    exact runMicros_raised i _ n (State.pollOnce_raised (State.bus_unowned ho _))
  · have hpoll := State.pollOnce_read ho hfs
    refine ⟨fun hb ⟨c, hceil, hle⟩ => ?_, fun hb hbelow => ?_, fun hb => ?_⟩
    · rw [hstep]
      exact runMicros_raised i _ n (m := .poll) (by simp [Micro.run, hpoll, hb, hceil, hle])
    · have hany : (s.cfg.pollCeilingMs.any fun c => decide (c ≤ s.pollElapsed)) = false := by
        cases hceil : s.cfg.pollCeilingMs with
        | none => rfl
        | some c => simpa using hbelow c hceil
      rw [hstep, runMicros_wait i _ n (m := .poll) (by simp [Micro.run, hpoll, hb, hany]; rfl)]
      simp [State.at, hc]
    · rw [hstep, runMicros_ok i _ n (m := .poll) (by simp [Micro.run, hpoll, hb]; rfl)]
      exact (runMicros_at i _ _ 0 _ _).symm

end

section
/-! PROOFS. `hardware_reset()`, whole and cut short at each event the transport can fail (R83, R49, R93, R215, R218). -/

namespace Sys2Proof.Machine

/-! ### The transport's answers are written to no event -/

@[simp] theorem State.log_fails (s : State) (ks : List Nat) (es : List Event) :
    (s.fails ks).log es = (s.log es).fails ks := rfl

/-! ### The steps of the reset toggle -/

theorem State.acquire_of_held {s : State} (ho : s.own = true) : s.acquire = .ok s := by
  simp [State.acquire, ho]

/-- A claim of the lines that the transport fails leaves them released. -/
theorem State.acquire_cut {s : State} {ks : List Nat} (ho : s.own = false) (hx : s.xferFails = 0 :: ks) :
    s.acquire = .raised .transport ((s.log [.fail]).fails ks) := by
  have hcut := State.attempt_cut (es := [.acquire]) hx Nat.zero_lt_one
  simp [State.acquire, ho, hcut, Result.andThen]

/-- The lines claimed, where they are not held, before the next failure. -/
theorem State.acquire_passes {s : State} {k : Nat} {ks : List Nat}
    (hx : s.xferFails = ((acquireEvents s).length + k) :: ks) :
    s.acquire = .ok (({ s with own := true }.log (acquireEvents s)).fails (k :: ks)) := by
  cases ho : s.own
  · have hpass : s.attempt [.acquire] = .ok ((s.log [.acquire]).fails (k :: ks)) := by
      simp [State.attempt, hx, acquireEvents, ho, State.fails]
    simp [State.acquire, ho, hpass, acquireEvents, Result.andThen, State.log, State.fails]
  · have hx : s.xferFails = k :: ks := by simpa [acquireEvents, ho] using hx
    rw [State.acquire_of_held ho]
    simp only [acquireEvents, ho, if_true, State.log_nil, State.fails]
    rw [← ho, ← hx]

/-- A write of `RST` that the transport fails. -/
theorem Micro.run_setReset_cut (s : State) (ks : List Nat) (ho : s.own = true) (v : Bool) :
    (Micro.setReset v).run (s.fails (0 :: ks)) = .raised .transport ((s.log [.fail]).fails ks) :=
  State.bus_cut (s := s.fails (0 :: ks)) ho rfl Nat.zero_lt_one

/-- A write of `RST` before the next failure. -/
theorem Micro.run_setReset_passes (s : State) (k : Nat) (ks : List Nat) (ho : s.own = true) (v : Bool) :
    (Micro.setReset v).run (s.fails ((k + 1) :: ks)) = .ok ((s.log [.line .rst v]).fails (k :: ks)) :=
  State.bus_passes (s := s.fails ((k + 1) :: ks)) ho (by rw [List.length_singleton, Nat.add_comm]; rfl)

theorem Micro.run_settle (s : State) : Micro.settle.run s = .ok (s.log (delayEvents s.cfg.resetSettleMs)) := rfl

/-- `hardware_reset()` is the claim of the lines and the two writes of `RST`, each with its settle time. -/
theorem exec_hwreset {s : State} (hr : s.run = false) : exec .hwreset s = runMicros .hwreset
    [.acquire, .setReset false, .settle, .setReset true, .settle, .finish .hardwareReset] 0 0 (s.accept .hwreset) :=
  exec_idle .hwreset s rfl hr

/-- `hardware_reset()` on a good transport. -/
theorem Leads.hwreset {s : State} (hx : s.transportGood) : Leads 0 hwresetSteps s { s with
    own := true, rst := true, panelState := .uninit, fresh := false
    trace := s.trace ++ acquireEvents s ++ resetToggleEvents s.cfg } :=
  (Leads.toggle hx).append (Leads.finish _ .hardwareReset)

/-- `hardware_reset()` accepted and the lines claimed. -/
def State.claimedForReset (s : State) : State := { s.accept .hwreset with own := true }.log (acquireEvents s)

section
variable {s : State} {ks : List Nat} (hr : s.run = false)
include hr

theorem exec_hwreset_claimed {k : Nat} (hx : s.xferFails = ((acquireEvents s).length + k) :: ks) :
    exec .hwreset s = runMicros .hwreset [.setReset false, .settle, .setReset true, .settle, .finish .hardwareReset] 1 0
      (s.claimedForReset.fails (k :: ks)) := by
  rw [exec_hwreset hr]
  exact runMicros_ok (m := .acquire) _ _ _ (State.acquire_passes (s := s.accept .hwreset) hx)

/-- The transport fails the first write of `RST`. -/
theorem exec_hwreset_cut_low (hx : s.xferFails = (acquireEvents s).length :: ks) :
    exec .hwreset s = .next (((s.claimedForReset.log [.fail]).fails ks).errorEntry .transport) := by
  rw [exec_hwreset_claimed (k := 0) hr hx]
  exact runMicros_raised _ _ _ (Micro.run_setReset_cut _ ks rfl false)

/-- Past the first write of `RST` and its settle time. -/
theorem exec_hwreset_low {k : Nat} (hx : s.xferFails = ((acquireEvents s).length + (k + 1)) :: ks) :
    exec .hwreset s = runMicros .hwreset [.setReset true, .settle, .finish .hardwareReset] 3 0
      ((s.claimedForReset.log ([.line .rst false] ++ delayEvents s.cfg.resetSettleMs)).fails (k :: ks)) := by
  rw [exec_hwreset_claimed hr hx, runMicros_ok _ _ _ (Micro.run_setReset_passes _ k ks rfl false),
    runMicros_ok _ _ _ (Micro.run_settle _), State.log_fails, State.log_log]
  rfl

/-- The transport fails the second write of `RST`. -/
theorem exec_hwreset_cut_high (hx : s.xferFails = ((acquireEvents s).length + 1) :: ks) :
    exec .hwreset s = .next (((s.claimedForReset.log
      ([.line .rst false] ++ delayEvents s.cfg.resetSettleMs ++ [.fail])).fails ks).errorEntry .transport) := by
  rw [exec_hwreset_low (k := 0) hr hx, runMicros_raised _ _ _ (Micro.run_setReset_cut _ ks rfl true), State.log_log]

/-- The transport fails only after the reset. -/
theorem exec_hwreset_passes {k : Nat} (hx : s.xferFails = ((acquireEvents s).length + (k + 2)) :: ks) :
    exec .hwreset s = .next { (s.claimedForReset.log (resetToggleEvents s.cfg)).complete with
      panelState := .uninit, fresh := false, xferFails := k :: ks } := by
  rw [exec_hwreset_low hr hx, runMicros_ok _ _ _ (Micro.run_setReset_passes _ k ks rfl true),
    runMicros_ok _ _ _ (Micro.run_settle _), State.log_fails, State.log_log, State.log_log, resetToggleEvents,
    List.append_assoc (_ ++ _)]
  rfl

end

/-- Error entry in `hardware_reset()`, the lines held. -/
theorem State.errorEntry_claimedForReset (s : State) (ks : List Nat) (es : List Event) :
    ((s.claimedForReset.log es).fails ks).errorEntry .transport = { s with
      own := true
      dc := levelAfter .dc es s.dc
      rst := levelAfter .rst es s.rst
      trace := s.trace ++ acquireEvents s ++ es
      xferFails := ks
      err := .transport, run := false, seqPos := [], cursor := none, saved := none
      stop := if s.issuer = .worker then false else s.stop
      anim := if s.issuer = .worker then false else s.anim } := by
  rw [State.errorEntry_log]
  simp [State.claimedForReset, State.restore, State.accept, State.snapshot, State.log]

end Sys2Proof.Machine

open Sys2Proof Sys2Proof.Machine

/-- Settles O20: the claim of the lines fails, or it succeeds and one of the two writes of `RST` fails, or neither does. -/
theorem hardwareResetResult : Obligations.HardwareResetResult := by
  intro s hr
  refine ⟨fun hx => ?_, fun k ks hx => ⟨fun ho hk => ?_, ?_, ?_, fun hk => ?_⟩⟩
  · exact (exec_completes (i := .hwreset) rfl hr (Leads.hwreset hx) rfl).1 rfl
  · subst hk
    rw [exec_hwreset hr, runMicros_raised (m := .acquire) _ _ _ (State.acquire_cut (s := s.accept .hwreset) ho hx),
      State.errorEntry_log]
    simp [State.restore, State.accept, State.snapshot, ho]
  · rintro rfl
    rw [exec_hwreset_cut_low hr hx, State.errorEntry_claimedForReset]
    simp
  · rintro rfl
    rw [exec_hwreset_cut_high hr hx, State.errorEntry_claimedForReset]
    simp [levelAfter_append]
  · obtain ⟨j, rfl⟩ := Nat.exists_eq_add_of_le hk
    have hx : s.xferFails = ((acquireEvents s).length + (j + 2)) :: ks := by rw [hx]; congr 1; omega
    rw [exec_hwreset_passes hr hx, Nat.add_sub_cancel_left]
    simp [State.claimedForReset, State.complete, State.accept, State.log, levelAfter_append, resetToggleEvents]

end

section
/-! PROOFS. The legality matrix: an operation raises `ProtocolStateError` at its test and nowhere else, and one that completes
has come to its last step (R80). -/

namespace Sys2Proof.Machine

/-! ### The tests -/

/-- The steps that can raise `ProtocolStateError`. -/
def Micro.isTest : Micro → Bool
  | .need _ | .needCache => true
  | _ => false

/-- Every other step raises `TransportError` or `PanelTimeoutError`, or nothing. -/
theorem Micro.error_of_raised {m : Micro} (hm : m.isTest = false) {s t : State} {e : ErrCode}
    (h : m.run s = .raised e t) : e = .transport ∨ e = .panelTimeout := by
  cases m <;> simp only [Micro.isTest, Bool.true_eq_false] at hm <;> simp only [Micro.run, withOperand] at h
  case acquire => exact .inl (State.eq_transport_of_acquire h)
  case setReset | command | lut6Command | lut6Payload => exact .inl (State.eq_transport_of_bus h)
  case payload d =>
    cases hd : d.bytes s with
    | ok bs => rw [hd] at h; exact .inl (State.eq_transport_of_bus h)
    | error g => rw [hd] at h; cases h
  case poll => exact State.error_of_pollOnce h
  all_goals
    repeat' split at h
    all_goals cases h

/-- A stretch without tests raises no `ProtocolStateError`. -/
theorem runMicros_ne_protocolState {i : Instr} {ms : List Micro} {n k : Nat} {s t : State}
    (hms : ∀ m ∈ ms, m.isTest = false) (hs : s.err = .none) (h : runMicros i ms n k s = .next t) :
    t.err ≠ .protocolState := by
  have keep : ∀ m ∈ ms, ∀ u : State, u.err = .none → (m.run u).After fun u => u.err = .none := by
    intro m _ u hu
    refine (m.run_frame u).mono ?_
    rintro v ⟨-, -, herr, -⟩
    exact herr.trans hu
  rcases runMicros_cases hs keep h with ⟨u, -, rfl⟩ | ⟨u, j, m, hu, -, -, rfl⟩ | ⟨u, e, -, ⟨m, hm, w, -, hw⟩, rfl⟩
  · exact nofun
  · exact ne_of_eq_of_ne hu nofun
  · rcases Micro.error_of_raised (hms m hm) hw with rfl | rfl <;> exact nofun

/-- The states in which the test of a sequencer operation passes; none where it has no test (R80). -/
def testedStates : Instr → Option (List PanelState)
  | .initpart => some partialLegal
  | .sleep => some anyPowered
  | .picdisp | .picclear => some oneBitPowered
  | .picdisp4g => some grayLegal
  | _ => none

/-- The matrix is the tests'. -/
theorem legalIn_eq {i : Instr} (hi : isSequencerOp i = true) (p : PanelState) :
    legalIn i p = ((testedStates i).all fun ps => decide (p ∈ ps)) := by
  cases i <;> simp only [isSequencerOp, Bool.false_eq_true] at hi <;> cases p <;> rfl

/-- A sequencer operation with a test begins with it, inside the inner operation if it is one of another, and has no
other. -/
theorem program_eq_need {i : Instr} {ps : List PanelState} (h : testedStates i = some ps) :
    ∃ pre rest, program i = pre ++ .need ps :: rest ∧ (∀ s, Leads 0 pre s s) ∧ ∀ m ∈ rest, m.isTest = false := by
  have noTest : ∀ {ms : List Micro}, (ms.all fun m => !m.isTest) = true → ∀ m ∈ ms, m.isTest = false := by simp
  cases i <;> cases h
  case picclear => exact ⟨[.enter _], _, rfl, fun s => (Leads.one (m := .enter _) (s := s) rfl).to rfl, noTest (by decide)⟩
  all_goals exact ⟨[], _, rfl, Leads.nil, noTest (by decide)⟩

theorem isTest_program {i : Instr} (hi : isSequencerOp i = true) (h : testedStates i = none) :
    ∀ m ∈ program i, m.isTest = false := by
  have := forall_of_allInstrs (P := fun i => !isSequencerOp i || (testedStates i).isSome || (program i).all (!·.isTest))
    (by decide +kernel) i
  simpa [hi, h] using this

section
variable {i : Instr} {s : State} {ps : List PanelState} (hi : i.format = .host) (hr : s.run = false)
  (ht : testedStates i = some ps)
include hi hr ht

/-- Outside the states of its test an operation raises, having done nothing. -/
theorem exec_of_testFails (hp : s.panelState ∉ ps) :
    ∃ q, exec i s = .next (((s.accept i).pos q).errorEntry .protocolState) := by
  obtain ⟨pre, rest, hprog, hpre, -⟩ := program_eq_need ht
  obtain ⟨q, hruns⟩ := hpre (s.accept i) (s.accept i).seqPos
  refine ⟨q, ?_⟩
  rw [exec_idle i s hi hr, hprog]
  exact (runMicros_of_runs i hruns rfl _ 0).trans (runMicros_raised i rest _ (by simp [Micro.run, State.pos, hp]))

/-- Where its test passes an operation goes on, with no other test before it. -/
theorem exec_of_testPasses (hp : s.panelState ∈ ps) :
    ∃ rest n q, exec i s = runMicros i rest n 0 ((s.accept i).pos q) ∧ ∀ m ∈ rest, m.isTest = false := by
  obtain ⟨pre, rest, hprog, hpre, hrest⟩ := program_eq_need ht
  obtain ⟨q, hruns⟩ := hpre (s.accept i) (s.accept i).seqPos
  refine ⟨rest, pre.length + 1, q, ?_, hrest⟩
  rw [exec_idle i s hi hr, hprog, ← Nat.zero_add pre.length]
  exact (runMicros_of_runs i hruns rfl _ 0).trans (runMicros_ok i rest _ (by simp [Micro.run, State.pos, hp]))

end

/-- An error at once: the bookkeeping is what it was, and so is all else (R93). -/
theorem State.errorEntry_of_accept {s : State} (hs : s.idle) (hissuer : s.issuer = .foreground) (i : Instr)
    (q : List (Operation × Nat)) (e : ErrCode) : ((s.accept i).pos q).errorEntry e = { s with err := e } := by
  obtain ⟨hrun, hseq, hcur, hsaved⟩ := hs
  simp [State.errorEntry, State.restore, State.accept, State.snapshot, State.pos, hissuer, hrun, hseq, hcur, hsaved]

/-! ### The state after -/

/-- The steps that can skip others. -/
def Micro.isCondition : Micro → Bool
  | .skipUnless _ _ => true
  | _ => false

/-- A stretch without conditions that completes has run all its steps, the last of them `finish`. -/
theorem runMicros_finish {i : Instr} {o : SeqOp} {ms : List Micro} {n : Nat} {s t : State} (hr : s.run = true)
    (hms : ∀ m ∈ ms, m.isCondition = false) (h : runMicros i (ms ++ [.finish o]) n 0 s = .next t)
    (ht : t.run = false) (he : t.err = .none) : t.panelState = o.panelState := by
  induction ms generalizing n s with
  | nil => cases h; rfl
  | cons m ms ih =>
    have hacc := m.run_keeps_acceptance s
    simp only [List.cons_append, runMicros] at h
    cases hm : m.run s with
    | ok u =>
      rw [hm] at h hacc
      exact ih (hacc.1.trans hr) (fun m hm => hms m (List.mem_cons_of_mem _ hm)) h
    | skip k u =>
      obtain ⟨c, rfl⟩ := Micro.skipUnless_of_skip hm
      exact absurd (hms _ List.mem_cons_self) (by simp [Micro.isCondition])
    | wait u =>
      rw [hm] at h hacc
      cases h
      simp [hacc.1, hr] at ht
    | raised e u =>
      rw [hm] at h
      cases h
      exact absurd he (Micro.ne_none_of_raised hm)
    | fault f => rw [hm] at h; cases h

/-- The host operation that ends with this completion (R83 to R89). -/
def SeqOp.word : SeqOp → Instr
  | .hardwareReset => .hwreset
  | .initFast => .initfast
  | .initPartial => .initpart
  | .init4gray => .init4g
  | .sleep => .sleep
  | .deinit => .deinit

theorem program_word_eq_finish (o : SeqOp) :
    ∃ ms, program o.word = ms ++ [.finish o] ∧ ∀ m ∈ ms, m.isCondition = false := by
  have noSkip : ∀ {ms : List Micro}, (ms.all fun m => !m.isCondition) = true → ∀ m ∈ ms, m.isCondition = false := by
    simp
  refine ⟨(program o.word).dropLast, ?_, noSkip ?_⟩
  · cases o <;> rfl
  · cases o <;> decide +kernel

/-- A sequencer operation either writes `PANEL_STATE` on completion, and the last column names what it writes, or leaves it
alone. -/
theorem word_or_spared {i : Instr} (hi : isSequencerOp i = true) :
    (∃ o : SeqOp, i = o.word ∧ ∀ p, stateAfter i p = o.panelState) ∨
      Part.panel.sparedBy i = true ∧ ∀ p, stateAfter i p = p := by
  cases i <;> simp only [isSequencerOp, Bool.false_eq_true] at hi
  case hwreset => exact .inl ⟨.hardwareReset, rfl, fun _ => rfl⟩
  case initfast => exact .inl ⟨.initFast, rfl, fun _ => rfl⟩
  case initpart => exact .inl ⟨.initPartial, rfl, fun _ => rfl⟩
  case init4g => exact .inl ⟨.init4gray, rfl, fun _ => rfl⟩
  case sleep => exact .inl ⟨.sleep, rfl, fun _ => rfl⟩
  case deinit => exact .inl ⟨.deinit, rfl, fun _ => rfl⟩
  all_goals exact .inr ⟨by decide, fun _ => rfl⟩

theorem SeqOp.format_word (o : SeqOp) : o.word.format = .host := by cases o <;> rfl

/-- A sequencer operation that completes at once leaves the state of the last column (R80). -/
theorem exec_stateAfter {i : Instr} {s t : State} (hi : isSequencerOp i = true) (hr : s.run = false)
    (hs : s.saved = none) (h : exec i s = .next t) (ht : t.run = false) (he : t.err = .none) :
    t.panelState = stateAfter i s.panelState := by
  rcases word_or_spared hi with ⟨o, rfl, hafter⟩ | ⟨hspared, hafter⟩
  · obtain ⟨ms, hprog, hms⟩ := program_word_eq_finish o
    rw [exec_idle _ s o.format_word hr, hprog] at h
    rw [hafter]
    exact runMicros_finish rfl hms h ht he
  · rw [hafter]
    exact (exec_keeps hr hs h .panel hspared).1

theorem format_of_isSequencerOp {i : Instr} (h : isSequencerOp i = true) : i.format = .host := by
  cases i <;> simp only [isSequencerOp, Bool.false_eq_true] at h <;> rfl

end Sys2Proof.Machine

open Sys2Proof Sys2Proof.Machine

/-- Settles O19: a cell of the matrix is the operation's test; where it fails nothing was done before it, where it passes no
other test follows. -/
theorem legalityMatrix : Obligations.LegalityMatrix := by
  intro s i hi hidle hissuer
  have ⟨hr, _, _, hsaved⟩ := hidle
  have hhost := format_of_isSequencerOp hi
  rw [legalIn_eq hi]
  refine ⟨fun hcell => ?_, fun hcell t h => ⟨?_, exec_stateAfter hi hr hsaved h⟩⟩
  · cases htest : testedStates i with
    | none => simp [htest] at hcell
    | some ps =>
      obtain ⟨q, hexec⟩ := exec_of_testFails hhost hr htest (by simpa [htest] using hcell)
      rw [hexec, State.errorEntry_of_accept hidle hissuer]
  · cases htest : testedStates i with
    | none =>
      rw [exec_idle i s hhost hr] at h
      exact runMicros_ne_protocolState (isTest_program hi htest) rfl h
    | some ps =>
      obtain ⟨rest, n, q, hexec, hrest⟩ := exec_of_testPasses hhost hr htest (by simpa [htest] using hcell)
      exact runMicros_ne_protocolState hrest rfl (hexec ▸ h)

end

section
/-! PROOFS. A ceiling bounds the await of a panel that stays busy: how many samples are left from any poll, and from the
acceptance of an operation that comes to its first poll without another (R82, R212). -/

namespace Sys2Proof.Machine

/-! ### From a poll -/

/-- The busy turns an await has left, with ceiling `c`, interval `p` and `e` milliseconds slept: the least number that
reaches the ceiling. -/
def turnsLeft (c e p : Nat) : Nat := (c - e + p - 1) / p

theorem lt_ceiling_of_lt_turnsLeft {c e p j : Nat} (hp : 1 ≤ p) (h : j < turnsLeft c e p) : e + j * p < c := by
  have := (Nat.le_div_iff_mul_le hp).1 (Nat.succ_le_of_lt h)
  rw [Nat.succ_mul] at this
  omega

theorem ceiling_le_turnsLeft {c e p : Nat} (hp : 1 ≤ p) : c ≤ e + turnsLeft c e p * p := by
  have := Nat.lt_div_mul_add (a := c - e + p - 1) hp
  rw [turnsLeft]
  omega

@[simp] theorem count_poll_delayEvents (b : Bool) (ms : Nat) : (delayEvents ms).count (.poll b) = 0 := by
  unfold delayEvents; split <;> rfl

@[simp] theorem count_poll_busyTurns (p : Params) (k : Nat) : (busyTurns p k).count (.poll true) = k := by
  induction k with
  | zero => rfl
  | succ k ih => simp [busyTurns_succ, List.count_append, ih]

/-- A first step and some more. -/
theorem run_succ_eq_thenSteps (k : Nat) (s : State) : Host.Core.run core (k + 1) s = thenSteps k (step s) := by
  induction k generalizing s with
  | zero =>
    have hcore : core.step s = step s := rfl
    cases hs : step s <;> simp only [Host.Core.run, hcore, hs] <;> rfl
  | succ k ih =>
    cases hs : step s with
    | next t => rw [run_succ_of_step _ hs, ih]; rfl
    | fault f => simp only [Host.Core.run, show core.step s = .fault f from hs]; rfl
    | refused r => simp only [Host.Core.run, show core.step s = .refused r from hs]; rfl

/-- One more step after a run. -/
theorem run_succ_of_run {k : Nat} {s t : State} (h : Host.Core.run core k s = .next t) :
    Host.Core.run core (k + 1) s = step t := by
  induction k generalizing s with
  | zero => cases h; exact run_succ_eq_thenSteps 0 _
  | succ k ih =>
    cases hs : step s with
    | next u => rw [run_succ_of_step _ hs] at h ⊢; exact ih h
    | fault f => rw [run_succ_eq_thenSteps, hs] at h; cases k <;> cases h
    | refused r => rw [run_succ_eq_thenSteps, hs] at h; cases k <;> cases h

/-- A step at a poll that reads "busy" at or above the ceiling raises. -/
theorem step_ceiling {s : State} {i : Instr} {n c : Nat} (hh : s.host = []) (hc : s.cursor = some (i, n))
    (ha : AtPoll i n) (ho : s.own = true) (hx : s.transportGood) (hb : s.panelBusy = true)
    (hceil : s.cfg.pollCeilingMs = some c) (hle : c ≤ s.pollElapsed) :
    step s = .next ({ s.log [.poll true] with busyIn := s.busyIn.tail }.errorEntry .panelTimeout) := by
  rw [step_eq_runMicros_poll hh hc ha]
  exact runMicros_raised i _ n (s.pollOnce_ceiling c ho hx hb hceil hle)

/-- On a panel that stays busy an await takes the turns it has left, samples the line once more and raises. -/
theorem run_to_ceiling {s : State} {i : Instr} {n c k : Nat} (hh : s.host = []) (hc : s.cursor = some (i, n))
    (ha : AtPoll i n) (ho : s.own = true) (hx : s.transportGood) (hstuck : s.stuckBusy)
    (hceil : s.cfg.pollCeilingMs = some c) (hp : 1 ≤ s.cfg.pollIntervalMs)
    (hk : turnsLeft c s.pollElapsed s.cfg.pollIntervalMs = k) :
    ∃ t es, Host.Core.run core (k + 1) s = .next t ∧ t.run = false ∧ t.err = .panelTimeout ∧
      t.trace = s.trace ++ es ∧ es.count (.poll true) = k + 1 := by
  have hturns : Host.Core.run core k s = .next (s.afterBusyTurns k) := by
    refine run_busyTurns k hh hc ha ho hx (fun j _ => hstuck.sample j) fun c' hc' j hj => ?_
    cases hceil.symm.trans hc'
    exact lt_ceiling_of_lt_turnsLeft hp (hk ▸ hj)
  have hbusy : (s.afterBusyTurns k).panelBusy = true := by
    rw [s.panelBusy_drop (s.afterBusyTurns k) k rfl rfl rfl, hstuck.sample]
  have hlast := step_ceiling (s := s.afterBusyTurns k) hh hc ha ho hx hbusy hceil (hk ▸ ceiling_le_turnsLeft hp)
  exact ⟨_, busyTurns s.cfg k ++ [.poll true], (run_succ_of_run hturns).trans hlast, rfl, rfl,
    by simp [State.afterBusyTurns], by simp [List.count_append]⟩

/-! ### From acceptance -/

/-- The steps that on a good transport, with the lines held or claimed, go on without a sample of the busy line, in the
Panel State `p`. -/
def Micro.goesOn (p : PanelState) : Micro → Bool
  | .need ps => decide (p ∈ ps)
  | .payload .magic | .payload (.constant _) | .payload .whitePlane => true
  | .acquire | .setReset _ | .settle | .pause _ _ | .command _ | .lut6Command | .lut6Payload | .enter _ | .leave
  | .startAwait => true
  | _ => false

/-- What a stretch that samples nothing changes: the lines are held, the trace is longer by events none of which is a busy
sample, and the sequencer stands elsewhere. -/
def State.Advances (s t : State) : Prop :=
  ∃ es dc rst q pe cur, t = { s with
      own := true, dc := dc, rst := rst, seqPos := q, pollElapsed := pe, cursor := cur, trace := s.trace ++ es } ∧
    es.count (.poll true) = 0

theorem State.Advances.log {s : State} (ho : s.own = true) {es : List Event} (h : es.count (.poll true) = 0) :
    s.Advances (s.log es) :=
  ⟨es, _, _, _, s.pollElapsed, s.cursor, by simp only [State.log]; rw [← ho], h⟩

theorem State.Advances.refl {s : State} (ho : s.own = true) : s.Advances s := by
  simpa using State.Advances.log ho (es := []) rfl

theorem State.Advances.trans {s t u : State} (h : s.Advances t) (h' : t.Advances u) : s.Advances u := by
  obtain ⟨es, dc, rst, q, pe, cur, rfl, hes⟩ := h
  obtain ⟨fs, dc', rst', q', pe', cur', rfl, hfs⟩ := h'
  exact ⟨es ++ fs, dc', rst', q', pe', cur', by simp, by rw [List.count_append, hes, hfs]⟩

/-- The head of an await, at whatever place: the delay before its poll, and no time slept. -/
theorem State.Advances.startAwait {s : State} (ho : s.own = true) (cur : Option (Instr × Nat)) :
    s.Advances { s.log (delayEvents s.cfg.delays.prePollMs) with pollElapsed := 0, cursor := cur } :=
  ⟨delayEvents _, _, _, _, 0, cur, by simp only [State.log]; rw [← ho], count_poll_delayEvents _ _⟩

theorem State.Advances.frame {s t : State} (h : s.Advances t) : t.own = true ∧ t.panelState = s.panelState ∧
    t.xferFails = s.xferFails ∧ t.cfg = s.cfg ∧ t.host = s.host ∧ t.busyIn = s.busyIn ∧ t.busyRest = s.busyRest := by
  obtain ⟨es, dc, rst, q, pe, cur, rfl, -⟩ := h
  exact ⟨rfl, rfl, rfl, rfl, rfl, rfl, rfl⟩

theorem State.Advances.trace {s t : State} (h : s.Advances t) :
    ∃ es, t.trace = s.trace ++ es ∧ es.count (.poll true) = 0 := by
  obtain ⟨es, dc, rst, q, pe, cur, rfl, hes⟩ := h
  exact ⟨es, rfl, hes⟩

theorem State.bus_advances {s : State} (ho : s.own = true) (hx : s.transportGood) {es : List Event}
    (h : es.count (.poll true) = 0) : ∃ t, s.bus es = .ok t ∧ s.Advances t :=
  ⟨_, s.bus_good es ho hx, .log ho h⟩

theorem count_poll_commandEvents (c : Byte) : (commandEvents c).count (.poll true) = 0 := by
  simp [commandEvents]

theorem count_poll_dataEvents (bs : List Byte) : (dataEvents bs).count (.poll true) = 0 := by
  refine List.count_eq_zero.2 ?_
  simp [dataEvents]

/-- Each of these steps goes on. -/
theorem Micro.run_goesOn {m : Micro} {s : State} (hm : m.goesOn s.panelState = true)
    (ho : s.own = true ∨ m = .acquire) (hx : s.transportGood) : ∃ t, m.run s = .ok t ∧ s.Advances t := by
  by_cases ha : m = .acquire
  · subst ha
    refine ⟨_, s.acquire_good hx, acquireEvents s, _, _, _, s.pollElapsed, s.cursor, rfl, ?_⟩
    unfold acquireEvents; split <;> rfl
  · replace ho := ho.resolve_right ha
    cases m <;> simp only [Micro.goesOn, Bool.false_eq_true, decide_eq_true_eq] at hm
    case acquire => exact absurd rfl ha
    case need ps => exact ⟨s, by simp [Micro.run, hm], .refl ho⟩
    case setReset v => exact State.bus_advances ho hx rfl
    case settle | pause => exact ⟨_, rfl, .log ho (count_poll_delayEvents _ _)⟩
    case command c => exact State.bus_advances ho hx (count_poll_commandEvents c)
    case payload d =>
      cases d <;> simp only [Bool.false_eq_true] at hm <;> exact State.bus_advances ho hx (count_poll_dataEvents _)
    case lut6Command =>
      refine State.bus_advances ho hx ?_
      unfold lut6CommandEvents
      split
      · rfl
      · exact count_poll_commandEvents _
    case lut6Payload =>
      refine State.bus_advances ho hx ?_
      unfold lut6PayloadEvents
      split
      · rfl
      · exact count_poll_dataEvents _
    case enter | leave => exact ⟨_, rfl, [], s.dc, s.rst, _, s.pollElapsed, s.cursor, by rw [List.append_nil, ← ho], rfl⟩
    case startAwait => exact ⟨_, rfl, .startAwait ho s.cursor⟩

/-- A stretch of them, begun with the lines held or with their claim. -/
theorem runs_of_goesOn {ms : List Micro} {s : State} (hms : ∀ m ∈ ms, m.goesOn s.panelState = true)
    (ho : s.own = true ∨ ms.head? = some .acquire) (hx : s.transportGood) : ∃ t, Runs 0 ms s t ∧ s.Advances t := by
  induction ms generalizing s with
  | nil => exact ⟨s, .nil s, .refl (by simpa using ho)⟩
  | cons m ms ih =>
    obtain ⟨t, hm, hst⟩ := Micro.run_goesOn (hms m List.mem_cons_self) (ho.imp_right (by simp)) hx
    obtain ⟨hown, hpanel, hfails, -⟩ := hst.frame
    obtain ⟨u, hms, htu⟩ := ih (fun m hm => hpanel ▸ hms m (List.mem_cons_of_mem _ hm)) (.inl hown) (hfails.trans hx)
    exact ⟨u, .step hm hms, hst.trans htu⟩

/-- The steps of an operation that begin its await. -/
def Micro.isStartAwait : Micro → Bool
  | .startAwait => true
  | _ => false

/-- The operations that come to their first poll with their first await. -/
def awaitingOps : List Instr := [.initfast, .initpart, .init4g, .sleep, .picclear]

theorem isSequencerOp_of_awaitingOps : ∀ i ∈ awaitingOps, isSequencerOp i = true := by decide

/-- Each goes on to its first await where it is legal, the lines being held or its first step the claim. -/
theorem program_eq_await {i : Instr} (hi : i ∈ awaitingOps) : ∃ pre rest, program i = pre ++ .startAwait :: .poll :: rest ∧
    (∀ p, legalIn i p = true → ∀ m ∈ pre, m.goesOn p = true) ∧
    (i ∉ [.initpart, .sleep, .picclear] → pre.head? = some .acquire) := by
  have goes : ∀ {p} {ms : List Micro}, (ms.all (·.goesOn p)) = true → ∀ m ∈ ms, m.goesOn p = true := by simp
  refine ⟨(program i).takeWhile (!·.isStartAwait), ((program i).dropWhile (!·.isStartAwait)).drop 2, ?_⟩
  simp only [awaitingOps, List.mem_cons, List.not_mem_nil, or_false] at hi
  refine ⟨?_, fun p hp => goes ?_, fun hclaim => ?_⟩
  · rcases hi with rfl | rfl | rfl | rfl | rfl <;> rfl
  · rcases hi with rfl | rfl | rfl | rfl | rfl <;> cases p <;> revert hp <;> decide +kernel
  · rcases hi with rfl | rfl | rfl | rfl | rfl
    case inl | inr.inr.inl => rfl
    all_goals simp at hclaim

/-- The step that issues such an operation is a step at its first poll, of an await that has slept nothing. -/
theorem exec_eq_step_of_await {i : Instr} {s : State} (hi : i ∈ awaitingOps) (hlegal : legalIn i s.panelState = true)
    (hr : s.run = false) (hh : s.host = []) (ho : i ∈ [.initpart, .sleep, .picclear] → s.own = true)
    (hx : s.transportGood) :
    ∃ n t, exec i s = step t ∧ t.cursor = some (i, n) ∧ AtPoll i n ∧ (s.accept i).Advances t ∧ t.pollElapsed = 0 := by
  obtain ⟨pre, rest, hprog, hgo, hclaim⟩ := program_eq_await hi
  have hown : (s.accept i).own = true ∨ pre.head? = some .acquire := by
    by_cases hi : i ∈ [.initpart, .sleep, .picclear]
    · exact .inl (ho hi)
    · exact .inr (hclaim hi)
  obtain ⟨u, hruns, hsu⟩ := runs_of_goesOn (s := s.accept i) (hgo _ hlegal) hown hx
  let n := pre.length + 1
  let t : State := { u.log (delayEvents u.cfg.delays.prePollMs) with pollElapsed := 0, cursor := some (i, n) }
  have hpoll : AtPoll i n := by
    have : (program i)[n]? = some .poll := by simp [hprog, n]
    simp [AtPoll, this]
  have hrest : (program i).drop (n + 1) = rest := by
    rw [hprog, Nat.add_assoc, ← List.drop_drop, List.drop_left]; rfl
  have hexec : exec i s = runMicros i (.poll :: rest) n 0 t := by
    have hhead := runMicros_of_runs i hruns rfl (.startAwait :: .poll :: rest) 0
    rw [exec_idle i s (format_of_isSequencerOp (isSequencerOp_of_awaitingOps i hi)) hr, hprog, hhead, Nat.zero_add,
      runMicros_ok (m := .startAwait) i _ _ rfl]
    exact (runMicros_at i _ n 0 _ (some (i, n))).symm
  obtain ⟨hown, -, -, -, hhost, -⟩ := hsu.frame
  refine ⟨n, t, ?_, rfl, hpoll, hsu.trans (.startAwait hown _), rfl⟩
  rw [hexec, step_eq_runMicros_poll (s := t) (hhost.trans hh) rfl hpoll, hrest]

end Sys2Proof.Machine

open Sys2Proof Sys2Proof.Machine

/-- Settles O28: an await takes the busy turns it has left and one more sample; the step that issues an operation is a step
at its first poll, with all turns left. -/
theorem pollCeilingBoundsTheAwait : Obligations.PollCeilingBoundsTheAwait := by
  refine ⟨fun s i n c _ hh ho hx hstuck hc ha hceil hp => ?_, fun s i c hi hlegal hr hh ho hx hstuck hceil hp => ?_⟩
  · obtain ⟨t, es, hrun, hend, herr, htrace, hcount⟩ := run_to_ceiling hh hc ha ho hx hstuck hceil hp rfl
    exact ⟨t, hrun, hend, herr, by rw [htrace, List.drop_left, hcount]; rfl⟩
  · obtain ⟨n, u, hexec, hc, ha, hadv, hzero⟩ := exec_eq_step_of_await hi hlegal hr hh ho hx
    obtain ⟨hown, -, hfails, hcfg, hhost, hin, hrest⟩ := hadv.frame
    obtain ⟨es, hes, hnone⟩ := hadv.trace
    have hcfg : u.cfg = s.cfg := hcfg
    have hleft : turnsLeft c u.pollElapsed u.cfg.pollIntervalMs =
        (c + s.cfg.pollIntervalMs - 1) / s.cfg.pollIntervalMs := by rw [hzero, hcfg]; rfl
    obtain ⟨t, fs, hrun, hend, herr, htrace, hcount⟩ := run_to_ceiling (hhost.trans hh) hc ha hown (hfails.trans hx)
      ⟨hin.trans hstuck.1, by rw [hrest, hcfg]; exact hstuck.2⟩ (hcfg ▸ hceil) (hcfg ▸ hp) hleft
    refine ⟨t, by rw [hexec, ← run_succ_eq_thenSteps]; exact hrun, hend, herr, ?_⟩
    rw [htrace, hes, State.accept_trace, List.append_assoc, List.drop_left, List.count_append, hnone, hcount, Nat.zero_add]

end

section
/-! PROOFS. The frame encoder: the flip, the buckets, the planes' sizes, what a decoded plane encodes to, and the three
operations on frames alone (R110 to R120, R122, R136). -/

namespace Sys2Proof

/-! ### Rows put together, cut again and flipped -/

/-- Rows put together and cut again are the rows. -/
theorem rowsOf_flatten {α : Type} (w : Nat) (ls : List (List α)) (hls : ∀ r ∈ ls, r.length = w) :
    rowsOf w ls.length ls.flatten = ls := by
  induction ls with
  | nil => rfl
  | cons r ls ih =>
    have hr : r.length = w := hls r List.mem_cons_self
    have hrest := ih fun q hq => hls q (List.mem_cons_of_mem r hq)
    rw [List.flatten_cons, List.length_cons, rowsOf, List.take_left' hr, List.drop_left' hr, hrest]

/-- Element `x` of row `y` of rows put together. -/
theorem getElem?_flatten_of_rows {α : Type} {w : Nat} (ls : List (List α)) (hls : ∀ r ∈ ls, r.length = w) (y : Nat)
    {x : Nat} (hx : x < w) : ls.flatten[y * w + x]? = ls[y]?.bind fun r => r[x]? := by
  lift ls to List { r : List α // r.length = w } using hls
  have hrow := getElem?_flatMap_of_rows Subtype.val Subtype.property ls y hx
  rw [List.flatMap_def] at hrow
  rw [hrow, List.getElem?_map, Option.bind_map]
  rfl

theorem length_of_mem_reverse_rowsOf {α : Type} {w h : Nat} {l : List α} (hl : l.length = w * h) :
    ∀ r ∈ (rowsOf w h l).reverse, r.length = w :=
  fun r hr => length_of_mem_rowsOf w h l hl r (List.mem_reverse.1 hr)

/-- The rows of a flipped frame are its rows in the opposite order (R110). -/
theorem rowsOf_flipFrame {α : Type} {w h : Nat} {l : List α} (hl : l.length = w * h) :
    rowsOf w h (flipFrame w h l) = (rowsOf w h l).reverse := by
  have hcut := rowsOf_flatten w (rowsOf w h l).reverse (length_of_mem_reverse_rowsOf hl)
  rwa [List.length_reverse, length_rowsOf] at hcut

theorem flipFrame_flipFrame {α : Type} {w h : Nat} {l : List α} (hl : l.length = w * h) :
    flipFrame w h (flipFrame w h l) = l := by
  rw [flipFrame, rowsOf_flipFrame hl, List.reverse_reverse, flatten_rowsOf w h l hl]

/-- Row `y` of a flipped frame is row `h - 1 - y` of the frame (R110). -/
theorem getElem?_flipFrame {α : Type} {w h x y : Nat} {l : List α} (hl : l.length = w * h) (hx : x < w) (hy : y < h) :
    (flipFrame w h l)[y * w + x]? = l[(h - 1 - y) * w + x]? := by
  have hrow := getElem?_flatten_of_rows _ (length_of_mem_rowsOf w h l hl) (h - 1 - y) hx
  rw [flatten_rowsOf w h l hl] at hrow
  rw [flipFrame, getElem?_flatten_of_rows _ (length_of_mem_reverse_rowsOf hl) y hx,
    List.getElem?_reverse ((length_rowsOf w h l).symm ▸ hy), length_rowsOf, hrow]

/-! ### The buckets -/

/-- The test against a breakpoint compares the signed values: a breakpoint is positive (R111, R123). -/
theorem F32.atLeast_iff {n : Nat} (v : F32) (hn : 0 < n) : F32.atLeast n v = true ↔ n * 2 ^ 149 ≤ v.toInt := by
  obtain ⟨neg, mag⟩ := v
  have hpos : 0 < n * F32.one := Nat.mul_pos hn (Nat.two_pow_pos 149)
  cases neg
  case false => simp [atLeast, toInt, one, ← Int.ofNat_le]
  case true =>
    have hneg : ¬ (n * 2 ^ 149 : Int) ≤ -mag := by simp only [one] at hpos; omega
    simpa [atLeast, toInt] using hneg

/-- The number of breakpoints passed, range by range (R111). -/
theorem bucket_eq (v : F32) : bucket v =
    if v.toInt < 64 * 2 ^ 149 then 0#2 else if v.toInt < 128 * 2 ^ 149 then 1#2
      else if v.toInt < 192 * 2 ^ 149 then 2#2 else 3#2 := by
  have h64 := F32.atLeast_iff (n := 64) v (by decide)
  have h128 := F32.atLeast_iff (n := 128) v (by decide)
  have h192 := F32.atLeast_iff (n := 192) v (by decide)
  split_ifs
  all_goals
    simp (disch := omega) only [bucket, Config.breakpoints, List.filter_cons, List.filter_nil, h64, h128, h192, if_pos,
      if_neg]
    rfl

/-- White from the middle breakpoint on (R112). -/
theorem bit1_bucket_iff (v : F32) : bit1 (bucket v) = true ↔ 128 * 2 ^ 149 ≤ v.toInt := by
  rw [bucket_eq, bit1]
  split_ifs <;> simp <;> omega

theorem F32.toInt_ofByte (b : Byte) : (F32.ofByte b).toInt = b.toNat * 2 ^ 149 := by
  simp [F32.ofByte, F32.ofNat, F32.toInt, F32.one]

/-- A bit decoded to 0 or 255 has itself as its bit (R112, R120). -/
theorem bit1_bucket_of_bit (b : Bool) : bit1 (bucket (F32.ofByte (if b then 0xFF#8 else 0x00#8))) = b := by
  rw [Bool.eq_iff_iff, bit1_bucket_iff, F32.toInt_ofByte]
  cases b <;> simp

/-! ### A packed plane read back -/

theorem length_bitsOfByte (b : Byte) : (bitsOfByte b).length = 8 := by simp [bitsOfByte]

/-- A packed row holds the row's bits, byte by byte, before the pad positions (R42, R114). -/
theorem take_flatMap_packRow1 (pad : Bool) {n w : Nat} {bits : List Bool} (hbits : bits.length = w) (hw : w ≤ 8 * n) :
    ((packRow1 pad n bits).flatMap bitsOfByte).take w = bits := by
  refine List.ext_getElem? fun x => ?_
  by_cases hx : x < w
  · have hplace : x / 8 * 8 + x % 8 = x := Nat.div_add_mod' x 8
    have hbyte : x / 8 < n := by omega
    have hbit : x % 8 < 8 := Nat.mod_lt x (by decide)
    have hrow := getElem?_flatMap_of_rows bitsOfByte length_bitsOfByte (packRow1 pad n bits) (x / 8) hbit
    rw [hplace, getElem?_packRow1 pad bits hbyte, Option.bind_some] at hrow
    rw [List.getElem?_take_of_lt hx, hrow, bitsOfByte, List.getElem?_map, List.getElem?_range hbit, Option.map_some,
      getLsbD_packByte1 pad _ hbit, List.getD_eq_getElem?_getD, List.getElem?_drop, Nat.div_add_mod,
      List.getElem?_eq_getElem (hbits ▸ hx), Option.getD_some]
  · rw [List.getElem?_eq_none (by simp; omega), List.getElem?_eq_none (by omega)]

/-- The rows of a packed plane are the packed rows. -/
theorem rowsOf_pack1 (p : Params) (bits : List Bool) :
    rowsOf p.stride1 p.h (pack1 p bits) = (rowsOf p.w p.h bits).map (packRow1 p.padBit p.stride1) := by
  have hcut := rowsOf_flatten p.stride1 ((rowsOf p.w p.h bits).map (packRow1 p.padBit p.stride1)) (by simp)
  rwa [List.length_map, length_rowsOf] at hcut

/-- The pixels of a packed plane are the bits packed (R42, R114). -/
theorem pixels1_pack1 (p : Params) {bits : List Bool} (hbits : bits.length = p.samples) :
    pixels1 p (pack1 p bits) = bits := by
  have hwidth : p.w ≤ 8 * p.stride1 := by unfold Params.stride1; omega
  have hrows : ∀ r ∈ rowsOf p.w p.h bits, ((packRow1 p.padBit p.stride1 r).flatMap bitsOfByte).take p.w = r :=
    fun r hr => take_flatMap_packRow1 _ (length_of_mem_rowsOf p.w p.h bits hbits r hr) hwidth
  rw [pixels1, rowsOf_pack1, List.flatMap_map, List.flatMap_def, List.map_congr_left hrows, List.map_id',
    flatten_rowsOf p.w p.h bits hbits]

/-- Encoding a decoded plane packs the plane's pixels again (R120). -/
theorem encode1bit_decodePlane1 (p : Params) {plane : List Byte} (h : (pixels1 p plane).length = p.samples) :
    encode1bit p (decodePlane1 p plane) false = pack1 p (pixels1 p plane) := by
  have hflip := flipFrame_flipFrame (l := (pixels1 p plane).map fun b => if b then 0xFF#8 else 0x00#8)
    ((List.length_map _).trans h)
  simp only [encode1bit, workOf1, Bool.false_eq_true, if_false, loadFlipped, decodePlane1, hflip, List.map_map]
  simp [Function.comp_def, bit1_bucket_of_bit]

end Sys2Proof

namespace Sys2Proof.Machine

/-! ### The operations on frames alone -/

theorem State.frameOperand_of_readAll {s : State} {f : List Byte} (h : s.frame.readAll s.cfg.samples = some f) :
    s.frameOperand = .ok f := by
  simp [State.frameOperand, h]

/-- An accepted operation of one step that is done at once. -/
theorem exec_of_single {i : Instr} {m : Micro} {s t : State} (hi : i.format = .host) (hp : program i = [m])
    (hr : s.run = false) (hm : m.run (s.accept i) = .ok t) : exec i s = .next t.complete := by
  rw [exec_idle i s hi hr, hp, runMicros_ok i [] 0 hm, runMicros]

/-! The three steps, on a written frame. -/

theorem Micro.run_encode1 {s : State} {f : List Byte} (hf : s.frame.readAll s.cfg.samples = some f) (d : Bool) :
    (Micro.encode1 d).run s = .ok { s with
      work := Memory.ofList (workOf1 s.cfg f d), plane1 := Memory.ofList (encode1bit s.cfg f d) } := by
  rw [Micro.run, State.frameOperand_of_readAll hf, withOperand]

theorem Micro.run_encode4 {s : State} {f : List Byte} (hf : s.frame.readAll s.cfg.samples = some f) :
    Micro.encode4.run s = .ok { s with
      work := Memory.ofList (workOf4 s.cfg f), plane2 := Memory.ofList (encode4gray s.cfg f) } := by
  rw [Micro.run, State.frameOperand_of_readAll hf, withOperand]

theorem Micro.run_ditherFrame {s : State} {f : List Byte} (hf : s.frame.readAll s.cfg.samples = some f) :
    Micro.ditherFrame.run s = .ok { s with work := Memory.ofList (workOfDither s.cfg f) } := by
  rw [Micro.run, State.frameOperand_of_readAll hf, withOperand]

end Sys2Proof.Machine

open Sys2Proof Sys2Proof.Machine

/-- Settles O30: the rows of the flip are the frame's rows reversed. -/
theorem flipReversesTheRows : Obligations.FlipReversesTheRows :=
  fun _ _ _ hf => ⟨fun _ _ hx hy => getElem?_flipFrame hf hx hy, flipFrame_flipFrame hf⟩

/-- Settles O31: in each of the four ranges the bucket is known, and with it the bit and the code. -/
theorem bucketsByBreakpoint : Obligations.BucketsByBreakpoint := by
  intro v
  have hblack : v.toInt < 64 * 2 ^ 149 → bucket v = 0#2 := fun h => by rw [bucket_eq, if_pos h]
  have hdark : 64 * 2 ^ 149 ≤ v.toInt → v.toInt < 128 * 2 ^ 149 → bucket v = 1#2 := fun h h' => by
    rw [bucket_eq, if_neg h.not_gt, if_pos h']
  have hlight : 128 * 2 ^ 149 ≤ v.toInt → v.toInt < 192 * 2 ^ 149 → bucket v = 2#2 := fun h h' => by
    rw [bucket_eq, if_neg (by omega), if_neg h.not_gt, if_pos h']
  have hwhite : 192 * 2 ^ 149 ≤ v.toInt → bucket v = 3#2 := fun h => by
    rw [bucket_eq, if_neg (by omega), if_neg (by omega), if_neg h.not_gt]
  exact ⟨hblack, hdark, hlight, hwhite, bit1_bucket_iff v, hblack, hdark, hlight, hwhite⟩

/-- Settles O34: the decoded plane's pixels are the bits packed, and 0 and 255 keep them. -/
theorem encodeOfDecodedPlane : Obligations.EncodeOfDecodedPlane := by
  intro p f hf
  have hpixels : pixels1 p (encode1bit p f false) = (workOf1 p f false).map fun v => bit1 (bucket v) :=
    pixels1_pack1 p ((List.length_map _).trans (length_workOf1 p f false hf))
  rw [encode1bit_decodePlane1 p (by rw [hpixels, List.length_map, length_workOf1 p f false hf]), hpixels, encode1bit]

/-- Settles O35: each operation is one step, whose buffers the encoder's functions fill. -/
theorem frameOperationResults : Obligations.FrameOperationResults := by
  refine ⟨F32.toInt_ofByte, fun s f hr hf => ?_, fun p f => ?_⟩
  · have hwritten : ∀ i, (s.accept i).frame.readAll (s.accept i).cfg.samples = some f := fun _ => hf
    have henc1 := fun d => exec_of_single (i := .enc1 d) rfl rfl hr (Micro.run_encode1 (hwritten _) d)
    have henc4 := exec_of_single (i := .enc4) rfl rfl hr (Micro.run_encode4 (hwritten _))
    have hdither := exec_of_single (i := .dither) rfl rfl hr (Micro.run_ditherFrame (hwritten _))
    exact ⟨henc1, henc4, hdither⟩
  · exact ⟨fun d => ⟨rfl, rfl⟩, rfl, rfl, fun n l => rfl⟩

/-- Settles O33: a packed plane's size is its stride times its height, whatever is packed. -/
theorem planeSizes : Obligations.PlaneSizes := by
  intro p f d
  have h1 : (encode1bit p f d).length = (p.w + 7) / 8 * p.h := length_pack1 p _
  have h2 : (encode4gray p f).length = (p.w + 3) / 4 * p.h := length_pack2 p _
  exact ⟨h1, h2, fun hw hh => by simp [h1, h2, hw, hh]⟩

end

section
/-! PROOFS. The dithering engine: its scan, one visit element by element, and what later visits leave alone (R131 to R135,
R140). -/

namespace Sys2Proof

/-! ### The scan (R132) -/

theorem mem_ditherScan {w h x y : Nat} : (x, y) ∈ ditherScan w h ↔ 1 ≤ x ∧ x + 2 ≤ w ∧ y + 2 ≤ h := by
  simp only [ditherScan, List.mem_flatMap, List.mem_range, List.mem_map, Prod.mk.injEq]
  constructor
  · rintro ⟨_, hy, _, hx, rfl, rfl⟩
    omega
  · rintro ⟨hleft, hright, hbelow⟩
    exact ⟨y, by omega, x - 1, by omega, by omega, rfl⟩

/-- Rows in increasing `y`, and pixels of a row in increasing `x`. -/
theorem pairwise_ditherScan (w h : Nat) :
    (ditherScan w h).Pairwise fun a b => a.2 < b.2 ∨ a.2 = b.2 ∧ a.1 < b.1 := by
  refine List.pairwise_flatMap.2 ⟨fun y _ => ?_, List.pairwise_lt_range.imp fun hrows a ha b hb => ?_⟩
  · refine List.pairwise_map.2 (List.pairwise_lt_range.imp fun hlt => ?_)
    exact .inr ⟨rfl, Nat.succ_lt_succ hlt⟩
  · obtain ⟨_, _, rfl⟩ := List.mem_map.1 ha
    obtain ⟨_, _, rfl⟩ := List.mem_map.1 hb
    exact .inl hrows

theorem ditherScan_eq_nil {w h : Nat} (hsmall : w < 3 ∨ h < 2) : ditherScan w h = [] := by
  refine List.eq_nil_iff_forall_not_mem.2 fun p hp => ?_
  have := mem_ditherScan.1 hp
  omega

/-- Of two pixels of a scan the earlier one has the lower place in the buffer. -/
theorem place_lt_of_scan_order {w : Nat} {a b : Nat × Nat} (ha : a.1 < w) (h : a.2 < b.2 ∨ a.2 = b.2 ∧ a.1 < b.1) :
    a.2 * w + a.1 < b.2 * w + b.1 := by
  rcases h with hrow | ⟨hrow, hcol⟩
  · have hrows : (a.2 + 1) * w ≤ b.2 * w := Nat.mul_le_mul_right w hrow
    rw [Nat.succ_mul] at hrows
    omega
  · rw [hrow]
    exact Nat.add_lt_add_left hcol _

/-! ### A store of one element -/

theorem getElem?_ditherAdd_ne (n : Numerics) (a : Array F32) (t : Exact) {i j : Nat} (h : i ≠ j) :
    (ditherAdd n a i t)[j]? = a[j]? := Array.getElem?_setIfInBounds_ne h

theorem getD_setIfInBounds_self (a : Array F32) (v : F32) {i : Nat} (h : i < a.size) :
    (a.setIfInBounds i v).getD i default = v := by
  rw [Array.getD_eq_getD_getElem?, Array.getElem?_setIfInBounds_self_of_lt h, Option.getD_some]

theorem getD_setIfInBounds_ne (a : Array F32) (v : F32) {i j : Nat} (h : i ≠ j) :
    (a.setIfInBounds i v).getD j default = a.getD j default := by
  simp only [Array.getD_eq_getD_getElem?, Array.getElem?_setIfInBounds_ne h]

theorem getD_ditherAdd_self (n : Numerics) (a : Array F32) (t : Exact) {i : Nat} (h : i < a.size) :
    (ditherAdd n a i t).getD i default = (n.add (a.getD i default).toExact t).toF32 := getD_setIfInBounds_self a _ h

theorem getD_ditherAdd_ne (n : Numerics) (a : Array F32) (t : Exact) {i j : Nat} (h : i ≠ j) :
    (ditherAdd n a i t).getD j default = a.getD j default := getD_setIfInBounds_ne a _ h

/-! ### One visit -/

/-- A visit leaves every element but the pixel's own and its four neighbours' alone (R134). -/
theorem getElem?_ditherPixel_of_not_mem (n : Numerics) (w : Nat) (a : Array F32) (x y : Nat) {j : Nat}
    (hj : j ∉ [y * w + x, y * w + x + 1, (y + 1) * w + x - 1, (y + 1) * w + x, (y + 1) * w + x + 1]) :
    (ditherPixel n w a (x, y))[j]? = a[j]? := by
  simp only [List.mem_cons, List.not_mem_nil, or_false, not_or, eq_comm (a := j)] at hj
  obtain ⟨hown, hright, hleft, hbelow, hlast⟩ := hj
  simp only [ditherPixel]
  rw [getElem?_ditherAdd_ne _ _ _ hlast, getElem?_ditherAdd_ne _ _ _ hbelow, getElem?_ditherAdd_ne _ _ _ hleft,
    getElem?_ditherAdd_ne _ _ _ hright, Array.getElem?_setIfInBounds_ne hown]

/-- A visit writes nothing before its own pixel. -/
theorem getElem?_ditherPixel_of_lt (n : Numerics) {w : Nat} (a : Array F32) {x y j : Nat} (hw : 1 ≤ w)
    (hj : j < y * w + x) : (ditherPixel n w a (x, y))[j]? = a[j]? := by
  refine getElem?_ditherPixel_of_not_mem n w a x y ?_
  have hbelow : (y + 1) * w = y * w + w := Nat.succ_mul y w
  simp only [List.mem_cons, List.not_mem_nil, or_false, hbelow]
  omega

/-- A visit stores its own level and four shares, each at a place of its own (R131, R133 to R135). -/
theorem getD_ditherPixel (n : Numerics) {w : Nat} (a : Array F32) {x y : Nat} (hleft : 1 ≤ x) (hright : x + 1 < w)
    (hin : (y + 1) * w + x + 1 < a.size) :
    let old := (a.getD (y * w + x) default).toExact
    let err := n.sub old (ditherLevel n old)
    let share := fun i k => (n.add (a.getD i default).toExact (ditherTerm n err k)).toF32
    let b := ditherPixel n w a (x, y)
    b.getD (y * w + x) default = (ditherLevel n old).toF32 ∧
      b.getD (y * w + x + 1) default = share (y * w + x + 1) 7 ∧
      b.getD ((y + 1) * w + x - 1) default = share ((y + 1) * w + x - 1) 3 ∧
      b.getD ((y + 1) * w + x) default = share ((y + 1) * w + x) 5 ∧
      b.getD ((y + 1) * w + x + 1) default = share ((y + 1) * w + x + 1) 1 := by
  have hbelow : (y + 1) * w = y * w + w := Nat.succ_mul y w
  simp (disch := (try simp only [size_ditherAdd, Array.size_setIfInBounds]); omega) only [ditherPixel, getD_ditherAdd_ne,
    getD_ditherAdd_self, getD_setIfInBounds_ne, getD_setIfInBounds_self, and_self]

/-! ### A pass -/

theorem size_foldl_ditherPixel (n : Numerics) (w : Nat) (ps : List (Nat × Nat)) (a : Array F32) :
    (ps.foldl (ditherPixel n w) a).size = a.size := by
  induction ps generalizing a with
  | nil => rfl
  | cons p ps ih => rw [List.foldl_cons, ih, size_ditherPixel]

/-- Visits of pixels that all come after a place leave it alone. -/
theorem getElem?_foldl_ditherPixel_of_lt (n : Numerics) {w j : Nat} (ps : List (Nat × Nat)) (a : Array F32) (hw : 1 ≤ w)
    (hps : ∀ p ∈ ps, j < p.2 * w + p.1) : (ps.foldl (ditherPixel n w) a)[j]? = a[j]? := by
  induction ps generalizing a with
  | nil => rfl
  | cons p ps ih =>
    obtain ⟨hp, hps⟩ := List.forall_mem_cons.1 hps
    rw [List.foldl_cons, ih _ hps, getElem?_ditherPixel_of_lt n a hw hp]

/-- A visited element keeps the level of its own visit: every later visit is of a pixel that comes after it (R140). -/
theorem getElem?_ditherInPlace_of_mem (n : Numerics) {w h x y : Nat} {l : List F32} (hl : l.length = w * h)
    (hp : (x, y) ∈ ditherScan w h) :
    ∃ v : F32, (ditherInPlace n w h l)[y * w + x]? = some (ditherLevel n v.toExact).toF32 := by
  obtain ⟨hleft, hright, hbelow⟩ := mem_ditherScan.1 hp
  obtain ⟨before, after, hscan⟩ := List.append_of_mem hp
  have horder := pairwise_ditherScan w h
  rw [hscan, List.pairwise_append, List.pairwise_cons] at horder
  obtain ⟨-, ⟨hafter, -⟩, -⟩ := horder
  obtain ⟨a, ha⟩ : ∃ a, before.foldl (ditherPixel n w) l.toArray = a := ⟨_, rfl⟩
  have hsize : a.size = h * w := by rw [← ha, size_foldl_ditherPixel, List.size_toArray, hl, Nat.mul_comm]
  have hin : (y + 1) * w + x + 1 < a.size := by
    have hrows : (y + 1 + 1) * w ≤ h * w := Nat.mul_le_mul_right w hbelow
    rw [Nat.succ_mul] at hrows
    omega
  have hplace : y * w + x < (ditherPixel n w a (x, y)).size := by
    rw [Nat.succ_mul] at hin
    rw [size_ditherPixel]
    omega
  have hvisit : (ditherPixel n w a (x, y))[y * w + x]? =
      some (ditherLevel n (a.getD (y * w + x) default).toExact).toF32 := by
    obtain ⟨hlevel, -⟩ := getD_ditherPixel n a hleft (by omega) hin
    rw [← hlevel, Array.getD_eq_getD_getElem?, Array.getElem?_eq_getElem hplace, Option.getD_some]
  have hlater : ∀ p ∈ after, y * w + x < p.2 * w + p.1 := fun p hp =>
    place_lt_of_scan_order (a := (x, y)) (by omega) (hafter p hp)
  refine ⟨a.getD (y * w + x) default, ?_⟩
  rw [ditherInPlace, hscan, List.foldl_append, ha, List.foldl_cons, Array.getElem?_toList,
    getElem?_foldl_ditherPixel_of_lt n after _ (by omega) hlater, hvisit]

/-- The corner comes before every visited pixel, and no error goes back to it (R132). -/
theorem getElem?_ditherInPlace_zero (n : Numerics) (w h : Nat) (l : List F32) :
    (ditherInPlace n w h l)[0]? = l[0]? := by
  rcases Nat.eq_zero_or_pos w with rfl | hw
  · rw [ditherInPlace, ditherScan_eq_nil (.inl (by decide)), List.foldl_nil]
  · have hscan : ∀ p ∈ ditherScan w h, 0 < p.2 * w + p.1 := fun p hp => Nat.add_pos_right _ (mem_ditherScan.1 hp).1
    rw [ditherInPlace, Array.getElem?_toList, getElem?_foldl_ditherPixel_of_lt n _ _ hw hscan, List.getElem?_toArray]

end Sys2Proof

open Sys2Proof

/-- Settles O37: membership and order are those of the two ranges; of an empty scan the pass is the buffer. -/
theorem ditherScanOrder : Obligations.DitherScanOrder := by
  refine fun w h => ⟨fun x y => mem_ditherScan, pairwise_ditherScan w h, fun hsmall n l => ?_⟩
  rw [ditherInPlace, ditherScan_eq_nil hsmall, List.foldl_nil]

/-- Settles O38: the five places differ, and a visit stores at no other. -/
theorem ditherVisitDistributesTheError : Obligations.DitherVisitDistributesTheError := by
  intro n w a x y hleft hright hin
  obtain ⟨hown, hnext, hbelowLeft, hbelow, hbelowRight⟩ := getD_ditherPixel n a hleft hright hin
  refine ⟨hown, hnext, hbelowLeft, hbelow, hbelowRight, fun i hi => ?_⟩
  simp only [Array.getD_eq_getD_getElem?, getElem?_ditherPixel_of_not_mem n w a x y hi]

/-- Settles O39: a visited element has its level from its own visit, and every later visit, like every visit for the corner,
is of a pixel further on. -/
theorem visitedElementsAreLevels : Obligations.VisitedElementsAreLevels := fun n w h l hl =>
  ⟨fun _ _ hleft hright hbelow => getElem?_ditherInPlace_of_mem n hl (mem_ditherScan.2 ⟨hleft, hright, hbelow⟩),
    getElem?_ditherInPlace_zero n w h l⟩

end

section
/-! PROOFS. The arithmetic of the dithering engine rounds to nearest: rounding to an integer, to 24 significant bits, and the
operations built on the two (R12, R133, R137). -/

namespace Sys2Proof

/-! ### Rounding to an integer -/

/-- `roundEven` is within half a unit of the quotient, and even where it is half a unit away. -/
theorem roundEven_spec (n : Nat) {d : Nat} (hd : 0 < d) :
    2 * n ≤ 2 * (roundEven n d * d) + d ∧ 2 * (roundEven n d * d) ≤ 2 * n + d ∧
      (2 * n = 2 * (roundEven n d * d) + d ∨ 2 * (roundEven n d * d) = 2 * n + d → roundEven n d % 2 = 0) := by
  have hn : n / d * d + n % d = n := Nat.div_add_mod' n d
  have hr : n % d < d := Nat.mod_lt n hd
  have hup : (n / d + 1) * d = n / d * d + d := Nat.succ_mul (n / d) d
  unfold roundEven
  split_ifs with hlow hhigh
  · omega
  · omega
  · rcases Nat.mod_two_eq_zero_or_one (n / d) with heven | hodd
    · rw [heven, Nat.add_zero]
      omega
    · rw [hodd]
      omega

/-- `roundAway` is within half a unit of the quotient, and above it where it is half a unit away. -/
theorem roundAway_spec (n : Nat) {d : Nat} (hd : 0 < d) :
    2 * n < 2 * (roundAway n d * d) + d ∧ 2 * (roundAway n d * d) ≤ 2 * n + d := by
  have hdiv : (2 * n + d) / (2 * d) * (2 * d) + (2 * n + d) % (2 * d) = 2 * n + d := Nat.div_add_mod' _ _
  have hmod : (2 * n + d) % (2 * d) < 2 * d := Nat.mod_lt _ (by omega)
  rw [Nat.mul_left_comm, ← roundAway] at hdiv
  omega

/-- No multiple of the divisor is nearer, and where one is as near the quotient was rounded to an even one. -/
theorem roundEven_nearest (n k : Nat) {d : Nat} (hd : 0 < d) :
    ((roundEven n d : Int) * d - n).natAbs ≤ ((k : Int) * d - n).natAbs ∧
      (((k : Int) * d - n).natAbs = ((roundEven n d : Int) * d - n).natAbs → k ≠ roundEven n d → roundEven n d % 2 = 0) := by
  have hspec := roundEven_spec n hd
  generalize roundEven n d = q at hspec ⊢
  rw [← Nat.cast_mul, ← Nat.cast_mul]
  rcases Nat.lt_trichotomy k q with hlt | rfl | hgt
  · have hstep : (k + 1) * d ≤ q * d := Nat.mul_le_mul_right d hlt
    rw [Nat.succ_mul] at hstep
    omega
  · exact ⟨Nat.le_refl _, fun _ h => absurd rfl h⟩
  · have hstep : (q + 1) * d ≤ k * d := Nat.mul_le_mul_right d hgt
    rw [Nat.succ_mul] at hstep
    omega

theorem roundEven_of_dvd {n d : Nat} (hd : 0 < d) (h : d ∣ n) : roundEven n d = n / d := by
  simp [roundEven, Nat.mod_eq_zero_of_dvd h, hd]

/-! ### 24 significant bits -/

theorem lt_two_pow_of_log2_lt {n k : Nat} (h : Nat.log2 n < k) : n < 2 ^ k :=
  Nat.lt_log2_self.trans_le (Nat.pow_le_pow_right (by decide) h)

/-- The last place of a product with a power of two: at most that power, unless the factor is 2^24. -/
theorem log2_mul_two_pow_sub_le {q e : Nat} (hq : q < 2 ^ 24) : Nat.log2 (q * 2 ^ e) - 23 ≤ e := by
  rcases Nat.eq_zero_or_pos q with rfl | hpos
  · simp
  · have hne : q * 2 ^ e ≠ 0 := (Nat.mul_pos hpos (Nat.two_pow_pos e)).ne'
    have hlt : q * 2 ^ e < 2 ^ (24 + e) := by
      rw [Nat.pow_add]
      exact Nat.mul_lt_mul_of_pos_right hq (Nat.two_pow_pos e)
    have := (Nat.log2_lt hne).2 hlt
    omega

/-- The last place of 2^24 units is twice the unit. -/
theorem log2_two_pow_24_mul_sub (e : Nat) : Nat.log2 (2 ^ 24 * 2 ^ e) - 23 = e + 1 := by
  rw [← Nat.pow_add, Nat.log2_two_pow]
  omega

/-- At most 2^24 units, the unit a power of two, is a binary32 value. -/
theorem F32.representable_of_mag {v : F32} {q e : Nat} (hv : v.mag = q * 2 ^ e) (hq : q ≤ 2 ^ 24) : v.Representable := by
  refine Nat.mod_eq_zero_of_dvd ?_
  rw [hv]
  rcases Nat.lt_or_eq_of_le hq with hlt | rfl
  · exact (Nat.pow_dvd_pow 2 (log2_mul_two_pow_sub_le hlt)).mul_left q
  · rw [log2_two_pow_24_mul_sub, ← Nat.pow_add]
    exact Nat.pow_dvd_pow 2 (by omega)

/-- An even number of units, at most 2^24, is an even significand, also where it is one unit of a higher binade. -/
theorem F32.significand_even_of_mag {v : F32} {q e : Nat} (hv : v.mag = q * 2 ^ e) (hq : q ≤ 2 ^ 24) (heven : q % 2 = 0) :
    v.significand % 2 = 0 := by
  rw [significand, hv]
  rcases Nat.lt_or_eq_of_le hq with hlt | rfl
  · have hle := log2_mul_two_pow_sub_le (e := e) hlt
    rw [Nat.mul_div_assoc q (Nat.pow_dvd_pow 2 hle), Nat.mul_mod, heven, Nat.zero_mul, Nat.zero_mod]
  · have hhalf : 2 ^ 24 * 2 ^ e = 2 ^ 23 * 2 ^ (e + 1) := by omega
    rw [log2_two_pow_24_mul_sub, hhalf, Nat.mul_div_cancel _ (Nat.two_pow_pos (e + 1)), Nat.pow_succ, Nat.mul_mod_left]

/-- A binary32 value is its significand in units of its last place. -/
theorem F32.Representable.mag_eq {v : F32} (hv : v.Representable) : v.mag = v.significand * 2 ^ (Nat.log2 v.mag - 23) :=
  (Nat.div_mul_cancel (Nat.dvd_of_mod_eq_zero hv)).symm

theorem F32.significand_lt (v : F32) : v.significand < 2 ^ 24 := by
  refine Nat.div_lt_of_lt_mul ?_
  rw [← Nat.pow_add]
  exact lt_two_pow_of_log2_lt (by omega)

/-! ### The nearest binary32 value -/

/-- A rounded quotient is at most an integer the quotient is at most. -/
theorem le_of_within_half {n q k d : Nat} (hd : 0 < d) (hq : 2 * (q * d) ≤ 2 * n + d) (hn : n ≤ k * d) : q ≤ k := by
  by_contra hlt
  have hstep : (k + 1) * d ≤ q * d := Nat.mul_le_mul_right d (Nat.lt_of_not_le hlt)
  rw [Nat.succ_mul] at hstep
  omega

/-- The step `roundMag` rounds to leaves at most 24 bits. -/
theorem roundEven_step_le (m : Nat) {d : Nat} (hd : 0 < d) :
    roundEven m (d * 2 ^ (Nat.log2 (m / d) - 23)) ≤ 2 ^ 24 := by
  have hstep : 0 < d * 2 ^ (Nat.log2 (m / d) - 23) := Nat.mul_pos hd (Nat.two_pow_pos _)
  obtain ⟨-, hhigh, -⟩ := roundEven_spec m hstep
  refine le_of_within_half hstep hhigh ?_
  have hquot : m / d < 2 ^ (24 + (Nat.log2 (m / d) - 23)) := lt_two_pow_of_log2_lt (by omega)
  rw [Nat.mul_left_comm, ← Nat.pow_add, Nat.mul_comm]
  exact ((Nat.div_lt_iff_lt_mul hd).1 hquot).le

/-- A binary32 value is a whole number of the steps at `x`, or lies below the binade of `x`. -/
theorem F32.Representable.step_dvd_or_lt {u : F32} (hu : u.Representable) (x : Nat) :
    2 ^ (Nat.log2 x - 23) ∣ u.mag ∨
      u.mag < 2 ^ 23 * 2 ^ (Nat.log2 x - 23) ∧ 2 ^ 23 * 2 ^ (Nat.log2 x - 23) ≤ x := by
  rcases Nat.lt_or_ge (Nat.log2 u.mag - 23) (Nat.log2 x - 23) with hlt | hge
  · have hx : x ≠ 0 := by
      rintro rfl
      simp at hlt
    rw [← Nat.pow_add, Nat.add_sub_cancel' (by omega)]
    exact .inr ⟨lt_two_pow_of_log2_lt (by omega), Nat.log2_self_le hx⟩
  · exact .inl ((Nat.pow_dvd_pow 2 hge).trans (Nat.dvd_of_mod_eq_zero hu))

theorem F32.representable_roundMag (neg : Bool) (m : Nat) {d : Nat} (hd : 0 < d) :
    (⟨neg, roundMag m d⟩ : F32).Representable := representable_of_mag rfl (roundEven_step_le m hd)

/-- No binary32 magnitude is nearer the quotient, and where another is as near the significand is even. -/
theorem roundMag_nearest (neg : Bool) (m : Nat) {d : Nat} (hd : 0 < d) {u : F32} (hu : u.Representable) :
    ((roundMag m d : Int) * d - m).natAbs ≤ ((u.mag : Int) * d - m).natAbs ∧
      (((u.mag : Int) * d - m).natAbs = ((roundMag m d : Int) * d - m).natAbs → u.mag ≠ roundMag m d →
        (⟨neg, roundMag m d⟩ : F32).significand % 2 = 0) := by
  have hbits := roundEven_step_le m hd
  have hplace := hu.step_dvd_or_lt (m / d)
  rw [roundMag]
  generalize Nat.log2 (m / d) - 23 = e at hbits hplace ⊢
  have hstep : 0 < d * 2 ^ e := Nat.mul_pos hd (Nat.two_pow_pos e)
  have hscale : ∀ k : Nat, ((k * 2 ^ e : Nat) : Int) * d = k * (d * 2 ^ e : Nat) := fun k => by push_cast; ring
  have heven := F32.significand_even_of_mag (v := ⟨neg, roundEven m (d * 2 ^ e) * 2 ^ e⟩) rfl hbits
  rcases hplace with ⟨k, hk⟩ | ⟨hbelow, hbinade⟩
  · obtain ⟨hnear, htie⟩ := roundEven_nearest m k hstep
    rw [hk, Nat.mul_comm _ k, hscale, hscale]
    exact ⟨hnear, fun h hne => heven (htie h fun hk => hne (congrArg (· * 2 ^ e) hk))⟩
  · obtain ⟨hnear, -⟩ := roundEven_nearest m (2 ^ 23) hstep
    have hm : 2 ^ 23 * 2 ^ e * d ≤ m := (Nat.le_div_iff_mul_le hd).1 hbinade
    have hu : u.mag * d < 2 ^ 23 * 2 ^ e * d := Nat.mul_lt_mul_of_pos_right hbelow hd
    rw [← hscale, ← hscale, ← Nat.cast_mul, ← Nat.cast_mul] at hnear
    rw [← Nat.cast_mul, ← Nat.cast_mul]
    omega

theorem roundMag_zero (d : Nat) : roundMag 0 d = 0 := by simp [roundMag, roundEven]

/-! ### Signed values -/

@[simp] theorem F32.toInt_mk_false (m : Nat) : F32.toInt ⟨false, m⟩ = m := rfl

@[simp] theorem F32.toInt_mk_true (m : Nat) : F32.toInt ⟨true, m⟩ = -m := rfl

theorem F32.natAbs_toInt (v : F32) : v.toInt.natAbs = v.mag := by
  obtain ⟨s, m⟩ := v
  cases s <;> simp

theorem F32.toInt_mk_natAbs (r : Int) : F32.toInt ⟨decide (r < 0), r.natAbs⟩ = r := by
  rcases lt_or_ge r 0 with hneg | hpos
  · rw [decide_eq_true hneg, toInt_mk_true]
    omega
  · rw [decide_eq_false hpos.not_gt, toInt_mk_false]
    omega

theorem F32.toInt_mk_mul (s : Bool) (m k : Nat) : F32.toInt ⟨s, m * k⟩ = F32.toInt ⟨s, m⟩ * k := by
  cases s <;> simp

/-- The sign of a product or a quotient is the exclusive or of the signs. -/
theorem F32.toInt_mk_bne (s t : Bool) (m k : Nat) :
    F32.toInt ⟨s != t, m * k⟩ = F32.toInt ⟨s, m⟩ * F32.toInt ⟨t, k⟩ := by
  cases s <;> cases t <;> simp

theorem F32.toInt_negate (v : F32) : v.negate.toInt = -v.toInt := by
  obtain ⟨s, m⟩ := v
  cases s <;> simp [negate]

theorem F32.toInt_mk_one {v : F32} (hv : v.mag ≠ 0) : F32.toInt ⟨v.neg, 1⟩ = v.toInt.sign := by
  obtain ⟨s, m⟩ := v
  cases s <;> simp [Int.sign_natCast_of_ne_zero hv]

/-- The distance of two values of one sign is that of their magnitudes. -/
theorem F32.natAbs_toInt_sub_self (s : Bool) (a m d : Nat) :
    (F32.toInt ⟨s, a⟩ * d - F32.toInt ⟨s, m⟩).natAbs = ((a : Int) * d - m).natAbs := by
  cases s
  · rfl
  · rw [toInt_mk_true, toInt_mk_true, Int.neg_mul]
    omega

/-- The distance of two values of opposite signs is the sum of their magnitudes. -/
theorem F32.natAbs_toInt_sub_not (s : Bool) (a m d : Nat) :
    (F32.toInt ⟨!s, a⟩ * d - F32.toInt ⟨s, m⟩).natAbs = a * d + m := by
  have hcast : ((a * d : Nat) : Int) = a * d := Nat.cast_mul a d
  cases s <;> simp only [Bool.not_false, Bool.not_true, toInt_mk_false, toInt_mk_true, Int.neg_mul] <;> omega

/-- With a sign: a value of the other sign is farther off, or both are 0. -/
theorem F32.isNearest_roundMag {neg : Bool} {m d : Nat} {n : Int} (hd : 0 < d) (hn : F32.toInt ⟨neg, m⟩ = n) :
    (⟨neg, roundMag m d⟩ : F32).IsNearest n d := by
  subst hn
  refine ⟨representable_roundMag neg m hd, fun ⟨s, a⟩ hu => ?_⟩
  obtain ⟨hnear, htie⟩ := roundMag_nearest neg m hd hu
  obtain ⟨hzero, -⟩ := roundMag_nearest neg m hd (u := ⟨false, 0⟩) (Nat.zero_mod _)
  generalize roundMag m d = v at hnear htie hzero ⊢
  rw [natAbs_toInt_sub_self]
  rcases Bool.eq_or_eq_not s neg with rfl | rfl
  · rw [natAbs_toInt_sub_self]
    refine ⟨hnear, fun h hne => htie h ?_⟩
    rintro rfl
    exact hne rfl
  · rw [natAbs_toInt_sub_not]
    simp only [← Nat.cast_mul] at hnear htie hzero ⊢
    refine ⟨by omega, fun h hne => htie (by omega) ?_⟩
    rintro rfl
    have hnull : a = 0 := (Nat.mul_eq_zero.1 (by omega : a * d = 0)).resolve_right hd.ne'
    subst hnull
    cases neg <;> exact hne rfl

/-! ### The operations -/

theorem F32.isNearest_add (a b : F32) : (a.add b).IsNearest (a.toInt + b.toInt) 1 := by
  rw [add]
  split_ifs with hzero
  · rw [hzero, ← roundMag_zero 1]
    exact isNearest_roundMag Nat.one_pos (by cases a.neg && b.neg <;> rfl)
  · exact isNearest_roundMag Nat.one_pos (toInt_mk_natAbs _)

theorem F32.isNearest_sub (a b : F32) : (a.sub b).IsNearest (a.toInt - b.toInt) 1 := by
  rw [sub, Int.sub_eq_add_neg, ← toInt_negate]
  exact isNearest_add a b.negate

theorem F32.isNearest_mul (a b : F32) : (a.mul b).IsNearest (a.toInt * b.toInt) (2 ^ 149) :=
  isNearest_roundMag (Nat.two_pow_pos 149) (toInt_mk_bne a.neg b.neg a.mag b.mag)

theorem F32.isNearest_div (a : F32) {b : F32} (hb : b.mag ≠ 0) :
    (a.div b).IsNearest (a.toInt * 2 ^ 149 * b.toInt.sign) b.mag := by
  refine isNearest_roundMag (Nat.pos_of_ne_zero hb) ?_
  rw [← Nat.mul_one (a.mag * one), toInt_mk_bne, toInt_mk_mul, toInt_mk_one hb, one, Nat.cast_pow, Nat.cast_ofNat]

theorem Exact.isNearest_toF32 (v : Exact) (hv : 0 < v.den) : v.toF32.IsNearest (v.signed * 2 ^ 149) v.den := by
  refine F32.isNearest_roundMag hv ?_
  rw [F32.toInt_mk_mul, F32.one, Nat.cast_pow, Nat.cast_ofNat]
  rfl

/-! ### `rint` (R133) -/

/-- A magnitude moved to a whole number at most half a unit away: it has at most 24 bits where the old one has, since either
the old one is whole and stays, or it is below 2^24 units. -/
theorem F32.Representable.of_within_half {v : F32} {q : Nat} (hv : v.Representable)
    (hlow : 2 * v.mag ≤ 2 * (q * one) + one) (hhigh : 2 * (q * one) ≤ 2 * v.mag + one) :
    (⟨v.neg, q * one⟩ : F32).Representable := by
  have hq : v.mag = v.significand * 2 ^ (Nat.log2 v.mag - 23) := hv.mag_eq
  have hbits := v.significand_lt
  generalize v.significand = r at hq hbits
  generalize Nat.log2 v.mag - 23 = e at hq
  rcases Nat.lt_or_ge e 149 with hfine | hcoarse
  · refine representable_of_mag (q := q) (e := 149) rfl (le_of_within_half (Nat.two_pow_pos 149) hhigh ?_)
    rw [hq]
    exact Nat.mul_le_mul hbits.le (Nat.pow_le_pow_right (by decide) hfine.le)
  · have hwhole : one ∣ v.mag := hq ▸ (Nat.pow_dvd_pow 2 hcoarse).mul_left r
    obtain ⟨k, hk⟩ := hwhole
    have hsame : q * one = v.mag := by
      simp only [one] at *
      omega
    rwa [hsame]

/-- `rint` moves the magnitude to a whole number at most half a unit away, and keeps the sign. -/
theorem F32.rint_spec (t : TieRule) (v : F32) : ∃ q : Nat, v.rint t = ⟨v.neg, q * one⟩ ∧
    2 * v.mag ≤ 2 * (q * one) + one ∧ 2 * (q * one) ≤ 2 * v.mag + one ∧
    (2 * v.mag = 2 * (q * one) + one ∨ 2 * (q * one) = 2 * v.mag + one →
      (t = .even → q % 2 = 0) ∧ (t = .away → v.mag < q * one)) := by
  have hone : 0 < one := Nat.two_pow_pos 149
  cases t with
  | even =>
    obtain ⟨hlow, hhigh, htie⟩ := roundEven_spec v.mag hone
    exact ⟨roundEven v.mag one, rfl, hlow, hhigh, fun h => ⟨fun _ => htie h, nofun⟩⟩
  | away =>
    obtain ⟨hlow, hhigh⟩ := roundAway_spec v.mag hone
    exact ⟨roundAway v.mag one, rfl, hlow.le, hhigh, fun h => ⟨nofun, fun _ => by omega⟩⟩

/-- `rint` in the terms of the signed values. -/
theorem F32.rint_nearest (t : TieRule) (a : F32) : ∃ m : Int, (a.rint t).toInt = m * 2 ^ 149 ∧
    2 * (a.toInt - m * 2 ^ 149).natAbs ≤ 2 ^ 149 ∧
    (2 * (a.toInt - m * 2 ^ 149).natAbs = 2 ^ 149 →
      (t = .even → m % 2 = 0) ∧ (t = .away → a.toInt.natAbs < (m * 2 ^ 149).natAbs)) ∧
    (a.Representable → (a.rint t).Representable) := by
  obtain ⟨q, hrint, hlow, hhigh, htie⟩ := rint_spec t a
  have hvalue : F32.toInt ⟨a.neg, q * one⟩ = F32.toInt ⟨a.neg, q⟩ * 2 ^ 149 := toInt_mk_mul _ _ _
  have hdist : (a.toInt - F32.toInt ⟨a.neg, q * one⟩).natAbs = ((a.mag : Int) - (q * one : Nat)).natAbs := by
    simpa using natAbs_toInt_sub_self a.neg a.mag (q * one) 1
  have hparity : q % 2 = 0 → F32.toInt ⟨a.neg, q⟩ % 2 = 0 := fun h => by
    cases a.neg <;> simp only [toInt_mk_false, toInt_mk_true] <;> omega
  refine ⟨F32.toInt ⟨a.neg, q⟩, hrint ▸ hvalue, ?_⟩
  rw [← hvalue, hdist, natAbs_toInt, natAbs_toInt, ← one]
  refine ⟨by omega, fun h => ?_, fun ha => hrint ▸ ha.of_within_half hlow hhigh⟩
  obtain ⟨heven, haway⟩ := htie (by omega)
  exact ⟨fun ht => hparity (heven ht), haway⟩

/-! ### The numerics record (R137) -/

/-- A whole number of steps needs no rounding. -/
theorem roundMag_mul_self {m d : Nat} (hd : 0 < d) (hm : 2 ^ (Nat.log2 m - 23) ∣ m) : roundMag (m * d) d = m := by
  rw [roundMag, Nat.mul_div_cancel m hd, Nat.mul_comm m d,
    roundEven_of_dvd (Nat.mul_pos hd (Nat.two_pow_pos _)) (Nat.mul_dvd_mul_left d hm), Nat.mul_div_mul_left m _ hd,
    Nat.div_mul_cancel hm]

/-- A binary32 value is stored as it is. -/
theorem F32.toF32_toExact {v : F32} (hv : v.Representable) : v.toExact.toF32 = v :=
  congrArg (mk v.neg) (roundMag_mul_self (Nat.two_pow_pos 149) (Nat.dvd_of_mod_eq_zero hv))

theorem numerics_eq_of_binary32 {p : Params} (hp : p.arith = .binary32) : numerics p = numerics32 p.roundTie := by
  rw [numerics, hp]

end Sys2Proof

open Sys2Proof

/-- Settles O40: every operation is one rounding of the exact magnitude with the exact sign, and the record's operations load
and store binary32 operands as themselves. -/
theorem roundingIsToNearestBinary32 : Obligations.RoundingIsToNearestBinary32 := by
  refine ⟨fun a b => ⟨a.isNearest_add b, a.isNearest_sub b, a.isNearest_mul b, a.isNearest_div⟩, Exact.isNearest_toF32,
    fun t a => ?_, fun p a b hp ha hb => ?_⟩
  · obtain ⟨m, hvalue, hnear, htie, hrep⟩ := a.rint_nearest t
    refine ⟨m, hvalue, hnear, fun h => ?_, hrep⟩
    obtain ⟨heven, haway⟩ := htie h
    cases t with
    | even => exact heven rfl
    | away => exact haway rfl
  · simp only [numerics_eq_of_binary32 hp, numerics32, F32.toF32_toExact ha, F32.toF32_toExact hb, and_self]

end

section
/-! PROOFS. The animation: its start, the worker's turns, the blocked foreground and the join (R24, R157, R158). -/

namespace Sys2Proof.Machine

/-! ### What the worker's turn and the join come to -/

/-- A worker that sees `STOP` at the top of its loop ends it. -/
theorem workerTurn_stop {s : State} (f : List Byte) (ha : s.anim = true) (hr : s.run = false) (hs : s.stop = true) :
    workerTurn f s = .next (endAnimation s) := by
  simp [workerTurn, ha, hr, hs]

/-- A worker whose update is in flight waits for it. -/
theorem workerTurn_waits {s : State} (f : List Byte) (ha : s.anim = true) (hr : s.run = true)
    (hi : s.issuer = .worker) : workerTurn f s = resume s := by
  simp [workerTurn, ha, hr, hi]

theorem presentWord_upd1 {s : State} (d : Bool) (hn : s.cfg.native = true) :
    presentWord (encode (.upd1 d)) s = exec (.upd1 d) s := by
  have hdecode : decodeHost (encode (.upd1 d)) = some (.upd1 d) := by cases d <;> rfl
  simp [presentWord, hdecode, Instr.wf, hn]

/-- Otherwise, with nothing in flight, its frame goes into `FRAME` and it issues the update. -/
theorem workerTurn_issues {s : State} {f : List Byte} (ha : s.anim = true) (hr : s.run = false) (hs : s.stop = false)
    (hf : f.length = s.cfg.samples) (hn : s.cfg.native = true) :
    workerTurn f s = exec (.upd1 false) { s with frame := Memory.ofList f, issuer := .worker } := by
  rw [← presentWord_upd1 (s := { s with frame := Memory.ofList f, issuer := .worker }) false hn]
  simp [workerTurn, ha, hr, hs, hf]

theorem joinTurn_running {s : State} (hr : s.run = true) : joinTurn s = resume s := by
  simp [joinTurn, hr]

theorem joinTurn_stop {s : State} (hr : s.run = false) (hs : s.stop = true) : joinTurn s = .next (endAnimation s) := by
  simp [joinTurn, hr, hs]

theorem joinTurn_waits {s : State} (hr : s.run = false) (hs : s.stop = false) : joinTurn s = .next s := by
  simp [joinTurn, hr, hs]

/-! ### The moves -/

theorem step_startAnim {s : State} {rest : List HostMove} (hh : s.host = .startAnim :: rest) :
    step s = .next { s with host := rest, anim := true } := by
  simp [step, hh]

theorem step_animTurn {s : State} {f : List Byte} {rest : List HostMove} (hh : s.host = .animTurn f :: rest) :
    step s = workerTurn f { s with host := rest } := by
  simp [step, hh]

theorem step_awaitRun {s : State} {rest : List HostMove} (hh : s.host = .awaitRun :: rest) :
    step s = if s.run then resume s else .next { s with host := rest } := by
  simp [step, hh]

theorem step_awaitAnim {s : State} {rest : List HostMove} (hh : s.host = .awaitAnim :: rest) :
    step s = if s.anim then joinTurn s else .next { s with host := rest } := by
  simp [step, hh]

end Sys2Proof.Machine

open Sys2Proof Sys2Proof.Machine

/-- Settles O48: each move is one test after the other of `ANIM`, `RUN` and `STOP`. -/
theorem animationTurn : Obligations.AnimationTurn := by
  refine ⟨fun s rest hh => step_startAnim hh, fun s f rest hh ha => ?_, fun s rest hh => ?_, fun s rest hh => ?_⟩
  · rw [step_animTurn hh]
    exact ⟨fun hr hs => workerTurn_stop f ha hr hs, fun hr hs hf hn => workerTurn_issues ha hr hs hf hn,
      fun hr hi => workerTurn_waits f ha hr hi⟩
  · rw [step_awaitRun hh]
    exact ⟨fun hr => if_pos hr, fun hr => by simp [hr]⟩
  · rw [step_awaitAnim hh]
    refine ⟨fun ha => by simp [ha], fun ha hr => ?_, fun ha hr hs => ?_, fun ha hr hs => ?_⟩
    · rw [if_pos ha, joinTurn_running hr]
    · rw [if_pos ha, joinTurn_stop hr hs, endAnimation]
    · rw [if_pos ha, joinTurn_waits hr hs]

end

section
/-! PROOFS. The two updates and `clear` on a good transport: each is led through its inner operations to its commit
(R151 to R155). -/

namespace Sys2Proof.Machine

/-- The answers of the busy oracle, asked of a state that differs elsewhere. -/
theorem State.busyFor.congr {s t : State} {ns : List Nat} (h : s.busyFor ns) (hb : t.busyIn = s.busyIn)
    (hr : t.busyRest = s.busyRest) (hc : t.cfg = s.cfg) : t.busyFor ns :=
  s.answersFrom_drop t 0 0 ns (by simpa using hb) hr hc h

theorem State.busyFor.first {s : State} {n : Nat} {ns : List Nat} (h : s.busyFor (n :: ns)) : s.busyFor [n] :=
  State.busyFor_head h rfl rfl rfl

/-- A stretch that no poll of which finds the panel busy, and then another. -/
theorem Leads.andThen {k : Nat} {ms ns : List Micro} {s t u : State} (h : Leads 0 ms s t) (h' : Leads k ns t u) :
    Leads k (ms ++ ns) s u := by
  simpa only [Nat.zero_add] using h.append h'

/-! ### The inner operations, called with the lines held -/

/-- `s` after a 1-bit init that leaves the Panel State `p` and sends `es`, its poll finding the panel busy `n` times. -/
def State.tuned (s : State) (p : PanelState) (es : List Event) (n : Nat) : State :=
  { s with
    dc := Config.dcData, panelState := p, fresh := true, pollElapsed := n * s.cfg.pollIntervalMs
    busyIn := s.busyIn.drop (n + 1), trace := s.trace ++ es }

/-- `s` after a transfer of the planes `a` and `b`, its poll finding the panel busy `n` times. -/
def State.shown (s : State) (q : Sequence) (a b : List Byte) (n : Nat) : State :=
  { s with
    dc := Config.dcCommand, pollElapsed := n * s.cfg.pollIntervalMs, busyIn := s.busyIn.drop (n + 1)
    trace := s.trace ++ transferEvents s.cfg q a b n }

theorem State.busyFor.tuned {s : State} {n : Nat} {ns : List Nat} (h : s.busyFor (n :: ns)) (p : PanelState)
    (es : List Event) : (s.tuned p es n).busyFor ns := State.busyFor_tail h rfl rfl rfl

theorem State.busyFor.shown {s : State} {n : Nat} {ns : List Nat} (h : s.busyFor (n :: ns)) (q : Sequence)
    (a b : List Byte) : (s.shown q a b n).busyFor ns := State.busyFor_tail h rfl rfl rfl

section
variable {s : State} {n : Nat} {ns : List Nat} (ho : s.own = true) (hx : s.transportGood) (hb : s.busyFor (n :: ns))
include ho hx hb

theorem Leads.callInitFast :
    Leads n (call (.word .initfast) initFastSteps) s (s.tuned .fast (initFastEvents s.cfg n) n) :=
  ((Leads.initFast hx hb.first).inner (.word .initfast)).to
    (by simp [State.pos, State.tuned, acquireEvents, ho])

theorem Leads.callInitPartial (hp : s.panelState ∈ partialLegal) :
    Leads n (call (.word .initpart) initPartialSteps) s (s.tuned .partialMode (initPartialEvents s.cfg n) n) :=
  (Leads.initPartial ho hp hx hb.first).inner (.word .initpart)

theorem Leads.callPicClear (hp : s.panelState ∈ oneBitPowered) :
    Leads n (call (.word .picclear) picClearSteps) s
      (s.shown .picDisplay (whitePlane s.cfg) (whitePlane s.cfg) n) :=
  (Leads.picClear ho hx hb.first hp).inner (.word .picclear)

theorem Leads.callPicDisplay {o p : List Byte} (hp : s.panelState ∈ oneBitPowered) (hold : s.oldOperand = .ok o)
    (hnew : s.plane1Operand = .ok p) :
    Leads n (call (.word .picdisp) picDisplaySteps) s (s.shown .picDisplay o p n) :=
  (Leads.transfer .picDisplay .pair oneBitPowered o p ho hx hb.first hp (fun _ => hold) fun _ => hnew).inner
    (.word .picdisp)

end

/-! ### `update_1bit` -/

/-- The panel shows 4-gray, or the last update was one (R152). -/
def State.fromGray (s : State) : Bool := s.panelState == .gray4 || s.lastMode == .fourGray

/-- The panel has no mode: before its first init, or asleep (R152). -/
def State.isDown (s : State) : Bool := s.panelState == .uninit || s.panelState == .sleeping

theorem holds_fromGray (s : State) : Cond.fromGray.holds s = s.fromGray := by
  rw [Cond.holds, Bool.decide_or]; rfl

theorem holds_isDown (s : State) : (Cond.inState [.uninit, .sleeping]).holds s = s.isDown := by
  simp only [Cond.holds, List.mem_cons, List.not_mem_nil, or_false, Bool.decide_or]; rfl

/-- The polls of `ensure_1bit()` (R152). -/
def State.ensurePolls (s : State) (a b : Nat) : List Nat :=
  if s.fromGray then [a, b] else if s.isDown then [a] else []

/-- The state after `ensure_1bit()` (R152). -/
def State.ensured1bit (s : State) (a b : Nat) : State :=
  if s.fromGray then
    { (s.tuned .fast (initFastEvents s.cfg a) a).shown .picDisplay (whitePlane s.cfg) (whitePlane s.cfg) b with
      oldValid := false }
  else if s.isDown then s.tuned .fast (initFastEvents s.cfg a) a
  else s

/-- `ensure_1bit()` takes the branch the state names. -/
theorem Leads.ensured1bit {s : State} {a b : Nat} {ns : List Nat} (ho : s.own = true) (hx : s.transportGood)
    (hb : s.busyFor (s.ensurePolls a b ++ ns)) :
    Leads (s.ensurePolls a b).sum ensure1bitSteps s (s.ensured1bit a b) ∧ (s.ensured1bit a b).busyFor ns := by
  unfold State.ensurePolls at hb ⊢
  unfold State.ensured1bit
  split_ifs at hb ⊢ with hgray hdown
  · have hinit := Leads.callInitFast ho hx hb
    have hclear := Leads.callPicClear (s := s.tuned .fast (initFastEvents s.cfg a) a) ho hx (hb.tuned _ _)
      (by simp [State.tuned, oneBitPowered])
    have hbranch := (hinit.append hclear).append (Leads.one (m := .emptyOld) rfl)
    have hrest : (Cond.inState [.uninit, .sleeping]).holds { (s.tuned .fast (initFastEvents s.cfg a) a).shown
        .picDisplay (whitePlane s.cfg) (whitePlane s.cfg) b with oldValid := false } = false := by
      simp [Cond.holds, State.shown, State.tuned]
    exact ⟨(Leads.whenTrue ((holds_fromGray s).trans hgray) hbranch).append (Leads.whenFalse hrest),
      ((hb.tuned _ _).shown .picDisplay (whitePlane s.cfg) (whitePlane s.cfg)).congr rfl rfl rfl⟩
  · have hskip : Cond.fromGray.holds s = false := by simpa [holds_fromGray] using hgray
    have hinit := Leads.whenTrue ((holds_isDown s).trans hdown) (Leads.callInitFast ho hx hb)
    exact ⟨(Leads.whenFalse hskip).andThen hinit, hb.tuned _ _⟩
  · have hskip : Cond.fromGray.holds s = false := by simpa [holds_fromGray] using hgray
    have hskip' : (Cond.inState [.uninit, .sleeping]).holds s = false := by simpa [holds_isDown] using hdown
    exact ⟨(Leads.whenFalse hskip).append (Leads.whenFalse hskip'), hb⟩

/-- The work buffer and the plane that the encoding of the frame `f` leaves (R117). -/
def State.encoded1 (s : State) (f : List Byte) (d : Bool) : State :=
  { s with work := Memory.ofList (workOf1 s.cfg f d), plane1 := Memory.ofList (encode1bit s.cfg f d) }

/-- `init_partial()` where the panel has been written since the last init (R151). -/
def State.freshened (s : State) (a : Nat) : State :=
  if s.fresh then s else s.tuned .partialMode (initPartialEvents s.cfg a) a

/-- The commit of `update_1bit` (R151). -/
def State.committed1 (s : State) (f p : List Byte) (d : Bool) : State :=
  { s with
    old := Memory.ofList p, oldValid := true, cache := Memory.ofList f, cacheValid := true, lastMode := .oneBit d
    fresh := false }

theorem Leads.freshened {s : State} {a : Nat} {ns : List Nat} (ho : s.own = true) (hx : s.transportGood)
    (hb : s.busyFor ((if s.fresh then [] else [a]) ++ ns)) (hp : s.fresh = false → s.panelState ∈ partialLegal) :
    Leads (if s.fresh then [] else [a]).sum (whenDo .notFresh (call (.word .initpart) initPartialSteps)) s
      (s.freshened a) ∧ (s.freshened a).busyFor ns := by
  unfold State.freshened
  split_ifs at hb ⊢ with hfresh
  · exact ⟨Leads.whenFalse (by simp [Cond.holds, hfresh]), hb⟩
  · have hfresh : s.fresh = false := by simpa using hfresh
    have hinit := Leads.callInitPartial ho hx hb (hp hfresh)
    exact ⟨Leads.whenTrue (by simp [Cond.holds, hfresh]) hinit, hb.tuned _ _⟩

theorem Leads.committed1 {s : State} {f p : List Byte} (d : Bool) (hp : s.plane1Operand = .ok p)
    (hf : s.frame.readAll s.cfg.samples = some f) : Leads 0 [.commit1 d] s (s.committed1 f p d) :=
  .one (by rw [Micro.run, hp, State.frameOperand_of_readAll hf]; rfl)

/-- A plane written whole by the encoder is read back (R116). -/
theorem State.plane1Operand_encoded1 (s : State) (f : List Byte) (d : Bool) :
    (s.encoded1 f d).plane1Operand = .ok (encode1bit s.cfg f d) := by
  have hread := Memory.readAll_ofList (encode1bit s.cfg f d)
  rw [encode1bit, length_pack1, ← encode1bit] at hread
  simp [State.plane1Operand, State.encoded1, hread]

theorem State.freshened_frame (s : State) (a : Nat) :
    (s.freshened a).own = s.own ∧ (s.freshened a).xferFails = s.xferFails ∧ (s.freshened a).cfg = s.cfg ∧
      (s.freshened a).frame = s.frame ∧ (s.freshened a).plane1Operand = s.plane1Operand ∧
      (s.freshened a).oldOperand = s.oldOperand := by
  unfold State.freshened
  split <;> exact ⟨rfl, rfl, rfl, rfl, rfl, rfl⟩

theorem State.freshened_powered {s : State} (a : Nat) (h : s.panelState ∈ oneBitPowered) :
    (s.freshened a).panelState ∈ oneBitPowered := by
  unfold State.freshened
  split
  · exact h
  · simp [State.tuned, oneBitPowered]

/-- `update_1bit` of the frame `f` from where `ensure_1bit()` has come to, with the old plane `o`. -/
def State.refreshed1 (s : State) (f o : List Byte) (d : Bool) (a n : Nat) : State :=
  (((s.encoded1 f d).freshened a).shown .picDisplay o (encode1bit s.cfg f d) n).committed1 f (encode1bit s.cfg f d) d

theorem State.refreshed1_eq (s : State) (f o : List Byte) (d : Bool) (a n : Nat) :
    s.refreshed1 f o d a n = { s with
      work := Memory.ofList (workOf1 s.cfg f d), plane1 := Memory.ofList (encode1bit s.cfg f d)
      old := Memory.ofList (encode1bit s.cfg f d), oldValid := true
      cache := Memory.ofList f, cacheValid := true
      lastMode := .oneBit d, fresh := false
      panelState := if s.fresh then s.panelState else .partialMode
      dc := Config.dcCommand
      pollElapsed := n * s.cfg.pollIntervalMs
      busyIn := s.busyIn.drop ((if s.fresh then 0 else a + 1) + (n + 1))
      trace := s.trace ++ (if s.fresh then [] else initPartialEvents s.cfg a) ++
        transferEvents s.cfg .picDisplay o (encode1bit s.cfg f d) n } := by
  cases hfresh : s.fresh <;>
    simp [State.refreshed1, State.encoded1, State.freshened, State.shown, State.tuned, State.committed1, hfresh]

theorem Leads.refreshed1 {s : State} {f o : List Byte} {d : Bool} {a n : Nat} (ho : s.own = true)
    (hx : s.transportGood) (hb : s.busyFor ((if s.fresh then [] else [a]) ++ [n]))
    (hlegal : s.panelState ∈ oneBitPowered) (hp : s.fresh = false → s.panelState ∈ partialLegal)
    (hf : s.frame.readAll s.cfg.samples = some f) (hold : s.oldOperand = .ok o) :
    Leads ((if s.fresh then [] else [a]).sum + n) ([.encode1 d] ++
      whenDo .notFresh (call (.word .initpart) initPartialSteps) ++ call (.word .picdisp) picDisplaySteps ++
      [.commit1 d])
      s (s.refreshed1 f o d a n) := by
  have hencode : Leads 0 [.encode1 d] s (s.encoded1 f d) := .one (Micro.run_encode1 hf d)
  obtain ⟨hpart, hbn⟩ := Leads.freshened (s := s.encoded1 f d) (ns := [n]) ho hx (hb.congr rfl rfl rfl) hp
  obtain ⟨hown, hfails, hcfg, hframe, hplane, hkept⟩ := (s.encoded1 f d).freshened_frame a
  rw [s.plane1Operand_encoded1] at hplane
  have hshow := Leads.callPicDisplay (hown.trans ho) (hfails.trans hx) hbn (State.freshened_powered a hlegal)
    (hkept.trans hold) hplane
  have hcommit := Leads.committed1 (s := ((s.encoded1 f d).freshened a).shown .picDisplay o (encode1bit s.cfg f d) n) d
    hplane (by rw [← hf]; exact congrArg₂ (fun m p => m.readAll p.samples) hframe hcfg)
  exact ((hencode.andThen hpart).append hshow).append hcommit

/-- The polls of `update_1bit`: those of `ensure_1bit()`, that of `init_partial()` where it is needed, that of the
refresh (R151, R152). -/
def State.polls1 (s : State) (a b n : Nat) : List Nat :=
  (if s.fromGray then [a, b] else if s.isDown || !s.fresh then [a] else []) ++ [n]

theorem State.polls1_eq (s : State) (a b n : Nat) :
    s.polls1 a b n = s.ensurePolls a b ++ ((if (s.ensured1bit a b).fresh then [] else [a]) ++ [n]) := by
  unfold State.polls1 State.ensurePolls State.ensured1bit
  split
  · rfl
  · cases s.isDown <;> cases hf : s.fresh <;> simp [State.tuned, hf]

theorem State.ensured1bit_frame (s : State) (a b : Nat) :
    (s.ensured1bit a b).own = s.own ∧ (s.ensured1bit a b).xferFails = s.xferFails ∧
      (s.ensured1bit a b).frame = s.frame ∧ (s.ensured1bit a b).cfg = s.cfg := by
  unfold State.ensured1bit
  split_ifs <;> exact ⟨rfl, rfl, rfl, rfl⟩

/-- After `ensure_1bit()` the panel is 1-bit powered, and where a change stands since the last init, `init_partial()` is
legal. -/
theorem State.ensured1bit_powered {s : State} (a b : Nat) (hd : s.panelState ≠ .deinit)
    (hfull : s.panelState = .full → s.fresh = true ∨ s.lastMode = .fourGray) :
    (s.ensured1bit a b).panelState ∈ oneBitPowered ∧
      ((s.ensured1bit a b).fresh = false → (s.ensured1bit a b).panelState ∈ partialLegal) := by
  unfold State.ensured1bit
  split_ifs with hgray hdown
  · exact ⟨by simp [State.shown, State.tuned, oneBitPowered], by simp [State.shown, State.tuned]⟩
  · exact ⟨by simp [State.tuned, oneBitPowered], by simp [State.tuned]⟩
  · simp only [State.fromGray, State.isDown, Bool.or_eq_true, beq_iff_eq, not_or] at hgray hdown
    cases hp : s.panelState <;> simp_all [oneBitPowered, partialLegal]

/-- The old plane after `ensure_1bit()`: none from 4-gray, else the retained one (R15, R152). -/
theorem State.oldOperand_ensured1bit {s : State} {o : List Byte} (a b : Nat)
    (hold : s.oldValid = true → s.fromGray = false → s.old.readAll s.cfg.plane1Bytes = some o)
    (hwhite : s.oldValid = false ∨ s.fromGray = true → o = whitePlane s.cfg) :
    (s.ensured1bit a b).oldOperand = .ok o := by
  unfold State.ensured1bit
  split_ifs with hgray hdown
  · rw [hwhite (.inr hgray)]; rfl
  all_goals
    exact DataSource.bytes_oldPlane (s := s) (fun hv => hold hv (by simpa using hgray)) fun hv => hwhite (.inl hv)

theorem Leads.updated1 {s : State} {f o : List Byte} {d : Bool} {a b n : Nat} (ho : s.own = true)
    (hd : s.panelState ≠ .deinit) (hfull : s.panelState = .full → s.fresh = true ∨ s.lastMode = .fourGray)
    (hx : s.transportGood) (hb : s.busyFor (s.polls1 a b n)) (hf : s.frame.readAll s.cfg.samples = some f)
    (hold : s.oldValid = true → s.fromGray = false → s.old.readAll s.cfg.plane1Bytes = some o)
    (hwhite : s.oldValid = false ∨ s.fromGray = true → o = whitePlane s.cfg) :
    Leads (s.polls1 a b n).sum (update1Steps d) s ((s.ensured1bit a b).refreshed1 f o d a n) := by
  rw [s.polls1_eq] at hb ⊢
  obtain ⟨hensure, hbn⟩ := Leads.ensured1bit ho hx hb
  obtain ⟨hown, hfails, hframe, hcfg⟩ := s.ensured1bit_frame a b
  obtain ⟨hpowered, hpartial⟩ := State.ensured1bit_powered a b hd hfull
  have hrest := Leads.refreshed1 (d := d) (hown.trans ho) (hfails.trans hx) hbn hpowered hpartial
    (by rw [hframe, hcfg, hf]) (State.oldOperand_ensured1bit a b hold hwhite)
  have hlead := ((Leads.need (mem_notDeinit hd)).andThen (hensure.inner .ensure1bit)).append hrest
  simpa only [update1Steps, List.sum_append, List.append_assoc, List.sum_cons, List.sum_nil, Nat.add_zero] using hlead

/-! ### `update_4bit` -/

/-- `init_4gray()` called (R86). -/
def State.grayed (s : State) (n : Nat) : State :=
  { s with
    own := true, rst := true, dc := Config.dcCommand, panelState := .gray4, fresh := false
    pollElapsed := n * s.cfg.pollIntervalMs, busyIn := s.busyIn.drop (n + 1)
    trace := s.trace ++ acquireEvents s ++ init4grayEvents s.cfg n }

/-- `sleep()` called (R88). -/
def State.slept (s : State) (n : Nat) : State :=
  { s with
    dc := Config.dcData, panelState := .sleeping, fresh := false, pollElapsed := n * s.cfg.pollIntervalMs
    busyIn := s.busyIn.drop (n + 1), trace := s.trace ++ sleepEvents s.cfg n }

/-- The work buffer and the plane that the 4-gray encoding of the frame `f` leaves (R118). -/
def State.encoded4 (s : State) (f : List Byte) : State :=
  { s with work := Memory.ofList (workOf4 s.cfg f), plane2 := Memory.ofList (encode4gray s.cfg f) }

theorem State.plane2Operand_encoded4 (s : State) (f : List Byte) :
    (s.encoded4 f).plane2Operand = .ok (encode4gray s.cfg f) := by
  have hread := Memory.readAll_ofList (encode4gray s.cfg f)
  rw [encode4gray, length_pack2, ← encode4gray] at hread
  simp [State.plane2Operand, State.encoded4, hread]

/-- The commit of `update_4bit` (R153). -/
def State.committed4 (s : State) (f : List Byte) : State :=
  { s with cache := Memory.ofList f, cacheValid := true, lastMode := .fourGray }

theorem Micro.run_commit4 {s : State} {f : List Byte} (hf : s.frame.readAll s.cfg.samples = some f) :
    Micro.commit4.run s = .ok (s.committed4 f) := by
  rw [Micro.run, State.frameOperand_of_readAll hf]; rfl

theorem Leads.callSleep {s : State} {n : Nat} {ns : List Nat} (ho : s.own = true) (hx : s.transportGood)
    (hb : s.busyFor (n :: ns)) (hp : s.panelState ∈ anyPowered) :
    Leads n (call (.word .sleep) sleepSteps) s (s.slept n) :=
  (Leads.sleep ho hp hx hb.first).inner (.word .sleep)

theorem Leads.callPicDisplay4g {s : State} {n : Nat} {ns : List Nat} {g : List Byte} (ho : s.own = true)
    (hx : s.transportGood) (hb : s.busyFor (n :: ns)) (hp : s.panelState = .gray4) (hg : s.plane2Operand = .ok g) :
    Leads n (call (.word .picdisp4g) picDisplay4gSteps) s
      (s.shown .picDisplay4g (split4 s.cfg g).1 (split4 s.cfg g).2 n) :=
  (Leads.transfer .picDisplay4g .gray grayLegal _ _ ho hx hb.first (by simp [hp, grayLegal])
    (fun _ => by rw [DataSource.bytes_log, oldDataSource, DataSource.bytes, hg]; rfl)
    (fun _ => by rw [DataSource.bytes_log, newDataSource, DataSource.bytes, hg]; rfl)).inner (.word .picdisp4g)

/-- The state `update_4bit` of the frame `f` comes to (R153). -/
def State.updated4 (s : State) (f : List Byte) (a b c : Nat) : State :=
  let halves := split4 s.cfg (encode4gray s.cfg f)
  ((((s.grayed a).encoded4 f).shown .picDisplay4g halves.1 halves.2 b).slept c).committed4 f

theorem Leads.updated4 {s : State} {f : List Byte} {a b c : Nat} (hd : s.panelState ≠ .deinit) (hx : s.transportGood)
    (hb : s.busyFor [a, b, c]) (hf : s.frame.readAll s.cfg.samples = some f) :
    Leads (a + b + c) update4Steps s (s.updated4 f a b c) := by
  let halves := split4 s.cfg (encode4gray s.cfg f)
  let u := (s.grayed a).encoded4 f
  let v := u.shown .picDisplay4g halves.1 halves.2 b
  have hbu : u.busyFor [b, c] := State.busyFor_tail hb rfl rfl rfl
  have hinit : Leads a (call (.word .init4g) init4graySteps) s (s.grayed a) :=
    (Leads.init4gray hx hb.first).inner (.word .init4g)
  have hencode : Leads 0 [.encode4] (s.grayed a) u := .one (Micro.run_encode4 hf)
  have hshow : Leads b (call (.word .picdisp4g) picDisplay4gSteps) u v :=
    Leads.callPicDisplay4g rfl hx hbu rfl ((s.grayed a).plane2Operand_encoded4 f)
  have hpowered : v.panelState ∈ anyPowered := List.mem_of_elem_eq_true (a := PanelState.gray4) rfl
  have hsleep : Leads c (call (.word .sleep) sleepSteps) v (v.slept c) :=
    Leads.callSleep rfl hx (hbu.shown _ _ _) hpowered
  have hcommit : Leads 0 [.commit4] (v.slept c) (s.updated4 f a b c) := .one (Micro.run_commit4 (s := v.slept c) hf)
  exact (((((Leads.need (mem_notDeinit hd)).andThen hinit).append hencode).append hshow).append hsleep).append hcommit

/-! ### `clear` -/

/-- The panel has a 1-bit mode (R18). -/
def State.powered1bit (s : State) : Bool :=
  s.panelState == .fast || s.panelState == .full || s.panelState == .partialMode

theorem State.powered1bit_iff (s : State) : s.powered1bit = true ↔ s.panelState ∈ oneBitPowered := by
  simp [State.powered1bit, oneBitPowered, or_assoc]

/-- `init_fast()` where the panel has no 1-bit mode (R155). -/
def State.poweredUp (s : State) (a : Nat) : State :=
  if s.powered1bit then s else s.tuned .fast (initFastEvents s.cfg a) a

/-- The polls of `clear` (R155). -/
def State.clearPolls (s : State) (p : Bool) (a n c : Nat) : List Nat :=
  (if s.powered1bit then [] else [a]) ++ [n] ++ (if p then [c] else [])

/-- `sleep()` where it is asked for (R155). -/
def State.sleptIf (s : State) (p : Bool) (c : Nat) : State := if p then s.slept c else s

/-- The commit of `clear` (R155). -/
def State.committedClear (s : State) : State :=
  { s with
    oldValid := false, cache := Memory.ofList (whiteFrame s.cfg), cacheValid := true, lastMode := .oneBit false }

/-- The state `clear(power_off)` comes to (R155). -/
def State.cleared (s : State) (p : Bool) (a n c : Nat) : State :=
  (((s.poweredUp a).shown .picDisplay (whitePlane s.cfg) (whitePlane s.cfg) n).sleptIf p c).committedClear

theorem Leads.poweredUp {s : State} {a : Nat} {ns : List Nat} (ho : s.own = true) (hx : s.transportGood)
    (hb : s.busyFor ((if s.powered1bit then [] else [a]) ++ ns)) :
    Leads (if s.powered1bit then [] else [a]).sum
      (whenDo (.notInState oneBitPowered) (call (.word .initfast) initFastSteps)) s (s.poweredUp a) ∧
      (s.poweredUp a).busyFor ns ∧ (s.poweredUp a).panelState ∈ oneBitPowered := by
  unfold State.poweredUp
  split_ifs at hb ⊢ with hp
  · have hin := s.powered1bit_iff.1 hp
    exact ⟨Leads.whenFalse (by simp [Cond.holds, hin]), hb, hin⟩
  · have hout := mt s.powered1bit_iff.2 hp
    exact ⟨Leads.whenTrue (by simp [Cond.holds, hout]) (Leads.callInitFast ho hx hb), hb.tuned _ _,
      by simp [State.tuned, oneBitPowered]⟩

theorem Leads.sleptIf {s : State} {p : Bool} {c : Nat} (ho : s.own = true) (hx : s.transportGood)
    (hb : s.busyFor (if p then [c] else [])) (hp : s.panelState ∈ anyPowered) :
    Leads (if p then [c] else []).sum (if p then call (.word .sleep) sleepSteps else []) s (s.sleptIf p c) := by
  cases p with
  | true => exact Leads.callSleep ho hx hb hp
  | false => exact .nil s

theorem State.poweredUp_frame (s : State) (a : Nat) : (s.poweredUp a).own = s.own ∧
    (s.poweredUp a).xferFails = s.xferFails ∧ (s.poweredUp a).cfg = s.cfg := by
  unfold State.poweredUp
  split <;> exact ⟨rfl, rfl, rfl⟩

theorem mem_anyPowered {p : PanelState} (h : p ∈ oneBitPowered) : p ∈ anyPowered := by
  revert h; cases p <;> decide

theorem Leads.cleared {s : State} {p : Bool} {a n c : Nat} (hd : s.panelState ≠ .deinit) (ho : s.own = true)
    (hx : s.transportGood) (hb : s.busyFor (s.clearPolls p a n c)) :
    Leads (s.clearPolls p a n c).sum (clearSteps p) s (s.cleared p a n c) := by
  unfold State.clearPolls at hb ⊢
  rw [List.append_assoc] at hb
  obtain ⟨hinit, hbn, hpowered⟩ := Leads.poweredUp ho hx hb
  obtain ⟨hown, hfails, hcfg⟩ := s.poweredUp_frame a
  have hshow := Leads.callPicClear (hown.trans ho) (hfails.trans hx) hbn hpowered
  rw [hcfg] at hshow
  have hsleep := Leads.sleptIf (s := (s.poweredUp a).shown .picDisplay (whitePlane s.cfg) (whitePlane s.cfg) n)
    (hown.trans ho) (hfails.trans hx) (hbn.shown _ _ _) (mem_anyPowered hpowered)
  have hcommit : Leads 0 [.commitClear] _ (s.cleared p a n c) := .one rfl
  have hlead := ((((Leads.need (mem_notDeinit hd)).andThen hinit).append hshow).append hsleep).append hcommit
  simpa only [clearSteps, List.sum_append, List.sum_cons, List.sum_nil, Nat.add_zero] using hlead

end Sys2Proof.Machine

open Sys2Proof Sys2Proof.Machine

/-- Settles O41: its steps lead through `ensure_1bit()`, the encoding and the refresh to the commit. -/
theorem update1bitResult : Obligations.Update1bitResult := by
  intro s f o d a b n gray down plane white ns hr ho hd hfull hx hb hf hold hwhite t
  have hlead := Leads.updated1 (s := s.accept (.upd1 d)) (d := d) ho hd hfull hx (hb.congr rfl rfl rfl) hf hold hwhite
  refine exec_completes rfl hr hlead ?_
  have hgray : (s.accept (.upd1 d)).fromGray = gray := rfl
  have hdown : (s.accept (.upd1 d)).isDown = down := rfl
  simp only [t, ns, plane, white, State.refreshed1_eq, State.ensured1bit, hgray, hdown]
  cases gray
  case true => simp [State.shown, State.tuned, State.complete, whitePlane]; omega
  case false =>
    cases down
    case true => simp [State.tuned, State.complete]; omega
    case false =>
      cases hfresh : s.fresh
      case true => simp [State.complete, hfresh]
      case false => simp [State.complete, hfresh]; omega

/-- Settles O42: its steps lead through `init_4gray()`, the encoding, the transfer of the two halves and `sleep()`
to the commit. -/
theorem update4bitResult : Obligations.Update4bitResult := by
  intro s f a b c hr hd hx hb hf
  refine exec_completes rfl hr (Leads.updated4 (s := s.accept .upd4) hd hx (hb.congr rfl rfl rfl) hf) ?_
  have hacquire : acquireEvents (s.accept .upd4) = acquireEvents s := rfl
  simp [State.updated4, State.grayed, State.encoded4, State.shown, State.slept, State.committed4, State.complete,
    hacquire]
  omega

/-- Settles O43: its steps lead through `init_fast()` where the panel is not powered, the white pair, and `sleep()`
where it is asked for, to the commit. -/
theorem clearResult : Obligations.ClearResult := by
  intro s p a n c powered white ns hr hd ho hx hb t
  refine exec_completes rfl hr (Leads.cleared (s := s.accept (.clear p)) hd ho hx (hb.congr rfl rfl rfl)) ?_
  have hpowered : (s.accept (.clear p)).powered1bit = powered := rfl
  simp only [t, ns, white, State.cleared, State.poweredUp, hpowered]
  cases powered <;> cases p
  all_goals
    simp [State.sleptIf, State.shown, State.tuned, State.slept, State.committedClear, State.complete, whitePlane,
      whiteFrame] <;> omega

end

section
/-! PROOFS. How an operation ends: from where its run ends at rest, the stretch that led there, whatever the oracles
answer and wherever the operation stands inside another (R29, R95, R215). -/

namespace Sys2Proof.Machine

/-! ### A stretch read backwards -/

/-- No condition of a list skips more steps than stand behind it. -/
def skipsFit : List Micro → Bool
  | [] => true
  | .skipUnless _ k :: ms => decide (k ≤ ms.length) && skipsFit ms
  | _ :: ms => skipsFit ms

theorem skipsFit_of_cons {m : Micro} {ms : List Micro} (h : skipsFit (m :: ms) = true) : skipsFit ms = true := by
  cases m <;> simp_all [skipsFit]

theorem skipsFit_drop {ms : List Micro} (h : skipsFit ms = true) (j : Nat) : skipsFit (ms.drop j) = true := by
  induction ms generalizing j with
  | nil => simpa using h
  | cons m ms ih =>
    cases j with
    | zero => exact h
    | succ j => exact ih (skipsFit_of_cons h) j

theorem le_length_of_skip {m : Micro} {ms : List Micro} {s t : State} {j : Nat} (h : skipsFit (m :: ms) = true)
    (hm : m.run s = .skip j t) : j ≤ ms.length := by
  obtain ⟨c, rfl⟩ := Micro.skipUnless_of_skip hm
  simp only [skipsFit, Bool.and_eq_true, decide_eq_true_eq] at h
  exact h.1

theorem skipsFit_program (i : Instr) : skipsFit (program i) = true :=
  forall_of_allInstrs (P := fun i => skipsFit (program i)) (by decide +kernel) i

/-- The steps `ms` come from `s` to rest in `t`, completed or with an error, the panel being found busy `k` times. -/
inductive Ends : Nat → List Micro → State → State → Prop where
  | done (s : State) : Ends 0 [] s s.complete
  | raised {m : Micro} {ms : List Micro} {s u : State} {e : ErrCode} :
      m.run s = .raised e u → Ends 0 (m :: ms) s (u.errorEntry e)
  | step {k : Nat} {m : Micro} {ms : List Micro} {s t u : State} :
      m.run s = .ok t → Ends k ms t u → Ends k (m :: ms) s u
  | jump {k j : Nat} {m : Micro} {ms : List Micro} {s t u : State} :
      m.run s = .skip j t → j ≤ ms.length → Ends k (ms.drop j) t u → Ends k (m :: ms) s u
  | busy {k : Nat} {m : Micro} {ms : List Micro} {s t u : State} :
      m.run s = .wait t → Ends k (m :: ms) t u → Ends (k + 1) (m :: ms) s u

/-- A stretch that ends without an error has come to its completion. -/
theorem Ends.runs {k : Nat} {ms : List Micro} {s t : State} (h : Ends k ms s t) (he : t.err = .none) :
    ∃ u, Runs k ms s u ∧ t = u.complete := by
  induction h with
  | done s => exact ⟨s, .nil s, rfl⟩
  | raised hm => exact absurd he (Micro.ne_none_of_raised hm)
  | step hm _ ih => obtain ⟨v, hv, rfl⟩ := ih he; exact ⟨v, .step hm hv, rfl⟩
  | jump hm hj _ ih => obtain ⟨v, hv, rfl⟩ := ih he; exact ⟨v, .jump hm hj hv, rfl⟩
  | busy hm _ ih => obtain ⟨v, hv, rfl⟩ := ih he; exact ⟨v, .busy hm hv, rfl⟩

theorem Ends.after {j k : Nat} {pre ms : List Micro} {s t u : State} (h : Runs j pre s t) (h' : Ends k ms t u) :
    Ends (j + k) (pre ++ ms) s u := by
  induction h with
  | nil s => simpa using h'
  | step hm _ ih => exact .step hm (ih h')
  | jump hm hj _ ih => exact .jump hm (by simp; omega) ((List.drop_append_of_le_length (l₂ := ms) hj).symm ▸ ih h')
  | @busy j _ _ _ _ _ hm _ ih => rw [Nat.add_right_comm]; exact .busy hm (ih h')

/-- What every step keeps holds where the stretch completes; and there other steps that only move `SEQ_POS` change
nothing of its end. -/
theorem Ends.append {P : State → Prop} {k : Nat} {ms post : List Micro} {s t : State} (h : Ends k ms s t) (hs : P s)
    (keep : ∀ m ∈ ms, ∀ u, P u → (m.run u).After P) (hpost : ∀ u, P u → ∃ q, Runs 0 post u (u.pos q)) :
    Ends k (ms ++ post) s t := by
  induction h with
  | done s =>
    obtain ⟨q, hq⟩ := hpost s hs
    rw [List.nil_append, ← List.append_nil post]
    exact Ends.after hq (.done (s.pos q))
  | raised hm => exact .raised hm
  | step hm _ ih =>
    exact .step hm (ih ((keep _ List.mem_cons_self _ hs).of_ok hm) fun m hm => keep m (List.mem_cons_of_mem _ hm))
  | @jump _ j m ms _ _ _ hm hj _ ih =>
    refine .jump hm (by simp; omega) ?_
    rw [show (ms.append post).drop j = ms.drop j ++ post from List.drop_append_of_le_length hj]
    exact ih ((keep _ List.mem_cons_self _ hs).of_skip hm)
      fun m hm => keep m (List.mem_cons_of_mem _ (List.mem_of_mem_drop hm))
  | busy hm _ ih =>
    have hkept := keep _ List.mem_cons_self _ hs
    rw [hm] at hkept
    exact .busy hm (ih hkept keep)

theorem State.eq_pos {s t : State} (h : s.pos [] = t.pos []) : s = t.pos s.seqPos := by
  have hpos := congrArg (fun u : State => u.pos s.seqPos) h
  exact hpos

/-- Two outcomes of a step that agree but for `SEQ_POS` are one outcome with another `SEQ_POS`. -/
theorem Result.Alike.eq_map {r r' : Result} (h : r.Alike r') : ∃ q, r = r'.map (·.pos q) := by
  cases r <;> cases r'
  case ok.ok t u => exact ⟨t.seqPos, congrArg Result.ok (State.eq_pos h)⟩
  case skip.skip k t j u => exact ⟨t.seqPos, congrArg₂ Result.skip h.1 (State.eq_pos h.2)⟩
  case wait.wait t u => exact ⟨t.seqPos, congrArg Result.wait (State.eq_pos h)⟩
  case raised.raised e t f u => exact ⟨t.seqPos, congrArg₂ Result.raised h.1 (State.eq_pos h.2)⟩
  case fault.fault f g => exact ⟨[], congrArg Result.fault h⟩
  all_goals exact False.elim h

theorem State.errorEntry_pos (s : State) (q : List (Operation × Nat)) (e : ErrCode) :
    (s.pos q).errorEntry e = s.errorEntry e := by
  simp only [State.errorEntry, State.pos]
  cases s.saved <;> rfl

theorem State.errorEntry_at (s : State) (c : Option (Instr × Nat)) (e : ErrCode) :
    (s.at c).errorEntry e = s.errorEntry e := by
  simp only [State.errorEntry, State.at]
  cases s.saved <;> rfl

/-- A stretch begun with `SEQ_POS` elsewhere ends in the same state. -/
theorem Ends.pos {k : Nat} {ms : List Micro} {s t : State} (h : Ends k ms s t) (q : List (Operation × Nat)) :
    Ends k ms (s.pos q) t := by
  have moved : ∀ (m : Micro) (s : State) q, ∃ q', m.run (s.pos q) = (m.run s).map (·.pos q') := fun m s q =>
    (m.run_pos s q).eq_map
  induction h generalizing q with
  | done s => exact .done (s.pos q)
  | @raised m ms s u e hm =>
    obtain ⟨q', hq⟩ := moved m s q
    exact u.errorEntry_pos q' e ▸ .raised (by rw [hq, hm]; rfl)
  | @step k m ms s t u hm _ ih =>
    obtain ⟨q', hq⟩ := moved m s q
    exact .step (by rw [hq, hm]; rfl) (ih q')
  | @jump k j m ms s t u hm hj _ ih =>
    obtain ⟨q', hq⟩ := moved m s q
    exact .jump (by rw [hq, hm]; rfl) hj (ih q')
  | @busy k m ms s t u hm _ ih =>
    obtain ⟨q', hq⟩ := moved m s q
    exact .busy (by rw [hq, hm]; rfl) (ih q')

/-- A stretch begun with the cursor elsewhere ends in the same state. -/
theorem Ends.at {k : Nat} {ms : List Micro} {s t : State} (h : Ends k ms s t) (c : Option (Instr × Nat)) :
    Ends k ms (s.at c) t := by
  induction h with
  | done s => exact .done (s.at c)
  | @raised m ms s u e hm => exact u.errorEntry_at c e ▸ .raised (by rw [m.run_at, hm]; rfl)
  | @step k m ms s t u hm _ ih => exact .step (by rw [m.run_at, hm]; rfl) ih
  | @jump k j m ms s t u hm hj _ ih => exact .jump (by rw [m.run_at, hm]; rfl) hj ih
  | @busy k m ms s t u hm _ ih => exact .busy (by rw [m.run_at, hm]; rfl) ih

/-! ### A run of the machine -/

theorem thenSteps_idle {u : State} (hh : u.host = []) (hc : u.cursor = none) (k : Nat) :
    thenSteps k (.next u) = .next u := by
  induction k with
  | zero => rfl
  | succ k ih =>
    rw [thenSteps_succ]
    simpa [step, hh, resume, hc] using ih

theorem step_at {i : Instr} {ms : List Micro} {n : Nat} {s : State} (hp : (program i).drop n = ms) (hh : s.host = []) :
    step (s.at (some (i, n))) = runMicros i ms n 0 s := by
  have hstep : step (s.at (some (i, n))) = runMicros i ((program i).drop n) n 0 (s.at (some (i, n))) := by
    simp [step, resume, State.at, hh]
  rw [hstep, hp, runMicros_at]

theorem State.host_errorEntry_of_raised {m : Micro} {s u : State} {e : ErrCode} (hm : m.run s = .raised e u) :
    (u.errorEntry e).host = s.host := by
  have hframe := m.run_frame s
  rw [hm] at hframe
  obtain ⟨-, -, -, -, -, -, -, -, hhost, -⟩ := hframe
  simpa using hhost

theorem drop_succ_of_drop {i : Instr} {m : Micro} {ms : List Micro} {n : Nat} (hp : (program i).drop n = m :: ms) :
    (program i).drop (n + 1) = ms := by
  simpa using congrArg (List.drop 1) hp

/-- With nothing scheduled, or in the one step that issues it, an operation whose run ends has ended. -/
theorem Ends.thenSteps {i : Instr} {j k n : Nat} {ms : List Micro} {s t : State} (h : Ends j ms s t) (hj : j ≤ k)
    (hp : (program i).drop n = ms) (hh : k = 0 ∨ s.host = []) : thenSteps k (runMicros i ms n 0 s) = .next t := by
  have rest : ∀ {u : State} k, u.cursor = none → k = 0 ∨ u.host = [] → Machine.thenSteps k (.next u) = .next u := by
    rintro u k hc (rfl | hh)
    · rfl
    · exact thenSteps_idle hh hc k
  induction h generalizing n k with
  | done s => exact rest k rfl hh
  | raised hm =>
    rw [runMicros_raised i _ n hm]
    exact rest k rfl (hh.imp_right fun h => (State.host_errorEntry_of_raised hm).trans h)
  | step hm _ ih =>
    rw [runMicros_ok i _ n hm]
    exact ih hj (drop_succ_of_drop hp) (hh.imp_right fun h => (Micro.host_of_run (.inl hm)).trans h)
  | @jump _ a m ms s t u hm hle _ ih =>
    have hskip : runMicros i (m :: ms) n 0 s = runMicros i ms (n + 1) a t := by simp [runMicros, hm]
    rw [hskip, runMicros_skip i _ _ _ _ hle]
    refine ih hj ?_ (hh.imp_right fun h => (Micro.host_of_run (.inr (.inl ⟨a, hm⟩))).trans h)
    rw [← List.drop_drop, drop_succ_of_drop hp]
  | busy hm _ ih =>
    obtain ⟨k, rfl⟩ := Nat.exists_eq_add_of_le' (Nat.le_trans (Nat.le_add_left 1 _) hj)
    have hhost := (Micro.host_of_run (.inr (.inr hm))).trans (hh.resolve_left (by omega))
    rw [runMicros_wait i _ n hm, thenSteps_succ, step_at hp hhost]
    exact ih (by omega) hp (.inr hhost)

/-- The other way round: where a run of the machine has come to rest, the operation has ended. -/
theorem ends_of_thenSteps {i : Instr} {k n : Nat} {ms : List Micro} {s t : State} (hfit : skipsFit ms = true)
    (hp : (program i).drop n = ms) (hh : k = 0 ∨ s.host = []) (hr : s.run = true)
    (h : thenSteps k (runMicros i ms n 0 s) = .next t) (ht : t.run = false) : ∃ j ≤ k, Ends j ms s t := by
  induction k using Nat.strong_induction_on generalizing n ms s with | _ k earlier =>
  induction hl : ms.length using Nat.strong_induction_on generalizing n ms s with | _ l shorter =>
  subst hl
  have rest : ∀ {u : State}, u.cursor = none → k = 0 ∨ u.host = [] → thenSteps k (.next u) = .next t → u = t := by
    rintro u hc (rfl | hh) hu
    · simpa [thenSteps] using hu
    · simpa [thenSteps_idle hh hc k] using hu
  cases ms with
  | nil => exact ⟨0, k.zero_le, rest (u := s.complete) rfl hh h ▸ .done s⟩
  | cons m ms =>
    have hacc := m.run_keeps_acceptance s
    have hsched : ∀ {u}, m.run s = .ok u ∨ (∃ a, m.run s = .skip a u) ∨ m.run s = .wait u → k = 0 ∨ u.host = [] :=
      fun hm => hh.imp_right (Micro.host_of_run hm).trans
    cases hm : m.run s with
    | ok u =>
      rw [runMicros_ok i ms n hm] at h
      rw [hm] at hacc
      obtain ⟨j, hj, hends⟩ := shorter ms.length (by simp) (skipsFit_of_cons hfit) (drop_succ_of_drop hp)
        (hsched (.inl hm)) (hacc.1.trans hr) h rfl
      exact ⟨j, hj, .step hm hends⟩
    | skip a u =>
      have hle := le_length_of_skip hfit hm
      have hskip : runMicros i (m :: ms) n 0 s = runMicros i ms (n + 1) a u := by simp [runMicros, hm]
      rw [hskip, runMicros_skip i _ _ _ _ hle] at h
      rw [hm] at hacc
      obtain ⟨j, hj, hends⟩ := shorter (ms.drop a).length (by simp) (skipsFit_drop (skipsFit_of_cons hfit) a)
        (by rw [← List.drop_drop, drop_succ_of_drop hp]) (hsched (.inr (.inl ⟨a, hm⟩))) (hacc.1.trans hr) h rfl
      exact ⟨j, hj, .jump hm hle hends⟩
    | wait u =>
      rw [runMicros_wait i ms n hm] at h
      rw [hm] at hacc
      have hrun : u.run = true := hacc.1.trans hr
      cases k with
      | zero => cases h; simp [State.at, hrun] at ht
      | succ k =>
        have hhost : u.host = [] := (hsched (.inr (.inr hm))).resolve_left (by omega)
        rw [thenSteps_succ, step_at hp hhost] at h
        obtain ⟨j, hj, hends⟩ := earlier k k.lt_succ_self hfit hp (.inr hhost) hrun h
        exact ⟨j + 1, by omega, .busy hm hends⟩
    | raised e u =>
      rw [runMicros_raised i ms n hm] at h
      have hhost := hh.imp_right (State.host_errorEntry_of_raised hm).trans
      exact ⟨0, k.zero_le, rest rfl hhost h ▸ .raised hm⟩
    | fault f => rw [runMicros_fault i ms n hm] at h; cases k <;> cases h

section
variable {i : Instr} {k : Nat} {s t : State} (hi : i.format = .host) (hr : s.run = false) (hh : k = 0 ∨ s.host = [])
include hi hr hh

/-- An accepted operation that has come to rest after `k` more steps has ended, with at most as many busy turns. -/
theorem ends_of_exec (h : thenSteps k (exec i s) = .next t) (ht : t.run = false) :
    ∃ j ≤ k, Ends j (program i) (s.accept i) t := by
  rw [exec_idle i s hi hr] at h
  exact ends_of_thenSteps (skipsFit_program i) rfl hh rfl h ht

/-- An accepted operation whose run ends has come to rest after as many more steps as the panel is found busy. -/
theorem Ends.exec {j : Nat} (h : Ends j (program i) (s.accept i) t) (hj : j ≤ k) :
    Machine.thenSteps k (Machine.exec i s) = .next t := by
  rw [exec_idle i s hi hr]
  exact h.thenSteps hj rfl hh

end

/-! ### `reflush()` -/

/-- The update that `LAST_MODE` names (R156). -/
def LastMode.update : LastMode → Option Instr
  | .none => Option.none
  | .oneBit d => some (.upd1 d)
  | .fourGray => some .upd4

/-- The steps that leave `LAST_MODE` alone or write this mode. -/
def Micro.writesMode (m : LastMode) : Micro → Bool
  | .commit1 d => m == .oneBit d
  | .commit4 => m == .fourGray
  | .commitClear => m == .oneBit false
  | _ => true

theorem Micro.run_keeps_mode {m : LastMode} {x : Micro} (hx : x.writesMode m = true) {s : State} (hs : s.lastMode = m) :
    (x.run s).After fun t => t.lastMode = m := by
  by_cases hw : .cache ∈ x.written
  · cases x <;> simp only [Micro.written, List.mem_cons, List.not_mem_nil, reduceCtorEq, or_false, or_self] at hw
    case commit1 d => exact .withOperand fun _ _ => .withOperand fun _ _ => (eq_of_beq hx).symm
    case commit4 => exact .withOperand fun _ _ => (eq_of_beq hx).symm
    case commitClear => exact (eq_of_beq hx).symm
  · exact (x.run_keeps .cache hw s).mono fun t ⟨_, _, hmode⟩ => hmode.trans hs

theorem writesMode_update {m : LastMode} {i : Instr} (h : m.update = some i) :
    ∀ x ∈ program i, x.writesMode m = true := by
  have all : (program i).all (Micro.writesMode m) = true := by
    cases m with
    | none => cases h
    | oneBit d => cases h; cases d <;> decide +kernel
    | fourGray => cases h; decide +kernel
  simpa using all

/-- The test of `LAST_MODE` and the call of one of the updates. -/
def reflushPart (m : LastMode) (i : Instr) : List Micro := whenDo (.lastMode m) (call (.word i) (program i))

theorem reflushSteps_eq_parts : reflushSteps = [.needCache, .cacheToFrame] ++ reflushPart .fourGray .upd4 ++
    reflushPart (.oneBit false) (.upd1 false) ++ reflushPart (.oneBit true) (.upd1 true) := rfl

theorem Leads.reflushPart_skipped {s : State} {m : LastMode} (i : Instr) (h : s.lastMode ≠ m) :
    Leads 0 (reflushPart m i) s s := Leads.whenFalse (by simp [Cond.holds, h])

/-- The part that is taken: the test, the update's own steps, the return. -/
theorem reflushPart_eq (m : LastMode) (i : Instr) : ∃ head, reflushPart m i = head ++ program i ++ [.leave] ∧
    ∀ s : State, s.lastMode = m → Leads 0 head s s := by
  refine ⟨[.skipUnless (.lastMode m) (call (.word i) (program i)).length, .enter (.word i)], rfl, fun s hs => ?_⟩
  have htest : Leads 0 [.skipUnless (.lastMode m) (call (.word i) (program i)).length] s s :=
    .one (by simp [Micro.run, Cond.holds, hs])
  exact htest.andThen ((Leads.one (m := .enter (.word i)) (s := s) rfl).to rfl)

theorem Leads.leave (s : State) : Leads 0 [.leave] s s := (Leads.one (m := .leave) (s := s) rfl).to rfl

theorem Leads.takeCache {s : State} {f : List Byte} (hv : s.cacheValid = true)
    (hf : s.cache.readAll s.cfg.samples = some f) :
    Leads 0 [.needCache, .cacheToFrame] s { s with frame := Memory.ofList f } :=
  (Leads.one (m := .needCache) (t := s) (by simp [Micro.run, hv])).andThen
    (Leads.one (m := .cacheToFrame) (s := s) (by simp [Micro.run, State.cacheOperand, hf, withOperand]))

/-- `reflush()` is a head that takes the cached frame, the update that `LAST_MODE` names, and parts not taken. -/
theorem reflushSteps_eq {m : LastMode} {i : Instr} (h : m.update = some i) :
    ∃ pre post, reflushSteps = pre ++ (program i ++ post) ∧
      (∀ (s : State) (f : List Byte), s.cacheValid = true → s.cache.readAll s.cfg.samples = some f → s.lastMode = m →
        Leads 0 pre s { s with frame := Memory.ofList f }) ∧
      ∀ s : State, s.lastMode = m → Leads 0 post s s := by
  obtain ⟨head, hpart, hhead⟩ := reflushPart_eq m i
  have skip : ∀ {s : State} (m' : LastMode) (j : Instr), s.lastMode = m → m ≠ m' → Leads 0 (reflushPart m' j) s s :=
    fun m' j hs hm => Leads.reflushPart_skipped j (hs ▸ hm)
  rw [reflushSteps_eq_parts]
  cases m with
  | none => cases h
  | fourGray =>
    cases h
    refine ⟨[.needCache, .cacheToFrame] ++ head, [.leave] ++
      (reflushPart (.oneBit false) (.upd1 false) ++ reflushPart (.oneBit true) (.upd1 true)), by simp [hpart],
      fun s f hv hf hs => (Leads.takeCache hv hf).andThen (hhead _ hs), fun s hs => ?_⟩
    exact (Leads.leave s).andThen ((skip _ _ hs (by decide)).andThen (skip _ _ hs (by decide)))
  | oneBit d =>
    cases h
    cases d
    case false =>
      have hreach : ∀ s : State, s.lastMode = .oneBit false → Leads 0 (reflushPart .fourGray .upd4 ++ head) s s :=
        fun s hs => (skip _ _ hs (by decide)).andThen (hhead s hs)
      exact ⟨[.needCache, .cacheToFrame] ++ (reflushPart .fourGray .upd4 ++ head),
        [.leave] ++ reflushPart (.oneBit true) (.upd1 true), by simp [hpart],
        fun s f hv hf hs => (Leads.takeCache hv hf).andThen (hreach _ hs),
        fun s hs => (Leads.leave s).andThen (skip _ _ hs (by decide))⟩
    case true =>
      have hreach : ∀ s : State, s.lastMode = .oneBit true → Leads 0 (reflushPart .fourGray .upd4 ++
          (reflushPart (.oneBit false) (.upd1 false) ++ head)) s s := fun s hs =>
        (skip _ _ hs (by decide)).andThen ((skip _ _ hs (by decide)).andThen (hhead s hs))
      exact ⟨[.needCache, .cacheToFrame] ++ (reflushPart .fourGray .upd4 ++
        (reflushPart (.oneBit false) (.upd1 false) ++ head)), [.leave], by simp [hpart],
        fun s f hv hf hs => (Leads.takeCache hv hf).andThen (hreach _ hs), fun s _ => Leads.leave s⟩

section
variable {m : LastMode} {i : Instr} {k : Nat} {s t : State} {f : List Byte} (h : m.update = some i)
  (hv : s.cacheValid = true) (hf : s.cache.readAll s.cfg.samples = some f) (hm : s.lastMode = m)
include h hv hf hm

/-- Where the update leads, `reflush()` leads. -/
theorem Leads.reflush (hup : Leads k (program i) { s with frame := Memory.ofList f } t) (ht : t.lastMode = m) :
    Leads k reflushSteps s t := by
  obtain ⟨pre, post, hsteps, hpre, hpost⟩ := reflushSteps_eq h
  rw [hsteps]
  exact (hpre s f hv hf hm).andThen (hup.append (hpost t ht))

/-- Where the update of the cached frame ends, `reflush()` ends. -/
theorem Ends.reflush (hup : Ends k (program i) (State.accept { s with frame := Memory.ofList f } i) t) :
    Ends k reflushSteps (s.accept .reflush) t := by
  obtain ⟨pre, post, hsteps, hpre, hpost⟩ := reflushSteps_eq h
  obtain ⟨q, hhead⟩ := hpre (s.accept .reflush) f hv hf hm (s.accept .reflush).seqPos
  have hpass : ∀ u : State, u.lastMode = m → ∃ q, Runs 0 post u (u.pos q) := fun u hu => hpost u hu u.seqPos
  have hwhole := hup.append hm (fun x hx u hu => Micro.run_keeps_mode (writesMode_update h x hx) hu) hpass
  have hend := Ends.after hhead ((hwhole.at (some (.reflush, 0))).pos q)
  rw [Nat.zero_add, ← hsteps] at hend
  exact hend

end

end Sys2Proof.Machine

open Sys2Proof Sys2Proof.Machine

/-- Settles O44: an empty cache fails the first test; else the run of the update, completed or not, is a stretch of the
run of `reflush()`. -/
theorem reflushIsTheUpdateOfTheCache : Obligations.ReflushIsTheUpdateOfTheCache := by
  intro s f hidle hissuer
  have ⟨hr, _⟩ := hidle
  refine ⟨fun hv => ?_, fun hv hf k hh => ?_⟩
  · rw [exec_idle .reflush s rfl hr, ← State.errorEntry_of_accept hidle hissuer .reflush (s.accept .reflush).seqPos]
    exact runMicros_raised .reflush _ 0 (m := .needCache) (if_neg (by simp [hv]))
  · have transfer : ∀ {m : LastMode} {i : Instr} {t : State}, m.update = some i → i.format = .host → s.lastMode = m →
        thenSteps k (exec i { s with frame := Memory.ofList f }) = .next t → t.run = false →
        thenSteps k (exec .reflush s) = .next t := fun hup hi hm h ht => by
      obtain ⟨j, hj, hends⟩ := ends_of_exec (s := { s with frame := Memory.ofList f }) hi hr hh h ht
      exact Ends.exec rfl hr hh (Ends.reflush hup hv hf hm hends) hj
    exact ⟨fun d t hm => transfer (m := .oneBit d) rfl rfl hm, fun t hm => transfer (m := .fourGray) rfl rfl hm⟩

end

section
/-! PROOFS. `reflush()` on a good transport, and where the controller's operations raise `ProtocolStateError` (R151,
R153, R155, R156, R213). -/

namespace Sys2Proof.Machine

/-- As many polls as `update_1bit` takes, each with its number of busy answers. -/
theorem State.exists_polls1 {s : State} {ns : List Nat} (hd : s.panelState ≠ .deinit) (hfull : s.panelState ≠ .full)
    (hn : ns.length = (if s.lastMode = .fourGray ∨ s.panelState = .gray4 then 3
      else if s.fresh = true ∧ (s.panelState = .fast ∨ s.panelState = .partialMode) then 1 else 2)) :
    ∃ a b n, ns = s.polls1 a b n := by
  have hgray : (s.lastMode = .fourGray ∨ s.panelState = .gray4) ↔ s.fromGray = true := by
    simp [State.fromGray, or_comm]
  simp only [State.polls1]
  cases hg : s.fromGray
  case true =>
    rw [if_pos (hgray.2 hg)] at hn
    obtain ⟨a, b, n, rfl⟩ := List.length_eq_three.1 hn
    exact ⟨a, b, n, rfl⟩
  case false =>
    have hfresh : (s.fresh = true ∧ (s.panelState = .fast ∨ s.panelState = .partialMode)) ↔
        (s.isDown || !s.fresh) = false := by
      cases hp : s.panelState <;> simp_all [State.fromGray, State.isDown]
    rw [if_neg (by simp [hgray, hg])] at hn
    cases hi : (s.isDown || !s.fresh)
    case true =>
      rw [if_neg (by simp [hfresh, hi])] at hn
      obtain ⟨a, n, rfl⟩ := List.length_eq_two.1 hn
      exact ⟨a, 0, n, rfl⟩
    case false =>
      rw [if_pos (hfresh.2 hi)] at hn
      obtain ⟨n, rfl⟩ := List.length_eq_one_iff.1 hn
      exact ⟨0, 0, n, rfl⟩

/-- The retained old plane is readable where there is one, so that `update_1bit` has an old plane to send. -/
theorem State.exists_oldPlane {s : State} (h : s.oldValid = true → (s.old.readAll s.cfg.plane1Bytes).isSome = true) :
    ∃ o, (s.oldValid = true → s.fromGray = false → s.old.readAll s.cfg.plane1Bytes = some o) ∧
      (s.oldValid = false ∨ s.fromGray = true → o = whitePlane s.cfg) := by
  by_cases hw : s.oldValid = false ∨ s.fromGray = true
  · exact ⟨whitePlane s.cfg, fun hv hg => by simp [hv, hg] at hw, fun _ => rfl⟩
  · have hv : s.oldValid = true := by simpa using fun h => hw (.inl h)
    obtain ⟨o, ho⟩ := Option.isSome_iff_exists.1 (h hv)
    exact ⟨o, fun _ _ => ho, fun h => absurd h hw⟩

/-- The frame updates commit their frame and their mode (R151, R153). -/
def State.Committed (s t : State) (m : LastMode) (f : List Byte) : Prop :=
  t.frame = s.frame ∧ t.cache = Memory.ofList f ∧ t.cacheValid = true ∧ t.lastMode = m

theorem State.committed_refreshed1 (s : State) (f o : List Byte) (d : Bool) (a b n : Nat) :
    s.Committed ((s.ensured1bit a b).refreshed1 f o d a n) (.oneBit d) f := by
  obtain ⟨-, -, hframe, -⟩ := s.ensured1bit_frame a b
  rw [State.refreshed1_eq]
  exact ⟨hframe, rfl, rfl, rfl⟩

/-- The update that `LAST_MODE` names leads to the commit of the frame in `FRAME`, with the same mode. -/
theorem Leads.update {s : State} {m : LastMode} {i : Instr} {f : List Byte} {ns : List Nat} (h : m.update = some i)
    (hm : s.lastMode = m) (ho : s.own = true)
    (hd : s.panelState ≠ .deinit) (hfull : s.panelState ≠ .full) (hx : s.transportGood) (hb : s.busyFor ns)
    (hn : ns.length = (if s.lastMode = .fourGray ∨ s.panelState = .gray4 then 3
      else if s.fresh = true ∧ (s.panelState = .fast ∨ s.panelState = .partialMode) then 1 else 2))
    (hf : s.frame.readAll s.cfg.samples = some f)
    (hold : s.oldValid = true → (s.old.readAll s.cfg.plane1Bytes).isSome = true) :
    ∃ t, Leads ns.sum (program i) s t ∧ s.Committed t m f := by
  cases m with
  | none => cases h
  | oneBit d =>
    cases h
    obtain ⟨a, b, n, rfl⟩ := State.exists_polls1 hd hfull hn
    obtain ⟨o, hkept, hwhite⟩ := State.exists_oldPlane hold
    exact ⟨_, Leads.updated1 ho hd (fun h => absurd h hfull) hx hb hf hkept hwhite, s.committed_refreshed1 f o d a b n⟩
  | fourGray =>
    cases h
    rw [if_pos (.inl hm)] at hn
    obtain ⟨a, b, c, rfl⟩ := List.length_eq_three.1 hn
    have hsum : [a, b, c].sum = a + b + c := by simp [Nat.add_assoc]
    exact ⟨s.updated4 f a b c, hsum ▸ Leads.updated4 hd hx hb hf, rfl, rfl, rfl, rfl⟩

theorem LastMode.exists_update {m : LastMode} (h : m ≠ .none) : ∃ i, m.update = some i := by
  cases m with
  | none => exact absurd rfl h
  | oneBit d => exact ⟨_, rfl⟩
  | fourGray => exact ⟨_, rfl⟩

/-- A host operation whose steps lead, no poll finding the panel busy, to one that raises and changes nothing. -/
theorem exec_raises_of_leads {i : Instr} {s t : State} {ms rest : List Micro} {m : Micro} {e : ErrCode}
    (hi : i.format = .host) (hr : s.run = false) (hp : program i = ms ++ m :: rest) (h : Leads 0 ms (s.accept i) t)
    (hm : ∀ q, m.run (t.pos q) = .raised e (t.pos q)) : exec i s = .next (t.errorEntry e) := by
  obtain ⟨q, hruns⟩ := h (s.accept i).seqPos
  rw [exec_idle i s hi hr, hp, ← t.errorEntry_pos q e]
  exact (runMicros_of_runs i hruns rfl _ 0).trans (runMicros_raised i rest _ (hm q))

theorem Micro.run_need_raises {s : State} {ps : List PanelState} (h : s.panelState ∉ ps) (q : List (Operation × Nat)) :
    (Micro.need ps).run (s.pos q) = .raised .protocolState (s.pos q) := if_neg h

/-- The updates and `clear` begin with the test that refuses `DEINIT` (R151, R153, R155). -/
theorem program_eq_needNotDeinit {i : Instr} (h : i ∈ [.upd1 true, .upd1 false, .upd4, .clear true, .clear false]) :
    i.format = .host ∧ ∃ rest, program i = .need notDeinit :: rest := by
  simp only [List.mem_cons, List.not_mem_nil, or_false] at h
  rcases h with rfl | rfl | rfl | rfl | rfl <;> exact ⟨rfl, _, rfl⟩

/-- `update_1bit` up to the test of its `init_partial()` (R85, R151). -/
def update1ToPartial (d : Bool) : List Micro :=
  [.need notDeinit] ++ call .ensure1bit ensure1bitSteps ++ [.encode1 d] ++
    [.skipUnless .notFresh (call (.word .initpart) initPartialSteps).length, .enter (.word .initpart)]

theorem program_upd1_eq (d : Bool) : ∃ rest, program (.upd1 d) = update1ToPartial d ++ .need partialLegal :: rest :=
  ⟨_, rfl⟩

/-- With a mode to keep and a change standing since the last init, it encodes the frame and comes to that test. -/
theorem Leads.update1ToPartial {s : State} {f : List Byte} {d : Bool} (hd : s.panelState ≠ .deinit)
    (hgray : s.fromGray = false) (hdown : s.isDown = false) (hfresh : s.fresh = false)
    (hf : s.frame.readAll s.cfg.samples = some f) : Leads 0 (update1ToPartial d) s (s.encoded1 f d) := by
  have hensure : Leads 0 ensure1bitSteps s s :=
    (Leads.whenFalse ((holds_fromGray s).trans hgray)).andThen (Leads.whenFalse ((holds_isDown s).trans hdown))
  have hencode : Leads 0 [.encode1 d] s (s.encoded1 f d) := .one (Micro.run_encode1 hf d)
  have htest : Leads 0 [.skipUnless .notFresh (call (.word .initpart) initPartialSteps).length] (s.encoded1 f d)
      (s.encoded1 f d) := .one (if_pos (by simp [Cond.holds, State.encoded1, hfresh]))
  have henter : Leads 0 [.enter (.word .initpart)] (s.encoded1 f d) (s.encoded1 f d) :=
    (Leads.one (m := .enter (.word .initpart)) rfl).to rfl
  exact (((Leads.need (mem_notDeinit hd)).andThen (hensure.inner .ensure1bit)).andThen hencode).andThen
    (htest.andThen henter)

end Sys2Proof.Machine

open Sys2Proof Sys2Proof.Machine

/-- Settles O45: the update that `LAST_MODE` names, run on the cached frame, commits that frame and that mode. -/
theorem reflushCompletes : Obligations.ReflushCompletes := by
  intro s f ns hr ho hd hfull hx hb hv hmode hn hf hold
  obtain ⟨i, hi⟩ := LastMode.exists_update hmode
  have hread : (Memory.ofList f).readAll s.cfg.samples = some f :=
    Memory.length_of_readAll hf ▸ Memory.readAll_ofList f
  obtain ⟨t, hlead, hframe, hcache, hvalid, hmode⟩ := Leads.update
    (s := { s.accept .reflush with frame := Memory.ofList f }) hi rfl ho hd hfull hx (hb.congr rfl rfl rfl) hn hread hold
  have hreflush := Leads.reflush (s := s.accept .reflush) hi hv hf rfl hlead hmode
  obtain ⟨hnow, hlater⟩ := exec_completes (i := .reflush) rfl hr hreflush rfl
  exact ⟨t.complete, hnow, hlater, rfl, rfl, hframe, hcache, hvalid, hmode⟩

/-- Settles O47: in `DEINIT` their first test fails; in `FULL` that of `init_partial()` does, after the encoding. -/
theorem controllerStateErrors : Obligations.ControllerStateErrors := by
  refine ⟨fun s i hi hidle hissuer hp => ?_, fun s f d hidle hissuer hp hfresh hmode hf => ?_⟩
  · obtain ⟨hhost, rest, hprog⟩ := program_eq_needNotDeinit hi
    have hnot : (s.accept i).panelState ∉ notDeinit := by simp [hp, notDeinit]
    rw [exec_raises_of_leads (ms := []) hhost hidle.1 hprog (.nil _) (Micro.run_need_raises hnot)]
    exact congrArg _ (State.errorEntry_of_accept hidle hissuer i (s.accept i).seqPos .protocolState)
  · obtain ⟨rest, hprog⟩ := program_upd1_eq d
    have hlead := Leads.update1ToPartial (s := s.accept (.upd1 d)) (f := f) (d := d) (by simp [hp])
      (by simp [State.fromGray, hp, hmode]) (by simp [State.isDown, hp]) hfresh hf
    have hnot : ((s.accept (.upd1 d)).encoded1 f d).panelState ∉ partialLegal := by
      simp [State.encoded1, hp, partialLegal]
    rw [exec_raises_of_leads rfl hidle.1 hprog hlead (Micro.run_need_raises hnot)]
    exact congrArg _ (State.errorEntry_of_accept (s := s.encoded1 f d) hidle hissuer (.upd1 d)
      (s.accept (.upd1 d)).seqPos .protocolState)

end

section
/-! PROOFS. What a `clear` that completes leaves, and what a `reflush()` after it sends, whatever the oracles answer
(R160). -/

namespace Sys2Proof.Machine

/-! ### A stretch taken apart -/

/-- What every step keeps holds at the end of a stretch. -/
theorem Runs.keeps {P : State → Prop} {k : Nat} {ms : List Micro} {s t : State} (h : Runs k ms s t)
    (keep : ∀ m ∈ ms, ∀ u, P u → (m.run u).After P) (hs : P s) : P t := by
  induction h with
  | nil s => exact hs
  | step hm _ ih =>
    exact ih (fun m hm => keep m (List.mem_cons_of_mem _ hm)) ((keep _ List.mem_cons_self _ hs).of_ok hm)
  | jump hm _ _ ih =>
    exact ih (fun m hm => keep m (List.mem_cons_of_mem _ (List.mem_of_mem_drop hm)))
      ((keep _ List.mem_cons_self _ hs).of_skip hm)
  | busy hm _ ih =>
    have hkept := keep _ List.mem_cons_self _ hs
    rw [hm] at hkept
    exact ih keep hkept

/-- A stretch leaves every part that none of its steps writes. -/
theorem Runs.same {p : Part} {k : Nat} {ms : List Micro} {s t : State} (h : Runs k ms s t)
    (hp : ms.all (fun m => !decide (p ∈ m.written)) = true) : p.Same s t := by
  refine h.keeps (P := p.Same s) (fun m hm u hu => ?_) (.refl p s)
  have hw : p ∉ m.written := by simpa using List.all_eq_true.1 hp m hm
  exact (m.run_keeps p hw u).mono fun v hv => hu.trans hv

/-- Two stretches, the first of which ends where no condition of it skips further. -/
theorem Runs.split {k : Nat} {ms ns : List Micro} {s u : State} (h : Runs k (ms ++ ns) s u)
    (hfit : skipsFit ms = true) : ∃ i j t, Runs i ms s t ∧ Runs j ns t u := by
  generalize hl : ms ++ ns = ls at h
  induction h generalizing ms with
  | nil s =>
    obtain ⟨rfl, rfl⟩ := List.append_eq_nil_iff.1 hl
    exact ⟨0, 0, s, .nil s, .nil s⟩
  | @step k m ls s t u hm hr ih =>
    cases ms with
    | nil => exact ⟨0, k, s, .nil s, by cases hl; exact .step hm hr⟩
    | cons m' ms =>
      obtain ⟨rfl, htail⟩ := List.cons.inj hl
      obtain ⟨i, j, v, hi, hj⟩ := ih (skipsFit_of_cons hfit) htail
      exact ⟨i, j, v, .step hm hi, hj⟩
  | @jump k a m ls s t u hm ha hr ih =>
    cases ms with
    | nil => exact ⟨0, k, s, .nil s, by cases hl; exact .jump hm ha hr⟩
    | cons m' ms =>
      obtain ⟨rfl, htail⟩ := List.cons.inj hl
      have hle := le_length_of_skip hfit hm
      obtain ⟨i, j, v, hi, hj⟩ := ih (skipsFit_drop (skipsFit_of_cons hfit) a)
        ((List.drop_append_of_le_length hle).symm.trans (congrArg (List.drop a) htail))
      exact ⟨i, j, v, .jump hm hle hi, hj⟩
  | @busy k m ls s t u hm hr ih =>
    cases ms with
    | nil => exact ⟨0, k + 1, s, .nil s, by cases hl; exact .busy hm hr⟩
    | cons m' ms =>
      obtain ⟨i, j, v, hi, hj⟩ := ih hfit hl
      obtain ⟨rfl, -⟩ := List.cons.inj hl
      exact ⟨i + 1, j, v, .busy hm hi, hj⟩

/-- The steps that are done, raise or fault: neither a condition nor a poll. -/
def Micro.plain : Micro → Bool
  | .skipUnless _ _ | .poll => false
  | _ => true

/-- A plain step of a stretch is done. -/
theorem Runs.head {k : Nat} {m : Micro} {ms : List Micro} {s u : State} (h : Runs k (m :: ms) s u)
    (hm : m.plain = true) : ∃ t, m.run s = .ok t ∧ Runs k ms t u := by
  cases h with
  | step hrun hr => exact ⟨_, hrun, hr⟩
  | jump hrun _ _ =>
    obtain ⟨c, rfl⟩ := Micro.skipUnless_of_skip hrun
    cases hm
  | busy hrun _ =>
    obtain rfl := Micro.poll_of_wait hrun
    cases hm

theorem Runs.eq_of_nil {k : Nat} {s u : State} (h : Runs k [] s u) : u = s := by cases h; rfl

/-- A conditional part is taken where its condition holds, and else passed over. -/
theorem Runs.whenDo_cases {k : Nat} {c : Cond} {ms : List Micro} {s u : State} (h : Runs k (whenDo c ms) s u) :
    c.holds s = true ∧ Runs k ms s u ∨ c.holds s = false ∧ u = s := by
  cases hc : c.holds s
  case true =>
    cases h with
    | step hrun hr => simp only [Micro.run, hc, if_true, Result.ok.injEq] at hrun; exact .inl ⟨rfl, hrun ▸ hr⟩
    | jump hrun _ _ => simp [Micro.run, hc] at hrun
    | busy hrun _ => simp [Micro.run, hc] at hrun
  case false =>
    cases h with
    | step hrun hr => simp [Micro.run, hc] at hrun
    | jump hrun _ hr =>
      simp only [Micro.run, hc, Bool.false_eq_true, if_false, Result.skip.injEq] at hrun
      obtain ⟨rfl, rfl⟩ := hrun
      rw [List.drop_length] at hr
      exact .inr ⟨rfl, hr.eq_of_nil⟩
    | busy hrun _ => simp [Micro.run, hc] at hrun

theorem Runs.cfg {k : Nat} {ms : List Micro} {s t : State} (h : Runs k ms s t) : t.cfg = s.cfg := by
  refine h.keeps (P := fun u => u.cfg = s.cfg) (fun m _ u hu => ?_) rfl
  refine (m.run_frame u).mono ?_
  rintro v ⟨hcfg, -⟩
  exact hcfg.trans hu

/-! ### The bytes a stretch sends -/

@[simp] theorem wireBytes_append (es fs : List Event) : wireBytes (es ++ fs) = wireBytes es ++ wireBytes fs := by
  simp [wireBytes]

@[simp] theorem wireBytes_delayEvents (ms : Nat) : wireBytes (delayEvents ms) = [] := by
  unfold delayEvents; split <;> rfl

@[simp] theorem wireBytes_txEvents (c : Byte) (bs : List Byte) :
    wireBytes (txEvents c bs) = encodeTransaction (c, bs) := by
  simp [wireBytes, txEvents, commandEvents, dataEvents, encodeTransaction, List.filterMap_map]

theorem cmd_mem_of_mem_wireBytes {es : List Event} {b : Byte} (h : (false, b) ∈ wireBytes es) : .cmd b ∈ es := by
  obtain ⟨e, he, hb⟩ := List.mem_filterMap.1 h
  cases e <;> simp at hb
  subst hb
  exact he

/-- No plane is begun among these bytes: neither 0x10 nor 0x13 is a command of them (R200, R201). -/
def BeginsNoPlane (bs : List WireByte) : Prop := ∀ e ∈ bs, e ≠ (false, 0x10#8) ∧ e ≠ (false, 0x13#8)

theorem BeginsNoPlane.append {bs cs : List WireByte} (h : BeginsNoPlane bs) (h' : BeginsNoPlane cs) :
    BeginsNoPlane (bs ++ cs) := fun e he => (List.mem_append.1 he).elim (h e) (h' e)

/-- What is sent from `s` to `t` begins no plane. -/
def State.ShowsNothing (s t : State) : Prop :=
  ∃ bs, wireBytes t.trace = wireBytes s.trace ++ bs ∧ BeginsNoPlane bs

theorem State.ShowsNothing.refl (s : State) : s.ShowsNothing s := ⟨[], by simp, by simp [BeginsNoPlane]⟩

theorem State.ShowsNothing.trans {s t u : State} (h : s.ShowsNothing t) (h' : t.ShowsNothing u) : s.ShowsNothing u := by
  obtain ⟨bs, ht, hbs⟩ := h
  obtain ⟨cs, hu, hcs⟩ := h'
  exact ⟨bs ++ cs, by rw [hu, ht, List.append_assoc], hbs.append hcs⟩

/-- The steps that send neither 0x10 nor 0x13. -/
def Micro.showsNothing : Micro → Bool
  | .command c => c != 0x10#8 && c != 0x13#8
  | .lut6Command => false
  | _ => true

/-- A step appends events, of which the commands are its own. -/
theorem Micro.run_appends (m : Micro) (s : State) :
    (m.run s).After fun t => ∃ es, t.trace = s.trace ++ es ∧ ∀ b, .cmd b ∈ es → m.sends s.cfg b := by
  cases hm : m.physical
  case true =>
    refine (m.run_physical hm s).mono ?_
    rintro t ⟨es, o, ks, pe, bi, q, rfl, hsends, -⟩
    exact ⟨es, rfl, hsends⟩
  case false =>
    have silent : ∃ es, s.trace = s.trace ++ es ∧ ∀ b, .cmd b ∈ es → m.sends s.cfg b := ⟨[], by simp, by simp⟩
    cases m <;> simp only [Micro.physical, Bool.true_eq_false] at hm
    case finish | emptyOld | commitClear => exact silent
    case commit1 => exact .withOperand fun _ _ => .withOperand fun _ _ => silent
    all_goals exact .withOperand fun _ _ => silent

theorem Micro.run_showsNothing {m : Micro} (hm : m.showsNothing = true) (s : State) :
    (m.run s).After s.ShowsNothing := by
  refine (m.run_appends s).mono ?_
  rintro t ⟨es, htrace, hsends⟩
  have hcmd : ∀ b, (false, b) ∈ wireBytes es → b ≠ 0x10#8 ∧ b ≠ 0x13#8 := fun b hb => by
    have hb := hsends b (cmd_mem_of_mem_wireBytes hb)
    cases m <;> simp only [Micro.sends] at hb
    case command c => subst hb; simpa [Micro.showsNothing] using hm
    case lut6Command => cases hm
  refine ⟨wireBytes es, by rw [htrace, wireBytes_append], fun e he => ⟨?_, ?_⟩⟩
  · rintro rfl; exact (hcmd _ he).1 rfl
  · rintro rfl; exact (hcmd _ he).2 rfl

theorem Runs.showsNothing {k : Nat} {ms : List Micro} {s t : State} (h : Runs k ms s t)
    (hms : ms.all Micro.showsNothing = true) : s.ShowsNothing t :=
  h.keeps (fun m hm u hu => (Micro.run_showsNothing (List.all_eq_true.1 hms m hm) u).mono fun _ hv => hu.trans hv)
    (.refl s)

/-- A bus call that is done has appended its events. -/
theorem State.eq_of_bus_ok {s t : State} {es : List Event} (h : s.bus es = .ok t) : ∃ ks, t = (s.log es).fails ks := by
  rcases s.bus_cases es with ⟨ks, -, hb⟩ | ⟨k, ks, hb⟩ <;> rw [hb] at h <;> cases h
  exact ⟨ks, rfl⟩

/-- A transaction that is done has sent its command and its data. -/
theorem Runs.transaction {k : Nat} {c : Byte} {d : DataSource} {rest : List Micro} {s u : State}
    (h : Runs k (transaction c d ++ rest) s u) :
    ∃ bs ks, d.bytes s = .ok bs ∧ Runs k rest ((s.log (txEvents c bs)).fails ks) u := by
  obtain ⟨t, hcmd, h⟩ := h.head rfl
  obtain ⟨ks, rfl⟩ := State.eq_of_bus_ok hcmd
  obtain ⟨t, hdata, h⟩ := h.head rfl
  rw [Micro.run, d.bytes_fails, d.bytes_log] at hdata
  cases hd : d.bytes s with
  | error f => rw [hd] at hdata; cases hdata
  | ok bs =>
    rw [hd] at hdata
    obtain ⟨ks', rfl⟩ := State.eq_of_bus_ok hdata
    rw [State.log_fails, State.log_log] at h
    exact ⟨bs, ks', rfl, h⟩

/-- The pair of planes of `pic_display` (R90): the old one, then the new one. -/
theorem Runs.sentPair {k : Nat} {q : Sequence} {j : Nat} {s u : State}
    (h : Runs k (wOldData .pair ++ .pause q j :: wNewData .pair) s u) :
    ∃ o p, s.oldOperand = .ok o ∧ s.plane1Operand = .ok p ∧
      wireBytes u.trace = wireBytes s.trace ++ encodeStream [(0x10#8, o), (0x13#8, p)] := by
  obtain ⟨o, ks, ho, h⟩ := h.transaction
  obtain ⟨t, hpause, h⟩ := h.head rfl
  cases hpause
  rw [← List.append_nil (wNewData .pair)] at h
  obtain ⟨p, js, hp, h⟩ := h.transaction
  obtain rfl := h.eq_of_nil
  exact ⟨o, p, ho, hp, by simp [State.fails, encodeStream]⟩

/-! ### `update_1bit` that completes -/

/-- From 4-gray (R152). -/
def leaveGraySteps : List Micro :=
  call (.word .initfast) initFastSteps ++ call (.word .picclear) picClearSteps ++ [.emptyOld]

/-- The rest of `ensure_1bit()` (R152). -/
def wakeSteps : List Micro := whenDo (.inState [.uninit, .sleeping]) (call (.word .initfast) initFastSteps) ++ [.leave]

/-- From the encoding to the pair of planes (R90, R151). -/
def toPairSteps : List Micro :=
  whenDo .notFresh (call (.word .initpart) initPartialSteps) ++
    [.enter (.word .picdisp), .need oneBitPowered, .pause .picDisplay 0]

/-- The pair of planes (R90). -/
def pairSteps : List Micro := wOldData .pair ++ .pause .picDisplay 1 :: wNewData .pair

/-- The refresh after the pair (R90). -/
def refreshSteps : List Micro :=
  [.pause .picDisplay 2] ++ wDisplayRefresh ++ [.pause .picDisplay 3] ++ awaitNotBusy ++ [.pause .picDisplay 4, .leave]

theorem update1Steps_eq_parts (d : Bool) : update1Steps d = [.need notDeinit, .enter .ensure1bit] ++
    (whenDo .fromGray leaveGraySteps ++ (wakeSteps ++ (.encode1 d :: (toPairSteps ++
      (pairSteps ++ (refreshSteps ++ [.commit1 d])))))) := rfl

/-- From `s` to `t` nothing is shown, and what the pair of planes is made of stays as it was. -/
def State.Prepares (s t : State) : Prop :=
  t.cfg = s.cfg ∧ t.frame = s.frame ∧ t.oldValid = s.oldValid ∧ t.plane1 = s.plane1 ∧ s.ShowsNothing t

/-- The steps that do that. -/
def Micro.prepares (m : Micro) : Bool :=
  m.showsNothing && [Part.frame, .oldValid, .plane1].all fun p => !decide (p ∈ m.written)

theorem Runs.prepares {k : Nat} {ms : List Micro} {s t : State} (h : Runs k ms s t)
    (hms : ms.all Micro.prepares = true) : s.Prepares t := by
  obtain ⟨hshow, hframe, hold, hplane⟩ : (∀ m ∈ ms, m.showsNothing = true) ∧ (∀ m ∈ ms, .frame ∉ m.written) ∧
      (∀ m ∈ ms, .oldValid ∉ m.written) ∧ ∀ m ∈ ms, .plane1 ∉ m.written := by
    simpa [Micro.prepares, imp_and, forall_and] using hms
  have same : ∀ p : Part, (∀ m ∈ ms, p ∉ m.written) → p.Same s t := fun p hp => h.same (by simpa using hp)
  exact ⟨h.cfg, same .frame hframe, same .oldValid hold, same .plane1 hplane, h.showsNothing (by simpa using hshow)⟩

theorem State.Prepares.trans {s t u : State} (h : s.Prepares t) (h' : t.Prepares u) : s.Prepares u := by
  obtain ⟨hcfg, hframe, hold, hplane, hshow⟩ := h
  obtain ⟨hcfg', hframe', hold', hplane', hshow'⟩ := h'
  exact ⟨hcfg'.trans hcfg, hframe'.trans hframe, hold'.trans hold, hplane'.trans hplane, hshow.trans hshow'⟩

/-- Where the panel does not come from 4-gray, `update_1bit` shows nothing before its encoding. -/
theorem Runs.update1_toEncoding {k : Nat} {d : Bool} {s u : State} (h : Runs k (update1Steps d) s u)
    (hgray : s.fromGray = false) : ∃ j t, s.Prepares t ∧
      Runs j (.encode1 d :: (toPairSteps ++ (pairSteps ++ (refreshSteps ++ [.commit1 d])))) t u := by
  rw [update1Steps_eq_parts] at h
  obtain ⟨_, _, t, hstart, hrest⟩ := h.split (by decide)
  obtain ⟨_, _, t', hleave, hrest⟩ := hrest.split (by decide)
  obtain ⟨_, j, v, hwake, hencode⟩ := hrest.split (by decide)
  have hskip : Cond.fromGray.holds t = false := by
    have hpanel := (hstart.same (p := .panel) (by decide)).1
    have hmode := (hstart.same (p := .cache) (by decide)).2.2
    rw [holds_fromGray, State.fromGray, hpanel, hmode]
    exact hgray
  rcases hleave.whenDo_cases with ⟨htaken, -⟩ | ⟨-, rfl⟩
  · simp [hskip] at htaken
  · exact ⟨j, v, (hstart.prepares (by decide)).trans (hwake.prepares (by decide)), hencode⟩

theorem Micro.eq_of_commit1_ok {d : Bool} {s t : State} {f : List Byte} (h : (Micro.commit1 d).run s = .ok t)
    (hf : s.frame.readAll s.cfg.samples = some f) : ∃ p, t = s.committed1 f p d := by
  rw [Micro.run, State.frameOperand_of_readAll hf] at h
  cases hp : s.plane1Operand with
  | error g => rw [hp] at h; cases h
  | ok p =>
    rw [hp] at h
    cases h
    exact ⟨p, rfl⟩

/-- Where no plane is retained and the panel does not come from 4-gray, an `update_1bit` that completes sends one pair,
the white plane and the frame's. -/
theorem Runs.update1_sendsOnePair {k : Nat} {d : Bool} {s u : State} {f : List Byte} (h : Runs k (update1Steps d) s u)
    (hgray : s.fromGray = false) (hold : s.oldValid = false) (hf : s.frame.readAll s.cfg.samples = some f) :
    u.frame = s.frame ∧ u.cache = Memory.ofList f ∧ u.lastMode = .oneBit d ∧
      ∃ hd tl, wireBytes u.trace = wireBytes s.trace ++ hd ++
        encodeStream [(0x10#8, whitePlane s.cfg), (0x13#8, encode1bit s.cfg f d)] ++ tl ∧ BeginsNoPlane (hd ++ tl) := by
  obtain ⟨_, v, ⟨hcfg, hframe, holdv, -, hd, htrace, hhead⟩, h⟩ := h.update1_toEncoding hgray
  have hfv : v.frame.readAll v.cfg.samples = some f := by rw [hframe, hcfg, hf]
  obtain ⟨_, hencode, h⟩ := h.head rfl
  rw [Micro.run_encode1 hfv] at hencode
  cases hencode
  obtain ⟨_, _, w, hto, h⟩ := h.split (by decide)
  obtain ⟨_, _, x, hpair, h⟩ := h.split (by decide)
  obtain ⟨_, _, y, hrefresh, h⟩ := h.split (by decide)
  obtain ⟨_, hcommit, h⟩ := h.head rfl
  obtain rfl := h.eq_of_nil
  obtain ⟨hcfgw, hframew, holdw, hplanew, hd', htracew, hheadw⟩ := hto.prepares (by decide)
  obtain ⟨o, p, ho, hp, htracex⟩ := hpair.sentPair
  obtain ⟨hcfgy, hframey, -, -, tl, htracey, htail⟩ := hrefresh.prepares (by decide)
  have hframex : x.frame = w.frame := hpair.same (p := .frame) (by decide)
  have hcfgw : w.cfg = s.cfg := hcfgw.trans hcfg
  have hframey : y.frame = s.frame := hframey.trans (hframex.trans (hframew.trans hframe))
  have hcfgy : y.cfg = s.cfg := hcfgy.trans (hpair.cfg.trans hcfgw)
  obtain ⟨_, rfl⟩ := Micro.eq_of_commit1_ok hcommit (f := f) (by rw [hframey, hcfgy, hf])
  have ho' : whitePlane s.cfg = o := by
    have hnone : w.oldValid = false := holdw.trans (holdv.trans hold)
    simpa [State.oldOperand, hnone, hcfgw] using ho
  have hp' : encode1bit s.cfg f d = p := by
    have hplane := v.plane1Operand_encoded1 f d
    have hsame : w.plane1Operand = (v.encoded1 f d).plane1Operand := by
      rw [State.plane1Operand, hplanew, hcfgw, ← hcfg]; rfl
    rw [← hsame, hp, hcfg] at hplane
    exact (Except.ok.inj hplane).symm
  subst ho' hp'
  refine ⟨hframey, rfl, rfl, hd ++ hd', tl, ?_, (hhead.append hheadw).append htail⟩
  show wireBytes y.trace = _
  rw [htracey, htracex, htracew]
  show wireBytes v.trace ++ _ ++ _ ++ _ = _
  simp [htrace]

/-! ### `clear` that completes, and `reflush()` after it -/

/-- What `clear` leaves when it completes, for a `reflush()` after it. -/
structure State.Cleared (s u : State) : Prop where
  cfg : u.cfg = s.cfg
  host : u.host = s.host
  old : u.oldValid = false
  valid : u.cacheValid = true
  cache : u.cache = Memory.ofList (whiteFrame s.cfg)
  mode : u.lastMode = .oneBit false
  panel : u.panelState ≠ .gray4

theorem Runs.host {k : Nat} {ms : List Micro} {s t : State} (h : Runs k ms s t) : t.host = s.host := by
  refine h.keeps (P := fun u => u.host = s.host) (fun m _ u hu => ?_) rfl
  refine (m.run_frame u).mono ?_
  rintro v ⟨-, -, -, -, -, -, -, -, hhost, -⟩
  exact hhost.trans hu

/-- The steps after which the panel is in 4-gray only if it was before. -/
def Micro.avoidsGray : Micro → Bool
  | .finish o => o.panelState != .gray4
  | m => !decide (.panel ∈ m.written)

theorem Micro.run_avoidsGray {m : Micro} (hm : m.avoidsGray = true) {s : State} (hs : s.panelState ≠ .gray4) :
    (m.run s).After fun t => t.panelState ≠ .gray4 := by
  by_cases hw : .panel ∈ m.written
  · cases m <;> simp only [Micro.written, List.mem_cons, List.not_mem_nil, reduceCtorEq, or_false, or_self] at hw
    case finish o => exact bne_iff_ne.1 hm
    case commit1 => simp [Micro.avoidsGray, Micro.written] at hm
  · exact (m.run_keeps .panel hw s).mono fun t ht => ht.1 ▸ hs

/-- `clear` up to the test of its transfer, and from there to its commit (R155). -/
theorem clearSteps_eq_parts (p : Bool) : ∃ before after, clearSteps p =
    before ++ (.need oneBitPowered :: (after ++ [.commitClear])) ∧ skipsFit before = true ∧ skipsFit after = true ∧
      after.all Micro.avoidsGray = true := by
  refine ⟨[.need notDeinit] ++ whenDo (.notInState oneBitPowered) (call (.word .initfast) initFastSteps) ++
      [.enter (.word .picclear), .enter (.word .picdisp)],
    (transferSteps .picDisplay oneBitPowered .white).tail ++ [.leave, .leave] ++
      (if p then call (.word .sleep) sleepSteps else []), ?_, by decide, ?_, ?_⟩
  · cases p <;> rfl
  · cases p <;> decide
  · cases p <;> decide

theorem Runs.cleared {k : Nat} {p : Bool} {s u : State} (h : Runs k (clearSteps p) s u) : s.Cleared u := by
  have hcfg := h.cfg
  have hhost := h.host
  obtain ⟨before, after, hsteps, hfit, hfit', hgray⟩ := clearSteps_eq_parts p
  rw [hsteps] at h
  obtain ⟨_, _, t, -, hrest⟩ := h.split hfit
  obtain ⟨t', hneed, hrest⟩ := hrest.head rfl
  obtain ⟨_, _, v, hafter, hlast⟩ := hrest.split hfit'
  obtain ⟨_, hcommit, hend⟩ := hlast.head rfl
  obtain rfl := hend.eq_of_nil
  cases hcommit
  have hpowered : t'.panelState ≠ .gray4 := by
    simp only [Micro.run] at hneed
    split at hneed <;> cases hneed
    next hin => intro hg; simp [hg, oneBitPowered] at hin
  have hpanel := hafter.keeps (fun m hm _ => Micro.run_avoidsGray (List.all_eq_true.1 hgray m hm)) hpowered
  exact ⟨hcfg, hhost, rfl, rfl, congrArg (fun c => Memory.ofList (whiteFrame c)) hcfg, rfl, hpanel⟩

/-- A stretch that goes on after one known to come to `t` goes on from `t`. -/
theorem Runs.rest {k : Nat} {pre ms : List Micro} {s t u : State} (h : Runs 0 pre s t) (h' : Runs k (pre ++ ms) s u) :
    Runs k ms t u := by
  generalize hz : 0 = z at h
  induction h with
  | nil s => exact h'
  | step hm _ ih =>
    refine ih ?_ hz
    cases h' with
    | step hm' hr => rw [hm] at hm'; cases hm'; exact hr
    | jump hm' _ _ => rw [hm] at hm'; cases hm'
    | busy hm' _ => rw [hm] at hm'; cases hm'
  | jump hm hj _ ih =>
    refine ih ?_ hz
    cases h' with
    | step hm' hr => rw [hm] at hm'; cases hm'
    | jump hm' _ hr => rw [hm] at hm'; cases hm'; exact (List.drop_append_of_le_length hj) ▸ hr
    | busy hm' _ => rw [hm] at hm'; cases hm'
  | busy => cases hz

/-- After a `clear`, a `reflush()` that completes has run `update_1bit` of the white frame, with no old plane (R160). -/
theorem Runs.reflush_of_cleared {k : Nat} {s u v : State} (hs : s.Cleared v)
    (h : Runs k reflushSteps (v.complete.accept .reflush) u) :
    u.frame = Memory.ofList (whiteFrame s.cfg) ∧ u.cache = Memory.ofList (whiteFrame s.cfg) ∧
      u.lastMode = .oneBit false ∧ ∃ hd tl, wireBytes u.trace = wireBytes v.trace ++ hd ++
        encodeStream [(0x10#8, whitePlane s.cfg), (0x13#8, encode1bit s.cfg (whiteFrame s.cfg) false)] ++ tl ∧
        BeginsNoPlane (hd ++ tl) := by
  have hread : (Memory.ofList (whiteFrame s.cfg)).readAll s.cfg.samples = some (whiteFrame s.cfg) := by
    have hwhole := Memory.readAll_ofList (whiteFrame s.cfg)
    rwa [whiteFrame, List.length_replicate] at hwhole
  obtain ⟨pre, post, hsteps, hpre, hpost⟩ := reflushSteps_eq (m := .oneBit false) rfl
  obtain ⟨q, hhead⟩ := hpre (v.complete.accept .reflush) (whiteFrame s.cfg) hs.valid
    (by simpa [hs.cache, hs.cfg] using hread) hs.mode (v.complete.accept .reflush).seqPos
  rw [hsteps] at h
  obtain ⟨_, _, w, hupdate, hafter⟩ := (hhead.rest h).split (skipsFit_program _)
  obtain ⟨hframe, hcache, hmode, hd, tl, htrace, hnone⟩ := hupdate.update1_sendsOnePair
    (by simp [State.fromGray, State.pos, hs.mode, hs.panel]) hs.old (by simpa [State.pos, hs.cfg] using hread)
  obtain ⟨q', hpass⟩ := hpost w hmode w.seqPos
  rw [← List.append_nil post] at hafter
  obtain rfl := (hpass.rest hafter).eq_of_nil
  have hcfg :
      State.cfg (State.pos { v.complete.accept .reflush with frame := Memory.ofList (whiteFrame s.cfg) } q) = s.cfg :=
    hs.cfg
  rw [hcfg] at htrace
  exact ⟨hframe, hcache, hmode, hd, tl, htrace, hnone⟩

end Sys2Proof.Machine

namespace Sys2Proof

/-! ### The white frame encoded (R110, R112, R114) -/

theorem rowsOf_replicate {α : Type} (w h : Nat) (a : α) :
    rowsOf w h (List.replicate (w * h) a) = List.replicate h (List.replicate w a) := by
  induction h with
  | zero => rfl
  | succ h ih => simp [rowsOf, Nat.mul_succ, ih, List.replicate_succ]

theorem flipFrame_replicate {α : Type} (w h : Nat) (a : α) :
    flipFrame w h (List.replicate (w * h) a) = List.replicate (w * h) a := by
  simp [flipFrame, rowsOf_replicate, Nat.mul_comm]

theorem packRow1_replicate_true (pad : Bool) (n : Nat) :
    packRow1 pad n (List.replicate (8 * n) true) = List.replicate n 0xFF#8 := by
  induction n with
  | zero => rfl
  | succ n ih =>
    have hbyte : packByte1 pad (List.replicate (8 * n + 8) true) = 0xFF#8 := by
      simp only [List.replicate_succ]
      rfl
    rw [Nat.mul_succ, packRow1, hbyte, List.drop_replicate, Nat.add_sub_cancel, ih, List.replicate_succ]

theorem encode1bit_whiteFrame {p : Params} (hw : p.w % 8 = 0) :
    encode1bit p (whiteFrame p) false = List.replicate p.plane1Bytes 0xFF#8 := by
  have hload : workOf1 p (whiteFrame p) false = List.replicate p.samples (F32.ofByte 0xFF#8) := by
    simp [workOf1, loadFlipped, whiteFrame, Params.samples, flipFrame_replicate]
  have hbit : bit1 (bucket (F32.ofByte 0xFF#8)) = true := bit1_bucket_of_bit true
  have hstride : p.w = 8 * p.stride1 := by unfold Params.stride1; omega
  have hrow : packRow1 p.padBit p.stride1 (List.replicate p.w true) = List.replicate p.stride1 0xFF#8 := by
    conv_lhs => rw [hstride]
    exact packRow1_replicate_true _ _
  rw [encode1bit, hload, List.map_replicate, hbit, pack1, Params.samples, rowsOf_replicate, List.flatMap_replicate,
    hrow, List.flatten_replicate_replicate, Params.plane1Bytes, Nat.mul_comm]

end Sys2Proof

open Sys2Proof Sys2Proof.Machine

/-- Settles O46: `clear` leaves the white frame in the cache and no old plane; the `reflush()` after it is the
undithered `update_1bit` of that frame. -/
theorem clearThenReflushIsBlank : Obligations.ClearThenReflushIsBlank := by
  intro s t u p j k hr hw hwhite hh hclear ht hte hreflush hu hue
  obtain ⟨_, -, hends⟩ := ends_of_exec rfl hr (hh.imp_left fun h => by omega) hclear ht
  obtain ⟨v, hruns, rfl⟩ := hends.runs hte
  have hs : (s.accept (.clear p)).Cleared v := hruns.cleared
  obtain ⟨_, -, hends⟩ := ends_of_exec rfl ht (hh.imp (fun h => by omega) fun h => hs.host.trans h) hreflush hu
  obtain ⟨w, hruns, rfl⟩ := hends.runs hue
  have hplane : whitePlane s.cfg = List.replicate s.cfg.plane1Bytes 0xFF#8 := by rw [whitePlane, hwhite]
  have hshown := Runs.reflush_of_cleared hs hruns
  rwa [State.accept_cfg, encode1bit_whiteFrame hw, hplane] at hshown

end

section
/-! PROOFS. How an operation ends with an error: a step of it raised one, and error entry followed. Where each error stands in
the trace, when a time-out can be one of them, and what becomes of the animation (R210, R212, R215, R218). -/

namespace Sys2Proof.Machine

/-! ### What a step can raise -/

theorem State.fail_of_bus {s t : State} {es : List Event} {e : ErrCode} (h : s.bus es = .raised e t) :
    t.trace.getLast? = some .fail := by
  rcases s.bus_cases es with ⟨ks, -, hb⟩ | ⟨k, ks, hb⟩ <;> rw [hb] at h <;> cases h
  simp

theorem State.fail_of_acquire {s t : State} {e : ErrCode} (h : s.acquire = .raised e t) :
    t.trace.getLast? = some .fail := by
  unfold State.acquire at h
  split at h
  · cases h
  · rcases s.attempt_cases [.acquire] with ⟨ks, ha⟩ | ⟨k, ks, ha⟩ <;> rw [ha] at h <;> cases h
    simp

/-- The place of an error in the trace and, for a time-out, the ceiling it is measured by (R210, R212). -/
def ErrCode.PlacedAt (e : ErrCode) (s t : State) : Prop :=
  (e = .transport → t.trace.getLast? = some .fail) ∧
    (e = .panelTimeout → t.trace.getLast? = some (.poll true) ∧ s.cfg.pollCeilingMs ≠ Option.none)

theorem ErrCode.PlacedAt.of_transport {e : ErrCode} {s t : State} (h : e = .transport)
    (ht : t.trace.getLast? = some .fail) : e.PlacedAt s t := by
  subst h; exact ⟨fun _ => ht, nofun⟩

theorem State.placedAt_of_bus {s t : State} {es : List Event} {e : ErrCode} (h : s.bus es = .raised e t) :
    e.PlacedAt s t := .of_transport (State.eq_transport_of_bus h) (State.fail_of_bus h)

/-- A turn of the poll loop raises a failed read, or a busy sample at the ceiling. -/
theorem State.placedAt_of_pollOnce {s t : State} {e : ErrCode} (h : s.pollOnce = .raised e t) : e.PlacedAt s t := by
  unfold State.pollOnce State.readBusy at h
  cases hb : s.bus [.poll s.panelBusy] with
  | raised e' u => rw [hb] at h; cases h; exact State.placedAt_of_bus hb
  | ok u =>
    have hu : u.trace.getLast? = some (.poll s.panelBusy) := by
      rcases s.bus_cases [.poll s.panelBusy] with ⟨ks, -, h'⟩ | ⟨k, ks, h'⟩ <;> rw [h'] at hb <;> cases hb
      simp
    rw [hb] at h
    simp only [Result.andThen] at h
    split at h
    · next hbusy =>
      split at h
      · next hceil => cases h; exact ⟨nofun, fun _ => ⟨hbusy ▸ hu, fun hnone => by simp [hnone] at hceil⟩⟩
      · cases h
    · cases h
  | skip | wait | fault => rw [hb] at h; cases h

/-- Every error a step raises stands at its place. -/
theorem Micro.placedAt_of_raised {m : Micro} {s t : State} {e : ErrCode} (h : m.run s = .raised e t) :
    e.PlacedAt s t := by
  cases m <;> simp only [Micro.run, withOperand] at h
  case acquire => exact .of_transport (State.eq_transport_of_acquire h) (State.fail_of_acquire h)
  case setReset | command | lut6Command | lut6Payload => exact State.placedAt_of_bus h
  case payload d =>
    cases hd : d.bytes s with
    | ok bs => rw [hd] at h; exact State.placedAt_of_bus h
    | error g => rw [hd] at h; cases h
  case poll => exact State.placedAt_of_pollOnce h
  case need | needCache => split at h <;> cases h; exact ⟨nofun, nofun⟩
  all_goals
    repeat' split at h
    all_goals cases h

/-! ### What ends with it -/

/-- From `s` on, a step raised an error, and `t` is what error entry left. -/
def State.EndsInError (s t : State) : Prop :=
  ∃ (m : Micro) (w u : State) (e : ErrCode), m.run w = .raised e u ∧ w.cfg = s.cfg ∧ u.issuer = s.issuer ∧
    t = u.errorEntry e

/-- A stretch of an operation waits, completes, or ends in an error. -/
theorem runMicros_ends {i : Instr} {ms : List Micro} {n k : Nat} {s t : State} (h : runMicros i ms n k s = .next t) :
    (t.run = s.run ∧ t.err = s.err) ∨ t.err = .none ∨ s.EndsInError t := by
  have keep : ∀ m ∈ ms, ∀ u : State, (u.cfg = s.cfg ∧ u.issuer = s.issuer ∧ u.run = s.run ∧ u.err = s.err) →
      (m.run u).After fun u => u.cfg = s.cfg ∧ u.issuer = s.issuer ∧ u.run = s.run ∧ u.err = s.err := by
    rintro m - u ⟨hcfg, hissuer, hrun, herr⟩
    refine (m.run_frame u).mono ?_
    rintro v ⟨hvcfg, hvrun, hverr, -, -, -, -, hvissuer, -⟩
    exact ⟨hvcfg.trans hcfg, hvissuer.trans hissuer, hvrun.trans hrun, hverr.trans herr⟩
  rcases runMicros_cases ⟨rfl, rfl, rfl, rfl⟩ keep h with
    ⟨u, -, rfl⟩ | ⟨u, j, m, ⟨-, -, hrun, herr⟩, -, -, rfl⟩ | ⟨u, e, ⟨-, hissuer, -⟩, ⟨m, -, w, ⟨hcfg, -⟩, hw⟩, rfl⟩
  · exact .inr (.inl rfl)
  · exact .inl ⟨hrun, herr⟩
  · exact .inr (.inr ⟨m, w, u, e, hw, hcfg, hissuer, rfl⟩)

/-- A host operation that ends at once with an error. -/
theorem exec_endsInError {i : Instr} {s t : State} (hi : i.format = .host) (hr : s.run = false)
    (h : exec i s = .next t) (ht : t.run = false) (he : t.err ≠ .none) : s.EndsInError t := by
  rw [exec_idle i s hi hr] at h
  rcases runMicros_ends h with ⟨hrun, -⟩ | hnone | hends
  · simp [ht] at hrun
  · exact absurd hnone he
  · exact hends

/-- An operation in flight that a step, other than the block's reset, ends with an error. -/
theorem step_endsInError {s t : State} (hr : s.run = true) (hno : ∀ rest, s.host ≠ .reset :: rest)
    (h : step s = .next t) (ht : t.run = false) (he : t.err ≠ .none) : s.EndsInError t := by
  rcases step_moves h with ⟨h, f, st, an, e, g, rfl, -⟩ | ⟨i, h, f, g, -, hidle, -⟩ | ⟨i, n, h, -, hrun⟩ |
    ⟨rest, hhost, -⟩
  · simp [hr] at ht
  · simp [hr] at hidle
  · rcases runMicros_ends hrun with ⟨hkept, -⟩ | hnone | hends
    · simp [ht, hr] at hkept
    · exact absurd hnone he
    · exact hends
  · exact absurd hhost (hno rest)

theorem State.EndsInError.placedAt {s t : State} (h : s.EndsInError t) : t.err.PlacedAt s t := by
  obtain ⟨m, w, u, e, hraised, hcfg, -, rfl⟩ := h
  simpa [ErrCode.PlacedAt, hcfg] using Micro.placedAt_of_raised hraised

theorem State.EndsInError.animation {s t : State} (h : s.EndsInError t) (hw : s.issuer = .worker) :
    t.anim = false ∧ t.stop = false := by
  obtain ⟨m, w, u, e, -, -, hissuer, rfl⟩ := h
  simp [hissuer, hw]

theorem State.EndsInError.ne_panelTimeout {s t : State} (h : s.EndsInError t) (hc : s.cfg.pollCeilingMs = none) :
    t.err ≠ .panelTimeout := fun he => (h.placedAt.2 he).2 hc

/-- Without a ceiling a stretch makes no time-out. -/
theorem runMicros_ne_panelTimeout {i : Instr} {ms : List Micro} {n k : Nat} {s t : State}
    (hc : s.cfg.pollCeilingMs = none) (hs : s.err ≠ .panelTimeout) (h : runMicros i ms n k s = .next t) :
    t.err ≠ .panelTimeout := by
  rcases runMicros_ends h with ⟨-, herr⟩ | hnone | hends
  · exact herr ▸ hs
  · exact hnone ▸ nofun
  · exact hends.ne_panelTimeout hc

/-! ### Operations that raise nothing -/

/-- The steps that neither use the bus nor test anything. -/
def Micro.isQuiet : Micro → Bool
  | .release | .finish _ | .encode1 _ | .encode4 | .ditherFrame => true
  | _ => false

/-- A step is done, or stops the model, and has asked neither oracle. -/
def Result.Quiet (s : State) : Result → Prop
  | .ok t => t.xferFails = s.xferFails ∧ t.busyIn = s.busyIn
  | .fault _ => True
  | .skip _ _ | .wait _ | .raised _ _ => False

theorem Micro.run_quiet {m : Micro} (hm : m.isQuiet = true) (s : State) : (m.run s).Quiet s := by
  cases m <;> simp only [Micro.isQuiet, Bool.false_eq_true] at hm
  case release => simp only [Micro.run]; split <;> exact ⟨rfl, rfl⟩
  case finish o => exact ⟨rfl, rfl⟩
  all_goals
    simp only [Micro.run]
    cases s.frameOperand with
    | ok f => exact ⟨rfl, rfl⟩
    | error g => trivial

/-- A stretch of quiet steps completes. -/
theorem runMicros_quiet {i : Instr} {ms : List Micro} {n : Nat} {s t : State} (hms : ∀ m ∈ ms, m.isQuiet = true)
    (h : runMicros i ms n 0 s = .next t) :
    t.err = .none ∧ t.run = false ∧ t.xferFails = s.xferFails ∧ t.busyIn = s.busyIn := by
  induction ms generalizing n s with
  | nil => cases h; exact ⟨rfl, rfl, rfl, rfl⟩
  | cons m ms ih =>
    have hquiet := Micro.run_quiet (hms m List.mem_cons_self) s
    simp only [runMicros] at h
    cases hm : m.run s with
    | ok u =>
      rw [hm] at h hquiet
      obtain ⟨hfails, hbusy⟩ := hquiet
      obtain ⟨herr, hrun, hfails', hbusy'⟩ := ih (fun m hm => hms m (List.mem_cons_of_mem _ hm)) h
      exact ⟨herr, hrun, hfails'.trans hfails, hbusy'.trans hbusy⟩
    | fault f => rw [hm] at h; cases h
    | skip | wait | raised => rw [hm] at hquiet; exact hquiet.elim

/-- `deinit()` and the operations on frames are made of quiet steps (R89, R117, R118, R122, R136). -/
theorem isQuiet_program {i : Instr} (hi : i ∈ [.deinit, .enc1 true, .enc1 false, .enc4, .dither]) :
    i.format = .host ∧ ∀ m ∈ program i, m.isQuiet = true := by
  simp only [List.mem_cons, List.not_mem_nil, or_false] at hi
  rcases hi with rfl | rfl | rfl | rfl | rfl <;> exact ⟨rfl, List.all_eq_true.1 rfl⟩

end Sys2Proof.Machine

open Sys2Proof Sys2Proof.Machine

/-- Settles O49: the update's end is error entry, which ends the animation of the worker that issued it. -/
theorem failedAnimationUpdateEndsTheLoop : Obligations.FailedAnimationUpdateEndsTheLoop :=
  ⟨fun _ _ hw hr h ht he => (exec_endsInError rfl hr h ht he).animation hw,
    fun _ _ hw hr hno h ht he => (step_endsInError hr hno h ht he).animation hw⟩

/-- Settles O52: their steps raise nothing and ask neither oracle. -/
theorem quietOperationsRaiseNothing : Obligations.QuietOperationsRaiseNothing := by
  intro s t i hi hr h
  obtain ⟨hhost, hquiet⟩ := isQuiet_program hi
  rw [exec_idle i s hhost hr] at h
  exact runMicros_quiet (s := s.accept i) hquiet h

/-- Settles O53: a plain move makes no error but `IllegalCommand`, and a stretch no time-out without a ceiling. -/
theorem noTimeoutWithoutCeiling : Obligations.NoTimeoutWithoutCeiling := by
  intro s t hc hs hstep
  rcases step_moves hstep with ⟨h, f, st, an, e, g, rfl, -, herr, -⟩ | ⟨i, h, f, g, -, -, -, hrun⟩ |
    ⟨i, n, h, -, hrun⟩ | ⟨rest, -, rfl⟩
  · rcases herr with rfl | ⟨-, rfl⟩
    · exact hs
    · simp
  · exact runMicros_ne_panelTimeout (s := { s with host := h, frame := f, issuer := g }.accept i) hc (by simp) hrun
  · exact runMicros_ne_panelTimeout (s := { s with host := h }) hc hs hrun
  · simp [State.blockReset, State.reset]

end

section
/-! PROOFS. Any instruction, and any step but the block's reset, on a transport that lets some events through and fails the
next: in step with the good transport up to that event, and ended by it (R34, R49, R210, R211). -/

namespace Sys2Proof.Machine

/-! ### In step -/

/-- Wherever `f` answers a next state from `s` on a good transport, it is in step with that on one that fails. -/
def State.InStepWith (s : State) (f : State → Outcome) : Prop :=
  s.xferFails = [] → ∀ t, f s = .next t → s.RunsInStep t f

theorem State.fails_xferFails (s : State) : s.fails s.xferFails = s := rfl

/-- Nothing is asked of the transport, and nothing happens on the trace. -/
theorem State.InStepWith.quiet {s : State} {f : State → Outcome} {u : State} (ht : u.trace = s.trace)
    (hf : ∀ ks, f (s.fails ks) = .next (u.fails ks)) : s.InStepWith f := by
  intro hx t h
  rw [← s.fails_xferFails, hf] at h
  cases h
  exact ⟨[], by simpa [State.fails] using ht, hx, fun k ks => ⟨fun _ => hf (k :: ks), by simp⟩⟩

/-- No next state, whatever the transport answers. -/
theorem State.InStepWith.stuck {s : State} {f : State → Outcome} (h : ∀ t, f s ≠ .next t) : s.InStepWith f :=
  fun _ t ht => absurd ht (h t)

/-- What `f` does from `s`, `g` does from `u`, whose trace and transport are those of `s`. -/
theorem State.InStepWith.of_eq {s u : State} {f g : State → Outcome} (h : u.InStepWith g) (ht : u.trace = s.trace)
    (hx : u.xferFails = s.xferFails) (hf : ∀ ks, f (s.fails ks) = g (u.fails ks)) : s.InStepWith f := by
  intro hgood t hs
  have hs' : g u = .next t := by rw [← u.fails_xferFails, hx, ← hf]; exact hs
  obtain ⟨es, htrace, hend, hk⟩ := h (hx.trans hgood) t hs'
  refine ⟨es, by rw [htrace, ht], hend, fun k ks => ⟨fun hle => (hf _).trans ((hk k ks).1 hle), fun hlt => ?_⟩⟩
  obtain ⟨v, hv, hcut⟩ := (hk k ks).2 hlt
  exact ⟨v, (hf _).trans hv, by rwa [State.CutAt, ← ht]⟩

theorem State.errorEntry_fails (s : State) (ks : List Nat) (e : ErrCode) :
    (s.fails ks).errorEntry e = (s.errorEntry e).fails ks := by
  simp only [State.errorEntry, State.fails]
  cases s.saved <;> rfl

/-- The event the transport fails ends the operation with `TransportError`. -/
theorem State.RunsInStep.cut {s t : State} {f : State → Outcome} {k : Nat} (h : s.RunsInStep t f) (ks : List Nat)
    (hk : k < fallibleIn (t.trace.drop s.trace.length)) :
    ∃ u, f (s.fails (k :: ks)) = .next u ∧ u.run = false ∧ u.err = .transport ∧
      s.CutAt u (t.trace.drop s.trace.length) k ks := by
  obtain ⟨es, htrace, -, hes⟩ := h
  rw [htrace, List.drop_left] at hk ⊢
  obtain ⟨u, hu, hcut⟩ := (hes k ks).2 hk
  exact ⟨_, hu, rfl, rfl, by simpa [State.CutAt] using hcut⟩

/-! ### The instructions -/

theorem runMicros_inStepWith (i : Instr) (ms : List Micro) (n j : Nat) (s : State) :
    s.InStepWith (runMicros i ms n j) :=
  fun hx t h => runMicros_inStep i ms n j s t hx h

theorem runParts_inStep (ms : List Micro) (s : State) (hx : s.xferFails = []) : (runParts ms s).InStep s (runParts ms) := by
  induction ms generalizing s with
  | nil => exact .quiet [] rfl ⟨by simp, hx⟩ fun _ => rfl
  | cons m ms ih => exact (m.run_inStep s hx).andThen fun t _ ht => ih t ht

theorem wireCommand_inStepWith (ms : List Micro) (s : State) : s.InStepWith (wireCommand ms) := by
  intro hx t h
  obtain ⟨es, ha, hk⟩ := runParts_inStep ms s hx
  have hcut : ∀ k ks, k < fallibleIn es →
      ∃ u, wireCommand ms (s.fails (k :: ks)) = .next (u.errorEntry .transport) ∧ s.CutAt u es k ks := fun k ks hlt => by
    obtain ⟨u, hu, hcut⟩ := (hk k ks).2 hlt
    exact ⟨u, by rw [wireCommand, hu], hcut⟩
  unfold wireCommand at h
  cases hr : runParts ms s with
  | fault f => rw [hr] at h; cases h
  | raised e u =>
    rw [hr] at h ha hk
    cases h
    obtain ⟨htrace, hend⟩ := ha
    refine ⟨es, by simpa using htrace, by simpa using hend, fun k ks => ⟨fun hle => ?_, hcut k ks⟩⟩
    simp only [wireCommand, (hk k ks).1 hle, Result.map, State.errorEntry_fails]
  | ok u | skip _ u | wait u =>
    rw [hr] at h ha hk
    cases h
    obtain ⟨htrace, hend⟩ := ha
    exact ⟨es, htrace, hend, fun k ks => ⟨fun hle => by rw [wireCommand, (hk k ks).1 hle, Result.map], hcut k ks⟩⟩

theorem exec_inStepWith (i : Instr) (s : State) : s.InStepWith (exec i) := by
  cases hi : i.format with
  | wire => exact (wireCommand_inStepWith (wireParts i) s).of_eq rfl rfl fun ks => exec_wire i _ hi
  | host =>
    cases hr : s.run with
    | true => exact .quiet rfl fun ks => exec_running i (s.fails ks) hi hr
    | false =>
      exact (runMicros_inStepWith i (program i) 0 0 (s.accept i)).of_eq rfl rfl fun ks =>
        exec_idle i (s.fails ks) hi hr

/-! ### The steps -/

theorem resume_inStepWith (s : State) : s.InStepWith resume := by
  cases hc : s.cursor with
  | none => exact .quiet rfl fun ks => by simp [resume, State.fails, hc]
  | some p =>
    exact (runMicros_inStepWith p.1 ((program p.1).drop p.2) p.2 0 s).of_eq rfl rfl fun ks => by
      simp [resume, State.fails, hc]

theorem presentWord_inStepWith (w : Byte) (s : State) : s.InStepWith (presentWord w) := by
  cases hw : decodeHost w with
  | none =>
    cases hr : s.run with
    | true => exact .quiet rfl fun ks => presentWord_running (s := s.fails ks) hr w
    | false =>
      exact .quiet (u := { s with err := .illegalCommand }) rfl fun ks => presentWord_reserved (s := s.fails ks) hr hw
  | some i =>
    cases hwf : s.run || i.wf s.cfg with
    | true =>
      refine (exec_inStepWith i s).of_eq rfl rfl fun ks => ?_
      simp only [presentWord, hw]
      exact if_pos hwf
    | false => exact .stuck fun t => by simp [presentWord, hw, hwf]

theorem joinTurn_inStepWith (s : State) : s.InStepWith joinTurn := by
  cases hr : s.run with
  | true => exact (resume_inStepWith s).of_eq rfl rfl fun ks => joinTurn_running hr
  | false =>
    cases hs : s.stop with
    | true => exact .quiet (u := endAnimation s) rfl fun ks => joinTurn_stop hr hs
    | false => exact .quiet rfl fun ks => joinTurn_waits hr hs

theorem workerTurn_inStepWith (f : List Byte) (s : State) : s.InStepWith (workerTurn f) := by
  cases ha : s.anim with
  | false => exact .quiet rfl fun ks => by simp [workerTurn, State.fails, ha]
  | true =>
    by_cases hw : s.run = true ∧ s.issuer = .worker
    · exact (resume_inStepWith s).of_eq rfl rfl fun ks => workerTurn_waits f ha hw.1 hw.2
    · cases hs : s.stop with
      | true =>
        exact .quiet (u := endAnimation s) rfl fun ks => by
          simp [workerTurn, State.fails, ha, hs, hw, endAnimation]
      | false =>
        cases hr : s.run with
        | true =>
          have hother : s.issuer ≠ .worker := fun hi => hw ⟨hr, hi⟩
          exact .stuck fun t => by simp [workerTurn, ha, hs, hr, hother]
        | false =>
          by_cases hf : f.length = s.cfg.samples
          · refine (presentWord_inStepWith (encode (.upd1 false))
              { s with frame := Memory.ofList f, issuer := .worker }).of_eq rfl rfl fun ks => ?_
            simp [workerTurn, State.fails, ha, hs, hr, hf]
          · exact .stuck fun t => by simp [workerTurn, ha, hs, hr, hf]

/-- Every step but the block's reset. -/
theorem step_inStepWith (s : State) (hno : ∀ rest, s.host ≠ .reset :: rest) : s.InStepWith step := by
  cases hh : s.host with
  | nil => exact (resume_inStepWith s).of_eq rfl rfl fun ks => by simp [step, State.fails, hh]
  | cons move rest =>
    cases move with
    | word w =>
      refine (presentWord_inStepWith w
        { s with host := rest, issuer := if s.run then s.issuer else .foreground }).of_eq rfl rfl fun ks => ?_
      simp [step, State.fails, hh]
    | awaitRun =>
      cases hr : s.run with
      | true => exact (resume_inStepWith s).of_eq rfl rfl fun ks =>
        (step_awaitRun (s := s.fails ks) hh).trans (if_pos hr)
      | false => exact .quiet (u := { s with host := rest }) rfl fun ks => by simp [step, State.fails, hh, hr]
    | awaitAnim =>
      cases ha : s.anim with
      | true => exact (joinTurn_inStepWith s).of_eq rfl rfl fun ks =>
        (step_awaitAnim (s := s.fails ks) hh).trans (if_pos ha)
      | false => exact .quiet (u := { s with host := rest }) rfl fun ks => by simp [step, State.fails, hh, ha]
    | tick =>
      exact (resume_inStepWith { s with host := rest }).of_eq rfl rfl fun ks => by simp [step, State.fails, hh]
    | writeFrame i bs =>
      cases hr : s.run with
      | true => exact .stuck fun t => by simp [step, hh, hostWriteFrame, hr]
      | false =>
        by_cases hin : i + bs.length ≤ s.cfg.samples
        · exact .quiet (u := { s with host := rest, frame := s.frame.writeRange i bs }) rfl fun ks => by
            simp [step, State.fails, hh, hostWriteFrame, hr, hin]
        · exact .stuck fun t => by simp [step, hh, hostWriteFrame, hr, hin]
    | writeStop v =>
      exact .quiet (u := { s with host := rest, stop := v }) rfl fun ks => by simp [step, State.fails, hh]
    | startAnim => exact .quiet (u := { s with host := rest, anim := true }) rfl fun ks => step_startAnim hh
    | animTurn f =>
      exact (workerTurn_inStepWith f { s with host := rest }).of_eq rfl rfl fun ks => step_animTurn hh
    | reset => exact absurd hh (hno rest)

end Sys2Proof.Machine

open Sys2Proof Sys2Proof.Machine

/-- Settles O54: the step that raised the error put its last event there; and an operation on a failing transport is in step
with the good one up to the event that fails. -/
theorem errorPlaceIsTheLastEvent : Obligations.ErrorPlaceIsTheLastEvent := by
  unfold Obligations.ErrorPlaceIsTheLastEvent
  intro placed
  have hplaced : ∀ s t : State, (t.err ≠ .none → s.EndsInError t) → placed t := fun s t hends =>
    ⟨fun he => (hends (by simp [he])).placedAt.1 he, fun he => ((hends (by simp [he])).placedAt.2 he).1⟩
  refine ⟨fun s t i hi hr h ht => hplaced s t (exec_endsInError hi hr h ht),
    fun s t hr hno h ht => hplaced s t (step_endsInError hr hno h ht), fun s t k ks hx => ?_⟩
  intro events cut hk
  exact ⟨fun i h => (exec_inStepWith i s hx t h).cut ks hk, fun hno h => (step_inStepWith s hno hx t h).cut ks hk⟩

end

section
/-! PROOFS. A wire command at the sequencer's position: the stretch run there begins with the transaction that is the command's
meaning, whatever the oracles answer, and goes on with what follows it (R9, R66, R180, R215). -/

namespace Sys2Proof.Machine

/-- With nothing scheduled, a step of an operation at its first place runs the operation from its beginning. -/
theorem step_eq_runMicros_program {s : State} {i : Instr} (hh : s.host = []) (hc : s.cursor = some (i, 0)) :
    step s = runMicros i (program i) 0 0 s := by
  simp only [step, hh, resume, hc, List.drop_zero]

/-- A transaction holds neither a condition nor a poll. -/
theorem plain_wireParts {i : Instr} (hi : i.format = .wire) : ∀ m ∈ wireParts i, m.plain = true := by
  rcases wireParts_eq i hi with ⟨hparts, -⟩ | ⟨d, hparts, -⟩ <;> rw [hparts] <;> exact List.all_eq_true.1 rfl

theorem wireCommand_ok {m : Micro} (ms : List Micro) {s t : State} (h : m.run s = .ok t) :
    wireCommand (m :: ms) s = wireCommand ms t := by
  simp only [wireCommand, runParts, h, Result.andThen]

theorem wireCommand_raised {m : Micro} (ms : List Micro) {e : ErrCode} {s t : State} (h : m.run s = .raised e t) :
    wireCommand (m :: ms) s = .next (t.errorEntry e) := by
  simp only [wireCommand, runParts, h, Result.andThen]

theorem wireCommand_fault {m : Micro} (ms : List Micro) {f : Fault} {s : State} (h : m.run s = .fault f) :
    wireCommand (m :: ms) s = .fault f := by
  simp only [wireCommand, runParts, h, Result.andThen]

/-- Plain steps at the head of an operation in flight answer as they do on their own: a failure ends the operation, and else
it goes on behind them. -/
theorem runMicros_of_wireCommand {i : Instr} {ms rest : List Micro} {n : Nat} {s t : State}
    (hms : ∀ m ∈ ms, m.plain = true) (hr : s.run = true) (h : wireCommand ms s = .next t) :
    (t.run = false → runMicros i (ms ++ rest) n 0 s = .next t) ∧
      (t.run = true → runMicros i (ms ++ rest) n 0 s = runMicros i rest (n + ms.length) 0 t) := by
  induction ms generalizing n s with
  | nil =>
    cases h
    exact ⟨fun ht => by simp [hr] at ht, fun _ => rfl⟩
  | cons m ms ih =>
    have hplain := hms m List.mem_cons_self
    have hacc := m.run_keeps_acceptance s
    rw [List.cons_append]
    cases hm : m.run s with
    | ok u =>
      rw [wireCommand_ok ms hm] at h
      rw [runMicros_ok i _ n hm, List.length_cons, Nat.add_comm ms.length, ← Nat.add_assoc]
      exact ih (fun m hm => hms m (List.mem_cons_of_mem _ hm)) ((hacc.of_ok hm).1.trans hr) h
    | skip k u =>
      obtain ⟨c, rfl⟩ := Micro.skipUnless_of_skip hm
      cases hplain
    | wait u =>
      obtain rfl := Micro.poll_of_wait hm
      cases hplain
    | raised e u =>
      rw [wireCommand_raised ms hm] at h
      cases h
      exact ⟨fun _ => runMicros_raised i _ n hm, nofun⟩
    | fault f =>
      rw [wireCommand_fault ms hm] at h
      cases h

/-- The sequencer taken up at a place of an operation runs what is left of it. -/
theorem resume_at (s : State) (i : Instr) (n : Nat) :
    resume (s.at (some (i, n))) = runMicros i ((program i).drop n) n 0 s :=
  runMicros_at i _ n 0 s _

/-- After 0x02, 0x04 and 0x12, one step each, stands the await (R180). -/
theorem program_polled {i : Instr} (hi : i.format = .wire) (hpoll : encode i ∈ [0x02#8, 0x04#8, 0x12#8]) :
    program i = wireParts i ++ awaitNotBusy ∧ (wireParts i).length = 1 := by
  refine ⟨by rw [program_wire i hi, if_pos hpoll], ?_⟩
  rcases wireParts_eq i hi with ⟨hparts, -⟩ | ⟨d, -, hno⟩
  · rw [hparts, List.length_singleton]
  · exact absurd hpoll hno

end Sys2Proof.Machine

open Sys2Proof Sys2Proof.Machine

/-- Settles O7: the command's program is its transaction and then nothing or the await, and the stretch at its first place
does with the transaction what `exec` does. -/
theorem stepRunsTheWireCommand : Obligations.StepRunsTheWireCommand := by
  intro s t i hr hh hc hi h
  rw [exec_wire i s hi] at h
  rw [step_eq_runMicros_program hh hc]
  have hrun rest := runMicros_of_wireCommand (i := i) (rest := rest) (n := 0) (plain_wireParts hi) hr h
  refine ⟨fun ht => ?_, fun ht hno => ?_, fun ht hpoll => ?_⟩
  · rw [program_wire i hi]
    exact (hrun _).1 ht
  · rw [program_wire i hi, if_neg hno]
    exact (hrun []).2 ht
  · obtain ⟨hprog, hlen⟩ := program_polled hi hpoll
    have hrest : (program i).drop 1 = awaitNotBusy := by rw [hprog, ← hlen, List.drop_left]
    calc runMicros i (program i) 0 0 s = runMicros i awaitNotBusy 1 0 t := by
          rw [hprog, (hrun awaitNotBusy).2 ht, hlen]
      _ = resume (t.at (some (i, 1))) := by rw [resume_at, hrest]

end
